-- ==== Sys2Proof/Word.lean ====
section
/-! DEFINITION. The two access widths of the block (rule R67): the byte and the 32-bit word. -/

namespace Sys2Proof

/-- An 8-bit unsigned value (rules R9, R13): a wire byte, the check byte, an address byte, a command code. -/
abbrev Byte := BitVec 8

/-- A 32-bit unsigned value (rules R9, R13): a frame word, a payload word, a function code. -/
abbrev Word := BitVec 32

/-- A priority, 0 the highest, compared as an unsigned number (rules R13, R141; `PRIORITY_WIDTH` = 8). -/
abbrev Prio := BitVec 8

end Sys2Proof
end

