-- ==== Sys2Proof/Syntax.lean ====
section
/-! DEFINITION. The operations of the operation port (rule R100) and the Maple command codes (rule R96) as one
inductive, with the record types their operands are made of (rules R21, R29, R31, R171, R285). -/

namespace Sys2Proof

/-- A Maple packet (rules R21 to R23): the 32-bit frame word and the payload words. A packet whose payload length
differs from the declared count can exist; it is invalid (rule R128). -/
structure Packet where
  frameWord : Word
  payload   : List Word
  deriving DecidableEq, Repr

/-- The transmitter back-reference of a transmission (rule R31). Node 0 is the Main Node, node k the Sub Node k-1. -/
inductive Handle where
  /-- `NODE(k)`: a node of the topology. -/
  | node (k : Fin 6)
  /-- `FUNC(k, code)`: the peripheral function with this code owned by node k. -/
  | func (k : Fin 6) (code : Word)
  /-- `EXT(n)`: a requester outside the block. -/
  | ext (n : Nat)
  deriving DecidableEq, Repr

/-- One scheduled unit of bus work (rule R29). -/
structure Transmission where
  id                    : Nat
  priority              : Prio
  expectResponse        : Bool
  expectedResponseWords : Nat
  readTimeoutUs         : Nat
  autoRepeatUs          : Nat
  autoRepeatEndUs       : Option Nat
  durationUs            : Nat
  nextTimeUs            : Nat
  packet                : Packet
  transmitter           : Handle
  deriving DecidableEq, Repr

/-- A finished reception as the physical layer reports it (rule R171, `ev.rxFrame`). -/
structure RxFrame where
  bytes   : List Byte
  startOk : Bool
  endOk   : Bool
  deriving DecidableEq, Repr

/-- The line events that one poll samples (rule R171). -/
structure LineEvents where
  txDone     : Bool
  contention : Bool
  rxStarted  : Bool
  rxFrame    : Option RxFrame
  rxOverflow : Bool
  deriving DecidableEq, Repr

/-- The two execution contexts (rule R285). -/
inductive Context where
  /-- `CTX_BUS`: the bus-facing control loop. -/
  | bus
  /-- `CTX_DEV`: the device-facing glue. -/
  | dev
  deriving DecidableEq, Repr

/-- The operands of `ADD` beside its packet (rule R144). `readTimeoutUs` is `none` where the operand is omitted: it
then takes `CFG.DEFAULT_READ_TIMEOUT_US`. The other defaults are constants, filled in by the decoder. -/
structure AddOperands where
  priority              : Prio
  scheduledTimeUs       : Nat
  expectResponse        : Bool
  expectedResponseWords : Nat
  autoRepeatUs          : Nat
  readTimeoutUs         : Option Nat
  autoRepeatEndUs       : Option Nat
  transmitter           : Handle
  deriving DecidableEq, Repr

/-- The operands of `WRITE` beside its packet (rule R174). -/
structure WriteOperands where
  expectResponse : Bool
  readTimeoutUs  : Nat
  now            : Nat
  lineOpen       : Bool
  deriving DecidableEq, Repr

/-- The operation through which a packet with a given command code passes the block (rule R250): inbound it is the
frame of one poll, or is fed to a node; outbound it is handed to `ADD` or to `WRITE`. DESIGN CHOICE (log entry 3). -/
inductive Passage where
  /-- Inbound: the frame that `NODE.TASK` polls off the line (rule R216). -/
  | nodeTask (now : Nat) (lineOpen : Bool)
  /-- Inbound: the frame that `TL.READTASK` polls off the line (rule R201). -/
  | readTask (now : Nat)
  /-- Inbound: the frame that a direct `PROCESSEVENTS` polls off the line (rule R175). -/
  | processEvents (now : Nat)
  /-- Inbound: the packet fed to node k by `NODE.TXCOMPLETE` (rule R243). -/
  | txComplete (k : Byte) (t : Transmission)
  /-- Outbound: the packet handed to `ADD` (rule R144). -/
  | add (ops : AddOperands)
  /-- Outbound: the packet handed to `WRITE` (rule R174). -/
  | write (ops : WriteOperands)
  deriving DecidableEq, Repr

/-- One constructor per row of `spec/opcode_table.json`: the thirty operations of format `OP` (rule R100) and the
twelve command codes of format `FRAME` (rule R96). -/
inductive Instr where
  /-- `CRC.INIT`, R121 -/
  | crcInit
  /-- `CRC.UPDATE`, R122 -/
  | crcUpdate (b : Byte)
  /-- `CRC.READ`, R123 -/
  | crcRead
  /-- `CRC8`, R124 -/
  | crc8 (bytes : List Byte)
  /-- `MKADDR`, R125; each operand one byte on the port (log entry 4) -/
  | mkAddr (playerIndex mask : Byte)
  /-- `ENCODE`, R126 -/
  | encode (command recipientAddr senderAddr : Byte) (payload : List Word)
  /-- `DECODE`, R127 -/
  | decode (bytes : List Byte)
  /-- `ISVALID`, R128 -/
  | isValid (packet : Packet)
  /-- `SETSENDER`, R129 -/
  | setSender (packet : Packet) (addr : Byte)
  /-- `ADD`, R144 -/
  | add (packet : Packet) (ops : AddOperands)
  /-- `PEEKNEXT`, R147 -/
  | peekNext (now : Nat)
  /-- `POPITEM`, R150 -/
  | popItem (id now : Nat)
  /-- `CANCELBYID`, R151 -/
  | cancelById (id : Nat)
  /-- `CANCELBYRECIPIENT`, R152 -/
  | cancelByRecipient (addr : Byte)
  /-- `CANCELALL`, R153 -/
  | cancelAll
  /-- `COUNTRECIPIENTS`, R154 -/
  | countRecipients (addr : Byte)
  /-- `WRITE`, R174 -/
  | write (packet : Packet) (ops : WriteOperands)
  /-- `PROCESSEVENTS`, R175 -/
  | processEvents (now : Nat) (ev : LineEvents)
  /-- `ISBUSY`, R184 -/
  | isBusy
  /-- `GETREADDATA`, R185 -/
  | getReadData
  /-- `TL.READTASK`, R201 -/
  | tlReadTask (now : Nat) (ev : LineEvents)
  /-- `TL.WRITETASK`, R202 -/
  | tlWriteTask (now : Nat) (lineOpen : Bool)
  /-- `NODE.TASK`, R216 -/
  | nodeTask (now : Nat) (ev : LineEvents) (lineOpen : Bool)
  /-- `NODE.TXSTARTED`, R241; the node index is one byte on the port (log entry 4), here and in the next two -/
  | nodeTxStarted (k : Byte) (t : Transmission)
  /-- `NODE.TXFAILED`, R242 -/
  | nodeTxFailed (k : Byte) (writeFailed readFailed : Bool) (t : Transmission)
  /-- `NODE.TXCOMPLETE`, R243 -/
  | nodeTxComplete (k : Byte) (packet : Option Packet) (t : Transmission)
  /-- `RESET`, R310 -/
  | reset
  /-- `LOCK`, R297 -/
  | lock (ctx : Context)
  /-- `UNLOCK`, R298 -/
  | unlock (ctx : Context)
  /-- `TRYLOCK`, R299 -/
  | tryLock (ctx : Context)
  /-- Command 0x01, R251 -/
  | deviceInfoRequest (recipient sender count : Byte) (payload : List Word) (via : Passage)
  /-- Command 0x05, R252 -/
  | responseDeviceInfo (recipient sender count : Byte) (payload : List Word) (via : Passage)
  /-- Command 0x08, R253 -/
  | responseDataXfer (recipient sender count : Byte) (payload : List Word) (via : Passage)
  /-- Command 0x09, R254 -/
  | getCondition (recipient sender count : Byte) (payload : List Word) (via : Passage)
  /-- Command 0x0A, R255 -/
  | getMemoryInformation (recipient sender count : Byte) (payload : List Word) (via : Passage)
  /-- Command 0x0B, R256 -/
  | blockRead (recipient sender count : Byte) (payload : List Word) (via : Passage)
  /-- Command 0x0C, R257 -/
  | blockWrite (recipient sender count : Byte) (payload : List Word) (via : Passage)
  /-- Command 0x0E, R258 -/
  | setCondition (recipient sender count : Byte) (payload : List Word) (via : Passage)
  /-- Command 0xFB, R259 -/
  | responseFileError (recipient sender count : Byte) (payload : List Word) (via : Passage)
  /-- Command 0xFC, R260 -/
  | responseRequestResend (recipient sender count : Byte) (payload : List Word) (via : Passage)
  /-- Command 0xFD, R261 -/
  | responseUnknownCommand (recipient sender count : Byte) (payload : List Word) (via : Passage)
  /-- Command 0xFE, R262 -/
  | responseFunctionCodeNotSupported (recipient sender count : Byte) (payload : List Word) (via : Passage)
  deriving DecidableEq, Repr

/-- One request presented to the block, as bytes: an operation request of format `OP` (rules R100, R101), or a packet
with its command code (format `FRAME`, rules R90, R250). DESIGN CHOICE (log entry 2). -/
inductive Request where
  /-- The operation select code and the operands' bytes. -/
  | op (bytes : List Byte)
  /-- The frame word, the payload words, and the passage's bytes. -/
  | frame (bytes : List Byte)
  deriving DecidableEq, Repr

end Sys2Proof
end

