-- ==== Sys2Proof/Config.lean ====
section
/-! DEFINITION. The static configuration record `CFG` (rules R8, R50 to R53) and the reference configuration. -/

namespace Sys2Proof

/-- Which address byte of an inbound packet the router reads (rules R52, R217). -/
inductive RouteKey where
  | recipient
  | sender
  deriving DecidableEq, Repr

/-- The kinds of peripheral function (rule R225); `other` lets an integrator extend the table. -/
inductive FunctionKind where
  | controller
  | storage
  | screen
  | timer
  | vibration
  | other (tag : Nat)
  deriving DecidableEq, Repr

/-- One row of `CFG.FUNCTION_TABLE` (rule R225). -/
structure FunctionEntry where
  kind : FunctionKind
  code : Word
  deriving DecidableEq, Repr

/-- The configuration record `CFG` (rules R8, R50 to R53): every open field of rule R8. `BUS_ADDR` and
`KNOWN_COMMANDS` are computed from it (`busAddr`, `knownCommands`), as rules R52 and R53 give them. -/
structure Config where
  numBuses               : Nat
  playerIndex            : Fin 4
  discoveryPeriodUs      : Nat
  failThreshold          : Nat
  discoveryExpectedWords : Nat
  discoveryPriorityMain  : Prio
  discoveryPrioritySub   : Prio
  tBitNs                 : Nat
  slackPct               : Nat
  framingBits            : Nat
  rxTBitNs               : Nat
  responseDelayUs        : Nat
  defaultReadTimeoutUs   : Nat
  frameReadTimeoutUs     : Nat
  rxBufferBytes          : Nat
  extraKnownCommands     : List Byte
  functionTable          : List FunctionEntry
  routeKey               : RouteKey
  /-- `SCHED_CAPACITY`; `none` is unbounded. -/
  schedCapacity          : Option Nat
  deriving DecidableEq, Repr

/-- The reference configuration `CFG_REF` (rule R8) with the default function table (rule R225). Its values are no
claim about any hardware. DESIGN CHOICE as the configuration after reset (log entry 1). -/
def Config.ref : Config where
  numBuses               := 1
  playerIndex            := 0
  discoveryPeriodUs      := 16000
  failThreshold          := 3
  discoveryExpectedWords := 28
  discoveryPriorityMain  := 0
  discoveryPrioritySub   := 1
  tBitNs                 := 480
  slackPct               := 20
  framingBits            := 14
  rxTBitNs               := 1500
  responseDelayUs        := 50
  defaultReadTimeoutUs   := 1000
  frameReadTimeoutUs     := 15000
  rxBufferBytes          := 1025
  extraKnownCommands     := []
  functionTable          :=
    [⟨.controller, 0x00000001⟩, ⟨.storage, 0x00000002⟩, ⟨.screen, 0x00000004⟩, ⟨.timer, 0x00000008⟩,
     ⟨.vibration, 0x00000100⟩]
  routeKey               := .recipient
  schedCapacity          := none

end Sys2Proof
end

