-- ==== Sys2Proof/Machine/State.lean ====
section
/-! DEFINITION. The state of one block instance (rules R20 to R56), what its operations answer (rules R12, R172, R204,
R271, R296), the events of its output trace (rule R48), and the state after reset (rule R55). -/

namespace Sys2Proof.Machine

/-! ### Values the state and the results hold -/

/-- `BUS.phase` (rule R25). The codes are in `Flags.lean`. -/
inductive Phase where
  | idle
  | writeInProgress
  | writeComplete
  | readArmed
  | readInProgress
  | readComplete
  | readFailed
  | writeFailed
  deriving DecidableEq, Repr

/-- A failure reason (rule R272); the codes 6 and 7 are never produced and have no constructor. -/
inductive Reason where
  | none
  | timeout
  | crcInvalid
  | framingInvalid
  | overflow
  | contention
  deriving DecidableEq, Repr

/-- The three framing errors of `DECODE` (rule R271). -/
inductive FramingError where
  | badLength
  | badCrc
  | unknownCommand
  deriving DecidableEq, Repr

/-- What `PROCESSEVENTS` answers (rule R172). -/
structure Status where
  phase         : Phase
  readBuffer    : Option Packet
  failureReason : Reason
  deriving DecidableEq, Repr

/-- What `TL.READTASK` answers (rule R204). -/
inductive TlResult where
  | nothing
  /-- `none` is the document's null packet. -/
  | completed (packet : Option Packet) (t : Transmission)
  | failed (writeFailed readFailed : Bool) (reason : Reason) (t : Transmission)
  deriving DecidableEq, Repr

/-- The three answers of the mutual-exclusion object (rule R296). -/
inductive LockAnswer where
  | locked
  | wouldBlock
  | wouldDeadlock
  deriving DecidableEq, Repr

/-- The result of an operation (rules R11, R12). -/
inductive Result where
  /-- The operation has no result. -/
  | done
  /-- `ConstructionError` (rule R274). -/
  | constructionError
  /-- The byte that `CRC.READ`, `CRC8` and `MKADDR` answer. -/
  | byte (b : Byte)
  /-- The byte string that `ENCODE` answers. -/
  | bytes (bs : List Byte)
  /-- The packet that `DECODE` and `SETSENDER` answer. -/
  | packet (p : Packet)
  /-- The framing error that `DECODE` answers. -/
  | framingError (e : FramingError)
  /-- What `ISVALID`, `POPITEM`, `WRITE` and `ISBUSY` answer. -/
  | bool (b : Bool)
  /-- The id that `ADD` answers. -/
  | id (n : Nat)
  /-- The count that the cancel operations and `COUNTRECIPIENTS` answer. -/
  | count (n : Nat)
  /-- What `PEEKNEXT` and `TL.WRITETASK` answer. -/
  | transmission (t : Option Transmission)
  /-- What `PROCESSEVENTS` answers. -/
  | status (st : Status)
  /-- What `GETREADDATA` answers. -/
  | readData (p : Option Packet)
  /-- What `TL.READTASK` and `NODE.TASK` answer. -/
  | tl (r : TlResult)
  /-- What `LOCK` and `TRYLOCK` answer. -/
  | lock (a : LockAnswer)
  /-- A `LOCK` that is not enabled: it has had no effect (rule R297, log entry 7). -/
  | waiting
  deriving DecidableEq, Repr

/-- A Transmitter callback (rules R48, R281). -/
inductive Callback where
  | txStarted (h : Handle) (t : Transmission)
  | txComplete (h : Handle) (packet : Option Packet) (t : Transmission)
  | txFailed (h : Handle) (writeFailed readFailed : Bool) (t : Transmission)
  deriving DecidableEq, Repr

/-- The texts of the `log` events, one constructor each (rules R201, R220, R226, R231, R234, R298; log entry 13). -/
inductive LogText where
  /-- "result without in-flight transmission" -/
  | resultWithoutInFlight
  /-- "discovery request refused" -/
  | discoveryRefused
  /-- "unknown function bits" -/
  | unknownFunctionBits (k : Fin 6) (bits : Word)
  /-- "more than three functions" -/
  | moreThanThreeFunctions (k : Fin 6) (mask : Word)
  /-- "disconnect" -/
  | disconnect (k : Fin 6)
  /-- "sub node present" -/
  | subNodePresent (k : Fin 6)
  /-- "sub node gone" -/
  | subNodeGone (k : Fin 6)
  /-- "unlock by non-owner" -/
  | unlockByNonOwner
  deriving DecidableEq, Repr

/-- An event of the output trace (rule R48). -/
inductive Event where
  | wire (bytes : List Byte)
  | callback (c : Callback)
  | dropped (c : Callback)
  | functionCreated (k : Fin 6) (code : Word)
  | functionDestroyed (k : Fin 6) (code : Word)
  | log (text : LogText)
  deriving DecidableEq, Repr

/-! ### The units -/

/-- PKT (rule R24). -/
structure Pkt where
  crcAcc : Byte
  deriving DecidableEq, Repr

/-- BUS (rules R25 to R27). -/
structure Bus where
  phase          : Phase
  failureReason  : Reason
  txPacket       : Option Packet
  txBytes        : List Byte
  expectResponse : Bool
  readTimeoutUs  : Nat
  tWriteStart    : Nat
  writeDeadline  : Nat
  tArmed         : Nat
  tReadStart     : Nat
  readBuffer     : Option Packet
  deriving DecidableEq, Repr

/-- SCH (rule R28). -/
structure Sch where
  schedule : List Transmission
  nextId   : Nat
  deriving DecidableEq, Repr

/-- TL (rule R32). -/
structure Tl where
  inFlight : Option Transmission
  deriving DecidableEq, Repr

/-- The two states of a node (rule R43). -/
inductive NodeState where
  | searching
  | connected
  deriving DecidableEq, Repr

/-- The fields of a node record that change (rule R41); `mask` and `isRoot` are `nodeMask` and `isRoot`. -/
structure Node where
  present     : Bool
  state       : NodeState
  functions   : List Word
  failCount   : Nat
  discoveryId : Option Nat
  deriving DecidableEq, Repr

/-- TOPO (rule R40): `nodes[0]` is the Main Node, `nodes[k]` the Sub Node k-1. -/
structure Topo where
  nodes : Vector Node 6
  deriving DecidableEq, Repr

/-- The state of one instance (rule R20), the mutual-exclusion object beside it (rule R49), and two fields of the
model's own: the requests not yet taken (log entry 2) and the result of the last operation (log entry 6). -/
structure State where
  pkt        : Pkt
  bus        : Bus
  sch        : Sch
  tl         : Tl
  topo       : Topo
  out        : List Event
  mutexOwner : Option Context
  cfg        : Config
  port       : List Request
  result     : Result
  deriving DecidableEq, Repr

/-- Faults: none. No operation of the block halts it: "There are no unrecoverable process-level errors in the core"
(rules R12, R270), so this inductive has no constructor and no step ends in a fault. Safe. -/
inductive Fault where
  deriving DecidableEq, Repr

/-- Refusals. -/
inductive Refusal where
  /-- An instruction without a meaning in this model; raised by an arm of `exec` alone, and by none of them. Safe. -/
  | notModelled (mnemonic : String)
  deriving DecidableEq, Repr

/-! ### Reset (rules R55, R310) -/

/-- BUS after reset. -/
def Bus.reset : Bus where
  phase := .idle
  failureReason := .none
  txPacket := none
  txBytes := []
  expectResponse := false
  readTimeoutUs := 0
  tWriteStart := 0
  writeDeadline := 0
  tArmed := 0
  tReadStart := 0
  readBuffer := none

/-- A node after reset: searching, with nothing; the Main Node is present, a Sub Node is not. -/
def Node.reset (present : Bool) : Node where
  present := present
  state := .searching
  functions := []
  failCount := 0
  discoveryId := none

/-- TOPO after reset. -/
def Topo.reset : Topo where
  nodes := ⟨#[Node.reset true, Node.reset false, Node.reset false, Node.reset false, Node.reset false,
    Node.reset false], rfl⟩

/-- The state after reset of an instance built with `cfg` (rule R55), with no request and no result. -/
def State.resetWith (cfg : Config) : State where
  pkt := ⟨0x00⟩
  bus := Bus.reset
  sch := ⟨[], 1⟩
  tl := ⟨none⟩
  topo := Topo.reset
  out := []
  mutexOwner := none
  cfg := cfg
  port := []
  result := .done

/-- The machine right after reset, built with the reference configuration (rule R8; log entry 1). -/
def State.reset : State := State.resetWith Config.ref

end Sys2Proof.Machine
end

