-- ==== Sys2Proof/Machine/Flags.lean ====
section
/-! DEFINITION. The status values (rule R26): the busy predicate, the terminal phases, the two failure flags, the numeric
codes (rules R25, R43, R272, R296) and the status word (rule R105). -/

namespace Sys2Proof.Machine

/-- busy = (`BUS.phase` != `IDLE`) (rules R26, R184). -/
def Bus.busy (b : Bus) : Bool := b.phase != .idle

/-- The four terminal phases (rule R25). -/
def Phase.isTerminal : Phase → Bool
  | .idle => false
  | .writeInProgress => false
  | .writeComplete => true
  | .readArmed => false
  | .readInProgress => false
  | .readComplete => true
  | .readFailed => true
  | .writeFailed => true

/-- The two failed phases. -/
def Phase.isFailed : Phase → Bool
  | .readFailed => true
  | .writeFailed => true
  | .idle => false
  | .writeInProgress => false
  | .writeComplete => false
  | .readArmed => false
  | .readInProgress => false
  | .readComplete => false

/-- The phase codes (rule R25). -/
def Phase.code : Phase → Nat
  | .idle => 0
  | .writeInProgress => 1
  | .writeComplete => 2
  | .readArmed => 3
  | .readInProgress => 4
  | .readComplete => 5
  | .readFailed => 6
  | .writeFailed => 7

/-- The reason codes (rule R272). -/
def Reason.code : Reason → Nat
  | .none => 0
  | .timeout => 1
  | .crcInvalid => 2
  | .framingInvalid => 3
  | .overflow => 4
  | .contention => 5

/-- The framing-error codes (rule R270). -/
def FramingError.code : FramingError → Nat
  | .badLength => 1
  | .badCrc => 2
  | .unknownCommand => 3

/-- The node-state codes (rule R43). -/
def NodeState.code : NodeState → Nat
  | .searching => 0
  | .connected => 1

/-- The codes of the mutual-exclusion answers (rule R296). -/
def LockAnswer.code : LockAnswer → Nat
  | .locked => 0
  | .wouldBlock => 1
  | .wouldDeadlock => 2

/-- The `Status` word (rule R105): bits 2:0 phase, bits 5:3 reason, bit 6 read buffer present, the rest zero. -/
def statusWord (st : Status) : Word :=
  BitVec.ofNat 32 (st.phase.code + 8 * st.failureReason.code + (if st.readBuffer.isSome then 64 else 0))

/-- The failure reason that a framing error becomes in read validation (rule R180). -/
def FramingError.reason : FramingError → Reason
  | .badLength => .framingInvalid
  | .badCrc => .crcInvalid
  | .unknownCommand => .framingInvalid

end Sys2Proof.Machine
end

