-- ==== Sys2Proof/WellFormed.lean ====
section
/-! DEFINITION. Which configurations are instances of the block (rule R311), and which instructions the operation
port's operand encoding can carry (rules R92, R101). -/

namespace Sys2Proof

/-- A function code: a word with exactly one bit set (rules R13, R104). -/
def isFunctionCode (c : Word) : Bool := c != 0 && (c &&& (c - 1)) == 0

/-- The constraints of rule R311 on a configuration. The player index is in 0..3 by its type, `BUS_ADDR` and the
twelve known commands hold by the way they are computed. -/
def Config.wf (c : Config) : Bool :=
  1 ≤ c.numBuses && c.numBuses ≤ 4 && 0 < c.tBitNs && 0 < c.rxTBitNs && 0 < c.defaultReadTimeoutUs &&
  0 < c.frameReadTimeoutUs && 0 < c.discoveryPeriodUs && 1 ≤ c.failThreshold && c.discoveryExpectedWords ≤ 255 &&
  5 ≤ c.rxBufferBytes && c.functionTable.all (fun e => isFunctionCode e.code) &&
  decide ((c.functionTable.map (·.code)).Nodup)

/-- A time or duration fits `TIME_WIDTH` = 64 bits (rules R8, R101). -/
def wfTime (t : Nat) : Bool := t < 2 ^ 64

/-- An id fits `ID_WIDTH` = 32 bits (rules R8, R101). -/
def wfId (n : Nat) : Bool := n < 2 ^ 32

/-- A two-byte number (rule R101: a length, a number of words). -/
def wfCount (n : Nat) : Bool := n < 2 ^ 16

/-- An optional time fits. -/
def wfOptTime : Option Nat → Bool
  | none => true
  | some t => wfTime t

/-- A byte string fits its two-byte length (rule R101). -/
def wfBytes (bs : List Byte) : Bool := wfCount bs.length

/-- A packet's payload fits its two-byte number of words (rule R101). -/
def wfPacket (p : Packet) : Bool := wfCount p.payload.length

/-- An outside requester's number fits eight bytes (log entry 4). -/
def wfHandle : Handle → Bool
  | .node _ => true
  | .func _ _ => true
  | .ext n => n < 2 ^ 64

/-- Every field of a transmission fits its operand encoding. -/
def wfTransmission (t : Transmission) : Bool :=
  wfId t.id && wfCount t.expectedResponseWords && wfTime t.readTimeoutUs && wfTime t.autoRepeatUs &&
  wfOptTime t.autoRepeatEndUs && wfTime t.durationUs && wfTime t.nextTimeUs && wfPacket t.packet &&
  wfHandle t.transmitter

/-- A received frame fits. -/
def wfRxFrame : Option RxFrame → Bool
  | none => true
  | some f => wfBytes f.bytes

/-- Line events fit. -/
def wfEvents (ev : LineEvents) : Bool := wfRxFrame ev.rxFrame

/-- The operands of `ADD` fit; an omitted read timeout leaves the operands after it at their defaults too, since
operands are omitted from the end (rules R106, R144; log entry 4). -/
def wfAddOperands (a : AddOperands) : Bool :=
  wfTime a.scheduledTimeUs && wfCount a.expectedResponseWords && wfTime a.autoRepeatUs &&
  wfOptTime a.readTimeoutUs && wfOptTime a.autoRepeatEndUs && wfHandle a.transmitter &&
  (a.readTimeoutUs.isSome || (a.autoRepeatEndUs.isNone && a.transmitter == .ext 0))

/-- The operands of `WRITE` fit. -/
def wfWriteOperands (w : WriteOperands) : Bool := wfTime w.readTimeoutUs && wfTime w.now

/-- A passage's operands fit. -/
def wfPassage : Passage → Bool
  | .nodeTask now _ => wfTime now
  | .readTask now => wfTime now
  | .processEvents now => wfTime now
  | .txComplete _ t => wfTransmission t
  | .add a => wfAddOperands a
  | .write w => wfWriteOperands w

/-- A packet of format `FRAME` carries as many payload words as its count byte declares (rule R92). -/
def wfFrame (count : Byte) (payload : List Word) (via : Passage) : Bool :=
  payload.length == count.toNat && wfPassage via

/-- The instruction can be carried by its encoding: every operand fits its field (rules R92, R101). -/
def Instr.wf : Instr → Bool
  | .crcInit => true
  | .crcUpdate _ => true
  | .crcRead => true
  | .crc8 bytes => wfBytes bytes
  | .mkAddr _ _ => true
  | .encode _ _ _ payload => wfCount payload.length
  | .decode bytes => wfBytes bytes
  | .isValid p => wfPacket p
  | .setSender p _ => wfPacket p
  | .add p a => wfPacket p && wfAddOperands a
  | .peekNext now => wfTime now
  | .popItem id now => wfId id && wfTime now
  | .cancelById id => wfId id
  | .cancelByRecipient _ => true
  | .cancelAll => true
  | .countRecipients _ => true
  | .write p w => wfPacket p && wfWriteOperands w
  | .processEvents now ev => wfTime now && wfEvents ev
  | .isBusy => true
  | .getReadData => true
  | .tlReadTask now ev => wfTime now && wfEvents ev
  | .tlWriteTask now _ => wfTime now
  | .nodeTask now ev _ => wfTime now && wfEvents ev
  | .nodeTxStarted _ t => wfTransmission t
  | .nodeTxFailed _ _ _ t => wfTransmission t
  | .nodeTxComplete _ p t => p.all wfPacket && wfTransmission t
  | .reset => true
  | .lock _ => true
  | .unlock _ => true
  | .tryLock _ => true
  | .deviceInfoRequest _ _ count payload via => wfFrame count payload via
  | .responseDeviceInfo _ _ count payload via => wfFrame count payload via
  | .responseDataXfer _ _ count payload via => wfFrame count payload via
  | .getCondition _ _ count payload via => wfFrame count payload via
  | .getMemoryInformation _ _ count payload via => wfFrame count payload via
  | .blockRead _ _ count payload via => wfFrame count payload via
  | .blockWrite _ _ count payload via => wfFrame count payload via
  | .setCondition _ _ count payload via => wfFrame count payload via
  | .responseFileError _ _ count payload via => wfFrame count payload via
  | .responseRequestResend _ _ count payload via => wfFrame count payload via
  | .responseUnknownCommand _ _ count payload via => wfFrame count payload via
  | .responseFunctionCodeNotSupported _ _ count payload via => wfFrame count payload via

end Sys2Proof
end

