-- ==== Sys2Proof/Machine/Operands.lean ====
section
/-! DEFINITION. The operand forms: byte order (rules R10, R61), the fields of the frame word (rules R22, R90, R91),
the address byte (rules R70, R94, R125), the packet byte string (rule R92), and what the configuration computes
(rules R42, R52, R53). -/

namespace Sys2Proof

/-! ### Byte order (rules R10 (b), (c) and R61) -/

/-- The `n` low bytes of `v`, least significant first. -/
def leBytes : Nat → Nat → List Byte
  | 0, _ => []
  | n + 1, v => BitVec.ofNat 8 v :: leBytes n (v / 256)

/-- The unsigned value of a byte string, least significant byte first. -/
def ofLeBytes : List Byte → Nat
  | [] => 0
  | b :: bs => b.toNat + 256 * ofLeBytes bs

/-- `MemRead(buf, i, n)` (rule R10 (b)). -/
def memRead (buf : List Byte) (i n : Nat) : Nat := ofLeBytes ((buf.drop i).take n)

/-- Byte `i` of a byte string (rule R10 (a)); used only where the index is below the length. -/
def byteAt (buf : List Byte) (i : Nat) : Byte := buf.getD i 0

/-- The four bytes of a word in wire order (rule R61). -/
def wordBytes (w : Word) : List Byte := leBytes 4 w.toNat

/-- A list of words in wire order, four bytes each (rules R61, R92). -/
def wordsBytes (ws : List Word) : List Byte := ws.flatMap wordBytes

/-- The first `n` words of a byte string (rule R127, `MemRead(bytes, 4 + 4*j, 4)`). -/
def wordsOf : Nat → List Byte → List Word
  | 0, _ => []
  | n + 1, bs => BitVec.ofNat 32 (memRead bs 0 4) :: wordsOf n (bs.drop 4)

/-! ### The frame word (format `FRAME`, rules R22, R90, R91) -/

/-- Assembly of a frame word from its four bytes (rule R91). -/
def frameWordOf (command recipient sender count : Byte) : Word :=
  (command.zeroExtend 32 <<< 24) ||| (recipient.zeroExtend 32 <<< 16) ||| (sender.zeroExtend 32 <<< 8) |||
    count.zeroExtend 32

/-- `P.command`, bits 31:24. -/
def Packet.command (p : Packet) : Byte := p.frameWord.extractLsb' 24 8

/-- `P.recipient`, bits 23:16. -/
def Packet.recipient (p : Packet) : Byte := p.frameWord.extractLsb' 16 8

/-- `P.sender`, bits 15:8. -/
def Packet.sender (p : Packet) : Byte := p.frameWord.extractLsb' 8 8

/-- `P.count`, bits 7:0: the declared number of payload words. -/
def Packet.count (p : Packet) : Byte := p.frameWord.extractLsb' 0 8

/-- `T.recipient`, short for `T.packet.recipient` (rule R29). -/
def Transmission.recipient (t : Transmission) : Byte := t.packet.recipient

/-- The packet with this command code, addresses, declared count and payload (rules R21, R91). -/
def framePacket (command recipient sender count : Byte) (payload : List Word) : Packet where
  frameWord := frameWordOf command recipient sender count
  payload := payload

/-! ### Addresses (rules R7, R42, R52, R70, R125) -/

/-- `(playerIndex << 6) | mask` as one byte (rule R125). -/
def addrByte (playerIndex mask : Byte) : Byte := (playerIndex <<< 6) ||| mask

/-- The player index of the configuration as a byte. -/
def playerByte (cfg : Config) : Byte := BitVec.ofNat 8 cfg.playerIndex.val

/-- `CFG.BUS_ADDR` = `PLAYER_INDEX << 6` (rules R52, R71). -/
def busAddr (cfg : Config) : Byte := addrByte (playerByte cfg) 0x00

/-- The address mask of node k (rules R7, R41): 0x20 for the Main Node, `1 << (k-1)` for a Sub Node. -/
def nodeMask (k : Fin 6) : Byte := if k = 0 then 0x20 else 0x01 <<< (k.val - 1)

/-- `isRoot` (rule R41). -/
def isRoot (k : Fin 6) : Bool := k == 0

/-- `node[k].addr` (rule R42). -/
def nodeAddr (cfg : Config) (k : Fin 6) : Byte := addrByte (playerByte cfg) (nodeMask k)

/-- The six node indices in the order the rules serve them (rule R276 (f)). -/
def nodeIndices : List (Fin 6) := [0, 1, 2, 3, 4, 5]

/-- The five Sub Nodes. -/
def subIndices : List (Fin 6) := [1, 2, 3, 4, 5]

/-- The node a node-index operand names, if it is in 0..5 (rules R241 to R243). -/
def nodeOfByte (k : Byte) : Option (Fin 6) := if h : k.toNat < 6 then some ⟨k.toNat, h⟩ else none

/-- `SubIndex(a)` of a 6-bit value, as the node number i + 1 (rule R218). -/
def subIndex (a : Byte) : Option (Fin 6) := subIndices.find? (fun k => a == nodeMask k)

/-- `NodeOfAddr(a)` (rule R237): all eight bits are compared. -/
def nodeOfAddr (cfg : Config) (a : Byte) : Option (Fin 6) := nodeIndices.find? (fun k => nodeAddr cfg k == a)

/-- `Route(P)` (rule R217): the node an inbound packet is for. -/
def route (cfg : Config) (p : Packet) : Option (Fin 6) :=
  match cfg.routeKey with
  | .recipient =>
    let a := p.recipient &&& 0x3F
    if a = 0x20 then some 0 else subIndex a
  | .sender =>
    let a := p.sender &&& 0x3F
    if a.getLsbD 5 then some 0 else subIndex a

/-! ### Command codes and functions (rules R53, R96, R225) -/

/-- The twelve command codes of rule R96. -/
def baseCommands : List Byte := [0x01, 0x05, 0x08, 0x09, 0x0A, 0x0B, 0x0C, 0x0E, 0xFB, 0xFC, 0xFD, 0xFE]

/-- `CFG.KNOWN_COMMANDS` (rules R53, R97). -/
def knownCommands (cfg : Config) : List Byte := baseCommands ++ cfg.extraKnownCommands

/-- A command byte is recognized (rule R97). -/
def isKnown (cfg : Config) (c : Byte) : Bool := (knownCommands cfg).contains c

/-- `RecognizedMask`: the OR of the table's codes (rule R225). -/
def recognizedMask (cfg : Config) : Word := cfg.functionTable.foldl (fun m e => m ||| e.code) 0

/-- Insertion into a list of codes kept highest first. -/
def insertDesc (c : Word) : List Word → List Word
  | [] => [c]
  | d :: ds => if d.toNat ≤ c.toNat then c :: d :: ds else d :: insertDesc c ds

/-- The codes of the table that a mask selects, highest code first (rules R226, R228). -/
def selectedCodes (cfg : Config) (mask : Word) : List Word :=
  ((cfg.functionTable.map (·.code)).filter (fun c => mask &&& c != 0)).foldr insertDesc []

/-- `DiscoveryPacket(k)` (rule R219): command 0x01, no payload. -/
def discoveryPacket (cfg : Config) (k : Fin 6) : Packet := framePacket 0x01 (nodeAddr cfg k) (busAddr cfg) 0 []

/-! ### Durations (rules R143, R176) -/

/-- `ceil(a / b)` for `b > 0` (rule R9). -/
def ceilDiv (a b : Nat) : Nat := (a + b - 1) / b

/-- `FrameBits(n)` (rule R143). -/
def frameBits (cfg : Config) (n : Nat) : Nat := 32 * (n + 1) + 8 + cfg.framingBits

/-- `WriteTimeUs(n)` (rule R143). -/
def writeTimeUs (cfg : Config) (n : Nat) : Nat := ceilDiv (frameBits cfg n * cfg.tBitNs) 1000

/-- `ReadTimeUs(m)` (rule R143). -/
def readTimeUs (cfg : Config) (m : Nat) : Nat := cfg.responseDelayUs + ceilDiv (frameBits cfg m * cfg.rxTBitNs) 1000

/-- `DurationUs(n, e, m)` (rule R143). -/
def durationUs (cfg : Config) (n : Nat) (e : Bool) (m : Nat) : Nat :=
  writeTimeUs cfg n + (if e then readTimeUs cfg m else 0)

/-- `WriteTimeoutUs(n)` (rule R176). -/
def writeTimeoutUs (cfg : Config) (n : Nat) : Nat :=
  ceilDiv (frameBits cfg n * cfg.tBitNs * (100 + cfg.slackPct)) 100000

end Sys2Proof
end

