-- ==== Sys2Proof/Machine/Ops.lean ====
section
/-! DEFINITION. The named operations the meanings are made of: the updates of a state, an answer, a refusal (what stands
in the place of a trap, rules R274, R277), the node accessors, the delivery of callbacks (rule R224), and the pure
functions of PKT (rules R120 to R129). -/

namespace Sys2Proof.Machine

/-! ### Updates of a state -/

/-- Append an event to `OUT` (rule R10 (f)). -/
def State.emit (e : Event) (s : State) : State := { s with out := s.out ++ [e] }

/-- Append events in order. -/
def State.emitAll (es : List Event) (s : State) : State := { s with out := s.out ++ es }

/-- Set the result of the operation. -/
def State.respond (r : Result) (s : State) : State := { s with result := r }

/-- Write the check accumulator. -/
def State.setCrc (c : Byte) (s : State) : State := { s with pkt := ⟨c⟩ }

/-- Write the bus unit. -/
def State.setBus (b : Bus) (s : State) : State := { s with bus := b }

/-- Write the schedule. -/
def State.setSchedule (l : List Transmission) (s : State) : State := { s with sch := { s.sch with schedule := l } }

/-- Write the scheduler's next id. -/
def State.setNextId (n : Nat) (s : State) : State := { s with sch := { s.sch with nextId := n } }

/-- Write `TL.inFlight`. -/
def State.setInFlight (t : Option Transmission) (s : State) : State := { s with tl := ⟨t⟩ }

/-- Write the owner of the mutual-exclusion object. -/
def State.setOwner (o : Option Context) (s : State) : State := { s with mutexOwner := o }

/-- Write the requests not yet taken. -/
def State.setPort (p : List Request) (s : State) : State := { s with port := p }

/-- Read node k. -/
def State.node (s : State) (k : Fin 6) : Node := s.topo.nodes[k]

/-- Write node k. -/
def State.setNode (k : Fin 6) (n : Node) (s : State) : State := { s with topo := ⟨s.topo.nodes.set k n⟩ }

/-- `node[k].present` as it reads: the Main Node's is the constant true (rule R41). -/
def State.isPresent (s : State) (k : Fin 6) : Bool := k == 0 || (s.node k).present

/-- The outcome of a refused operation: `ConstructionError`, and nothing changes (rules R274, R277). -/
def refuse (s : State) : State := s.respond .constructionError

/-! ### Delivery of callbacks (rule R224) -/

/-- Does a handle resolve? (rule R31) -/
def resolves (s : State) : Handle → Bool
  | .node _ => true
  | .func k code => (s.node k).functions.contains code
  | .ext _ => true

/-- `Deliver` (rule R224): the callback, or its `dropped` form when its handle does not resolve. -/
def deliver (h : Handle) (c : Callback) (s : State) : State :=
  s.emit (if resolves s h then .callback c else .dropped c)

/-! ### The packet unit's functions -/

/-- `CRC8` (rules R120, R124): the XOR of every byte, from 0x00. -/
def crc8 (bytes : List Byte) : Byte := bytes.foldl (fun acc b => acc ^^^ b) 0x00

/-- The bytes before the check byte: the frame word and the payload words (rules R92, R126). -/
def bodyBytes (frameWord : Word) (payload : List Word) : List Byte := wordBytes frameWord ++ wordsBytes payload

/-- The byte string of a packet laid out as it is: frame word, payload words, check byte (rule R92). -/
def packetBytes (p : Packet) : List Byte :=
  bodyBytes p.frameWord p.payload ++ [crc8 (bodyBytes p.frameWord p.payload)]

/-- `ENCODE` (rule R126): `none` is `ConstructionError`. -/
def encodePacket (command recipientAddr senderAddr : Byte) (payload : List Word) : Option (List Byte) :=
  if payload.length > 255 then none
  else some (packetBytes
    (framePacket command recipientAddr senderAddr (BitVec.ofNat 8 payload.length) payload))

/-- `DECODE` (rule R127): the four checks in their order, then the packet. -/
def decodeBytes (cfg : Config) (bytes : List Byte) : Except FramingError Packet :=
  if bytes.length < 5 ∨ (bytes.length - 1) % 4 ≠ 0 then .error .badLength
  else if (byteAt bytes 0).toNat ≠ (bytes.length - 5) / 4 then .error .badLength
  else if crc8 (bytes.take (bytes.length - 1)) ≠ byteAt bytes (bytes.length - 1) then .error .badCrc
  else if isKnown cfg (byteAt bytes 3) = false then .error .unknownCommand
  else .ok
    { frameWord := BitVec.ofNat 32 (memRead bytes 0 4)
      payload := wordsOf ((bytes.length - 5) / 4) (bytes.drop 4) }

/-- `ISVALID` (rule R128). -/
def isValid (cfg : Config) (p : Packet) : Bool := isKnown cfg p.command && p.payload.length == p.count.toNat

/-- `SETSENDER` (rule R129). -/
def setSender (p : Packet) (a : Byte) : Packet :=
  { p with frameWord := (p.frameWord &&& 0xFFFF00FF) ||| (a.zeroExtend 32 <<< 8) }

end Sys2Proof.Machine
end

