-- ==== Sys2Proof/Machine/Pkt.lean ====
section
/-! DEFINITION. The meanings of the packet unit's operations (`40_packet_crc.md`, rules R121 to R129). -/

namespace Sys2Proof.Machine

/-- `CRC.INIT` (rule R121). -/
def execCrcInit (s : State) : Host.Outcome State Fault Refusal := .next ((s.setCrc 0x00).respond .done)

/-- `CRC.UPDATE` (rule R122). -/
def execCrcUpdate (b : Byte) (s : State) : Host.Outcome State Fault Refusal :=
  .next ((s.setCrc (s.pkt.crcAcc ^^^ b)).respond .done)

/-- `CRC.READ` (rule R123). -/
def execCrcRead (s : State) : Host.Outcome State Fault Refusal := .next (s.respond (.byte s.pkt.crcAcc))

/-- `CRC8` (rule R124). -/
def execCrc8 (bytes : List Byte) (s : State) : Host.Outcome State Fault Refusal :=
  .next (s.respond (.byte (crc8 bytes)))

/-- `MKADDR` (rule R125): refused when the player index is above 3 or the mask above 0x3F. -/
def execMkAddr (playerIndex mask : Byte) (s : State) : Host.Outcome State Fault Refusal :=
  if playerIndex.toNat > 3 ∨ mask.toNat > 0x3F then .next (refuse s)
  else .next (s.respond (.byte (addrByte playerIndex mask)))

/-- `ENCODE` (rule R126). -/
def execEncode (command recipientAddr senderAddr : Byte) (payload : List Word) (s : State) :
    Host.Outcome State Fault Refusal :=
  match encodePacket command recipientAddr senderAddr payload with
  | none => .next (refuse s)
  | some bytes => .next (s.respond (.bytes bytes))

/-- `DECODE` (rule R127). -/
def execDecode (bytes : List Byte) (s : State) : Host.Outcome State Fault Refusal :=
  match decodeBytes s.cfg bytes with
  | .error e => .next (s.respond (.framingError e))
  | .ok p => .next (s.respond (.packet p))

/-- `ISVALID` (rule R128). -/
def execIsValid (packet : Packet) (s : State) : Host.Outcome State Fault Refusal :=
  .next (s.respond (.bool (isValid s.cfg packet)))

/-- `SETSENDER` (rule R129). -/
def execSetSender (packet : Packet) (addr : Byte) (s : State) : Host.Outcome State Fault Refusal :=
  .next (s.respond (.packet (setSender packet addr)))

end Sys2Proof.Machine
end

