-- ==== Sys2Proof/Machine/System.lean ====
section
/-! DEFINITION. `RESET` (rule R310) and the three operations of the mutual-exclusion collaborator (rules R296 to R299). -/

namespace Sys2Proof.Machine

/-- Every field of the instance at its value of rule R55; `CFG` is kept (rule R310), and so are the requests that
stand outside the instance (log entry 12). -/
def resetState (s : State) : State := (State.resetWith s.cfg).setPort s.port

/-- `RESET` (rule R310). -/
def execReset (s : State) : Host.Outcome State Fault Refusal := .next (resetState s)

/-- `LOCK(ctx)` is not enabled: the other context owns the mutual-exclusion object (rule R297). -/
def lockWaits (ctx : Context) (s : State) : Bool := s.mutexOwner.any (fun c => c != ctx)

/-- `LOCK` (rule R297). Where it is not enabled it has no effect; `step` leaves its request in the port until it is
enabled, and stalls the calling context's requests behind it (rule R328; log entry 7). -/
def execLock (ctx : Context) (s : State) : Host.Outcome State Fault Refusal :=
  match s.mutexOwner with
  | none => .next ((s.setOwner (some ctx)).respond (.lock .locked))
  | some c => if c = ctx then .next (s.respond (.lock .wouldDeadlock)) else .next (s.respond .waiting)

/-- `UNLOCK` (rule R298). -/
def execUnlock (ctx : Context) (s : State) : Host.Outcome State Fault Refusal :=
  if s.mutexOwner = some ctx then .next ((s.setOwner none).respond .done)
  else .next ((s.emit (.log .unlockByNonOwner)).respond .done)

/-- `TRYLOCK` (rule R299). -/
def execTryLock (ctx : Context) (s : State) : Host.Outcome State Fault Refusal :=
  match s.mutexOwner with
  | none => .next ((s.setOwner (some ctx)).respond (.lock .locked))
  | some c => if c = ctx then .next (s.respond (.lock .wouldDeadlock)) else .next (s.respond (.lock .wouldBlock))

end Sys2Proof.Machine
end

