-- ==== Sys2Proof/Machine/BusUnit.lean ====
section
/-! DEFINITION. The bus protocol state machine (`42_bus_fsm.md`): its stages (rules R174 to R182) and the meanings of its
four operations. -/

namespace Sys2Proof.Machine

/-! ### WRITE (rule R174) -/

/-- `WRITE` is accepted: the phase is `IDLE`, the line is open, the packet is valid (rules R174, R273). -/
def writeAccepts (p : Packet) (w : WriteOperands) (s : State) : Bool :=
  s.bus.phase == .idle && w.lineOpen && isValid s.cfg p

/-- The bus unit after an accepted `WRITE` (rule R174). -/
def startedBus (p : Packet) (w : WriteOperands) (s : State) : Bus :=
  let q := setSender p (busAddr s.cfg)
  { s.bus with
    txPacket := some q
    txBytes := packetBytes q
    expectResponse := w.expectResponse
    readTimeoutUs := w.readTimeoutUs
    tWriteStart := w.now
    writeDeadline := w.now + writeTimeoutUs s.cfg q.count.toNat
    readBuffer := none
    failureReason := .none
    phase := .writeInProgress }

/-- `WRITE` (rule R174): accepted or not, and the state. -/
def busWrite (p : Packet) (w : WriteOperands) (s : State) : Bool × State :=
  if writeAccepts p w s then
    (true, (s.setBus (startedBus p w s)).emit (.wire (startedBus p w s).txBytes))
  else (false, s)

/-! ### PROCESSEVENTS (rules R175 to R182) -/

/-- `Fail(P, r)` (rule R175): the entry of a bus failure (rule R277). -/
def busFail (phase : Phase) (r : Reason) (b : Bus) : Bus := { b with phase := phase, failureReason := r }

/-- Stage W (rule R177). -/
def stageW (now : Nat) (ev : LineEvents) (b : Bus) : Bus :=
  if b.phase = .writeInProgress then
    if ev.contention then busFail .writeFailed .contention b
    else if ev.txDone then
      if b.expectResponse then { b with phase := .readArmed, tArmed := now }
      else { b with phase := .writeComplete }
    else if b.writeDeadline < now then busFail .writeFailed .timeout b
    else b
  else b

/-- Stage A (rule R179). -/
def stageA (now : Nat) (ev : LineEvents) (b : Bus) : Bus :=
  if b.phase = .readArmed then
    if ev.rxStarted || ev.rxFrame.isSome || ev.rxOverflow then { b with phase := .readInProgress, tReadStart := now }
    else if b.tArmed + b.readTimeoutUs < now then busFail .readFailed .timeout b
    else b
  else b

/-- `ValidateRx(f)` (rule R180): the packet, or the reason of the rejection. -/
def validateRx (cfg : Config) (f : RxFrame) : Except Reason Packet :=
  if cfg.rxBufferBytes < f.bytes.length then .error .overflow
  else if f.startOk = false ∨ f.endOk = false then .error .framingInvalid
  else
    match decodeBytes cfg f.bytes with
    | .error e => .error e.reason
    | .ok p => .ok p

/-- Stage R (rule R181). -/
def stageR (cfg : Config) (now : Nat) (ev : LineEvents) (b : Bus) : Bus :=
  if b.phase = .readInProgress then
    if ev.rxOverflow then busFail .readFailed .overflow b
    else
      match ev.rxFrame with
      | some f =>
        match validateRx cfg f with
        | .ok p => { b with readBuffer := some p, phase := .readComplete }
        | .error r => busFail .readFailed r b
      | none =>
        if b.tReadStart + cfg.frameReadTimeoutUs < now then busFail .readFailed .timeout b
        else b
  else b

/-- The status that stage T reports (rules R172, R182). -/
def statusOf (b : Bus) : Status where
  phase := b.phase
  readBuffer := if b.phase = .readComplete then b.readBuffer else none
  failureReason := if b.phase.isFailed then b.failureReason else .none

/-- Stage T frees the bus from a terminal phase (rule R182). -/
def freeBus (b : Bus) : Bus := if b.phase.isTerminal then { b with phase := .idle, txPacket := none } else b

/-- The bus unit before stage T of a poll (rule R175). -/
def polledBus (cfg : Config) (now : Nat) (ev : LineEvents) (b : Bus) : Bus :=
  stageR cfg now ev (stageA now ev (stageW now ev b))

/-- `PROCESSEVENTS` (rule R175): the status and the state. -/
def processEvents (now : Nat) (ev : LineEvents) (s : State) : Status × State :=
  let b := polledBus s.cfg now ev s.bus
  (statusOf b, s.setBus (freeBus b))

/-- `WRITE` as an operation: the acceptance is the result (rule R174). -/
def opWrite (p : Packet) (w : WriteOperands) (s : State) : State :=
  (busWrite p w s).2.respond (.bool (busWrite p w s).1)

/-- `PROCESSEVENTS` as an operation: the status is the result (rule R175). -/
def opProcessEvents (now : Nat) (ev : LineEvents) (s : State) : State :=
  (processEvents now ev s).2.respond (.status (processEvents now ev s).1)

/-! ### The meanings -/

/-- `WRITE` (rule R174). -/
def execWrite (packet : Packet) (ops : WriteOperands) (s : State) : Host.Outcome State Fault Refusal :=
  .next (opWrite packet ops s)

/-- `PROCESSEVENTS` (rule R175). -/
def execProcessEvents (now : Nat) (ev : LineEvents) (s : State) : Host.Outcome State Fault Refusal :=
  .next (opProcessEvents now ev s)

/-- `ISBUSY` (rule R184). -/
def execIsBusy (s : State) : Host.Outcome State Fault Refusal := .next (s.respond (.bool s.bus.busy))

/-- `GETREADDATA` (rule R185). -/
def execGetReadData (s : State) : Host.Outcome State Fault Refusal := .next (s.respond (.readData s.bus.readBuffer))

end Sys2Proof.Machine
end

