-- ==== Sys2Proof/Machine/Sch.lean ====
section
/-! DEFINITION. The prioritized transmission scheduler (`41_scheduler.md`): its shared operations (rules R142 to R154) and
the meanings of its seven operations. -/

namespace Sys2Proof.Machine

/-! ### The ordered schedule (rules R141, R142) -/

/-- `Key(X) < Key(Y)` for the key (`nextTimeUs`, `priority`), lexicographic (rules R141, R142). -/
def keyLt (x y : Transmission) : Bool :=
  x.nextTimeUs < y.nextTimeUs || (x.nextTimeUs == y.nextTimeUs && x.priority.toNat < y.priority.toNat)

/-- `Insert(S, T)` (rule R142): behind every entry whose key is less than or equal to its own. The one definition that
settles ties (rule R149). -/
def insertTx (t : Transmission) : List Transmission → List Transmission
  | [] => [t]
  | x :: xs => if keyLt t x then t :: x :: xs else x :: insertTx t xs

/-! ### The ordering rule (rules R145 to R147) -/

/-- `Due(T, now)` (rule R145). -/
def due (t : Transmission) (now : Nat) : Bool := t.nextTimeUs ≤ now

/-- `MayPass(A, B, now)` (rule R145), clause (i) kept as the document states it (conflict C5). -/
def mayPass (a b : Transmission) (now : Nat) : Bool :=
  now + a.durationUs < b.nextTimeUs || (b.nextTimeUs ≤ now && a.priority.toNat < b.priority.toNat)

/-- `Eligible` (rule R146) of an entry `a` with the entries `ahead` of it in the schedule. -/
def eligible (ahead : List Transmission) (a : Transmission) (now : Nat) : Bool :=
  due a now && ahead.all (fun b => b.recipient != a.recipient) && ahead.all (fun b => mayPass a b now)

/-- The eligible entries of a schedule in their order; `ahead` holds the entries already passed by. -/
def eligibleEntries (now : Nat) (ahead : List Transmission) : List Transmission → List Transmission
  | [] => []
  | a :: rest =>
    if eligible ahead a now then a :: eligibleEntries now (ahead ++ [a]) rest
    else eligibleEntries now (ahead ++ [a]) rest

/-- The entry whose priority is numerically least; among equals, the first (rule R147). -/
def leastPriority : List Transmission → Option Transmission
  | [] => none
  | a :: rest =>
    match leastPriority rest with
    | none => some a
    | some b => if b.priority.toNat < a.priority.toNat then some b else some a

/-- `PEEKNEXT` (rule R147). -/
def peekNext (schedule : List Transmission) (now : Nat) : Option Transmission :=
  leastPriority (eligibleEntries now [] schedule)

/-! ### ADD, POPITEM, the cancel operations -/

/-- `ID_WIDTH` = 32 (rule R8): the last id `ADD` may give (rules R141, R144). -/
def lastId : Nat := 2 ^ 32 - 1

/-- `len(S) >= CFG.SCHED_CAPACITY` (rules R8, R144). -/
def scheduleFull (s : State) : Bool :=
  match s.cfg.schedCapacity with
  | none => false
  | some n => n ≤ s.sch.schedule.length

/-- `ADD` refuses these operands (rule R144, in its order of tests). -/
def addRefuses (p : Packet) (a : AddOperands) (s : State) : Bool :=
  !isValid s.cfg p || 255 < a.expectedResponseWords || scheduleFull s || lastId < s.sch.nextId

/-- The transmission that `ADD` makes (rule R144). -/
def newTransmission (p : Packet) (a : AddOperands) (s : State) : Transmission where
  id := s.sch.nextId
  priority := a.priority
  expectResponse := a.expectResponse
  expectedResponseWords := a.expectedResponseWords
  readTimeoutUs := a.readTimeoutUs.getD s.cfg.defaultReadTimeoutUs
  autoRepeatUs := a.autoRepeatUs
  autoRepeatEndUs := a.autoRepeatEndUs
  durationUs := durationUs s.cfg p.count.toNat a.expectResponse a.expectedResponseWords
  nextTimeUs := a.scheduledTimeUs
  packet := p
  transmitter := a.transmitter

/-- `ADD` (rule R144): the id and the state, or nothing for `ConstructionError`. -/
def addTx (p : Packet) (a : AddOperands) (s : State) : Option (Nat × State) :=
  if addRefuses p a s then none
  else
    let t := newTransmission p a s
    some (t.id, (s.setNextId (s.sch.nextId + 1)).setSchedule (insertTx t s.sch.schedule))

/-- How many periods `POPITEM` advances (rule R150, conflict C3). -/
def repeatSteps (x : Transmission) (now : Nat) : Nat :=
  if now < x.nextTimeUs then 1 else (now - x.nextTimeUs) / x.autoRepeatUs + 1

/-- The next time of an auto-repeat transmission popped at `now` (rule R150). -/
def repeatTime (x : Transmission) (now : Nat) : Nat := x.nextTimeUs + repeatSteps x now * x.autoRepeatUs

/-- Is the popped transmission put back? (rule R150) -/
def repeats (x : Transmission) (now : Nat) : Bool :=
  0 < x.autoRepeatUs &&
    (match x.autoRepeatEndUs with
     | none => true
     | some e => repeatTime x now ≤ e)

/-- The schedule after `POPITEM`, or nothing where no entry has the id (rule R150; log entry 11). -/
def popSchedule (id now : Nat) (schedule : List Transmission) : Option (List Transmission) :=
  match schedule.find? (fun x => x.id == id) with
  | none => none
  | some x =>
    let rest := schedule.eraseP (fun y => y.id == id)
    some (if repeats x now then insertTx { x with nextTimeUs := repeatTime x now } rest else rest)

/-- `POPITEM` (rule R150). -/
def popItem (id now : Nat) (s : State) : Bool × State :=
  match popSchedule id now s.sch.schedule with
  | none => (false, s)
  | some l => (true, s.setSchedule l)

/-- Remove every entry that satisfies `p`, keep the rest in their order, and count what was removed. -/
def cancelWhere (p : Transmission → Bool) (s : State) : Nat × State :=
  (s.sch.schedule.countP p, s.setSchedule (s.sch.schedule.filter (fun t => !p t)))

/-- `CANCELBYID` (rule R151). -/
def cancelById (id : Nat) (s : State) : Nat × State := cancelWhere (fun t => t.id == id) s

/-- `CANCELBYRECIPIENT` (rule R152). -/
def cancelByRecipient (addr : Byte) (s : State) : Nat × State := cancelWhere (fun t => t.recipient == addr) s

/-- `COUNTRECIPIENTS` (rule R154). -/
def countRecipients (addr : Byte) (s : State) : Nat := s.sch.schedule.countP (fun t => t.recipient == addr)

/-- `ADD` as an operation: the id or `ConstructionError` is the result (rules R144, R274). -/
def opAdd (p : Packet) (a : AddOperands) (s : State) : State :=
  match addTx p a s with
  | none => refuse s
  | some (id, s') => s'.respond (.id id)

/-! ### The meanings -/

/-- `ADD` (rule R144). -/
def execAdd (packet : Packet) (ops : AddOperands) (s : State) : Host.Outcome State Fault Refusal :=
  .next (opAdd packet ops s)

/-- `PEEKNEXT` (rule R147). -/
def execPeekNext (now : Nat) (s : State) : Host.Outcome State Fault Refusal :=
  .next (s.respond (.transmission (peekNext s.sch.schedule now)))

/-- `POPITEM` (rule R150). -/
def execPopItem (id now : Nat) (s : State) : Host.Outcome State Fault Refusal :=
  .next ((popItem id now s).2.respond (.bool (popItem id now s).1))

/-- `CANCELBYID` (rule R151). -/
def execCancelById (id : Nat) (s : State) : Host.Outcome State Fault Refusal :=
  .next ((cancelById id s).2.respond (.count (cancelById id s).1))

/-- `CANCELBYRECIPIENT` (rule R152). -/
def execCancelByRecipient (addr : Byte) (s : State) : Host.Outcome State Fault Refusal :=
  .next ((cancelByRecipient addr s).2.respond (.count (cancelByRecipient addr s).1))

/-- `CANCELALL` (rule R153). -/
def execCancelAll (s : State) : Host.Outcome State Fault Refusal :=
  .next ((s.setSchedule []).respond (.count s.sch.schedule.length))

/-- `COUNTRECIPIENTS` (rule R154). -/
def execCountRecipients (addr : Byte) (s : State) : Host.Outcome State Fault Refusal :=
  .next (s.respond (.count (countRecipients addr s)))

end Sys2Proof.Machine
end

