-- ==== Sys2Proof/Machine/Timeliner.lean ====
section
/-! DEFINITION. The timeliner (`43_timeliner.md`): its two halves (rules R201, R202, R204) and their meanings. -/

namespace Sys2Proof.Machine

/-- What a terminal status means for the remembered transmission (rules R201, R204). -/
def tlResultOf (st : Status) (t : Transmission) : TlResult :=
  match st.phase with
  | .readComplete => .completed st.readBuffer t
  | .writeComplete => .completed none t
  | .writeFailed => .failed true false st.failureReason t
  | .readFailed => .failed false true st.failureReason t
  | .idle => .nothing
  | .writeInProgress => .nothing
  | .readArmed => .nothing
  | .readInProgress => .nothing

/-- The callback of a timeliner result to the transmission's transmitter (rules R201, R281). -/
def deliverResult (r : TlResult) (s : State) : State :=
  match r with
  | .nothing => s
  | .completed p t => deliver t.transmitter (.txComplete t.transmitter p t) s
  | .failed w f _ t => deliver t.transmitter (.txFailed t.transmitter w f t) s

/-- `TL.READTASK` (rule R201): the result and the state. -/
def readTask (now : Nat) (ev : LineEvents) (s : State) : TlResult × State :=
  let st := (processEvents now ev s).1
  let s1 := (processEvents now ev s).2
  if st.phase.isTerminal then
    match s1.tl.inFlight with
    | none => (.nothing, s1.emit (.log .resultWithoutInFlight))
    | some t => (tlResultOf st t, deliverResult (tlResultOf st t) (s1.setInFlight none))
  else (.nothing, s1)

/-- The `WRITE` operands that the timeliner passes on for a transmission (rule R202). -/
def writeOperandsOf (t : Transmission) (now : Nat) (lineOpen : Bool) : WriteOperands where
  expectResponse := t.expectResponse
  readTimeoutUs := t.readTimeoutUs
  now := now
  lineOpen := lineOpen

/-- `TL.WRITETASK` (rule R202): the transmission started, if any, and the state. -/
def writeTask (now : Nat) (lineOpen : Bool) (s : State) : Option Transmission × State :=
  if s.bus.phase != .idle || s.tl.inFlight.isSome then (none, s)
  else
    match peekNext s.sch.schedule now with
    | none => (none, s)
    | some t =>
      match busWrite t.packet (writeOperandsOf t now lineOpen) s with
      | (true, s1) =>
        (some t, deliver t.transmitter (.txStarted t.transmitter t) ((popItem t.id now s1).2.setInFlight (some t)))
      | (false, _) => (none, s)

/-- `TL.READTASK` as an operation. -/
def opReadTask (now : Nat) (ev : LineEvents) (s : State) : State :=
  (readTask now ev s).2.respond (.tl (readTask now ev s).1)

/-- `TL.READTASK` (rule R201). -/
def execTlReadTask (now : Nat) (ev : LineEvents) (s : State) : Host.Outcome State Fault Refusal :=
  .next (opReadTask now ev s)

/-- `TL.WRITETASK` (rule R202). -/
def execTlWriteTask (now : Nat) (lineOpen : Bool) (s : State) : Host.Outcome State Fault Refusal :=
  .next ((writeTask now lineOpen s).2.respond (.transmission (writeTask now lineOpen s).1))

end Sys2Proof.Machine
end

