-- ==== Sys2Proof/Machine/Topology.lean ====
section
/-! DEFINITION. The node topology (`44_topology.md`): discovery, results, device information, failure counting, disconnect
and presence (rules R219 to R236), and the meanings of the four `NODE` operations. -/

namespace Sys2Proof.Machine

/-! ### Tear-down and disconnect (rules R231, R232) -/

/-- The `functionDestroyed` events of a node's functions, in list order. -/
def destroyedEvents (k : Fin 6) (codes : List Word) : List Event := codes.map (Event.functionDestroyed k)

/-- The `functionCreated` events of a node's new functions, in list order. -/
def createdEvents (k : Fin 6) (codes : List Word) : List Event := codes.map (Event.functionCreated k)

/-- A node record torn down: no functions, searching, no failures, no discovery request; `present` is kept. -/
def clearedNode (n : Node) : Node :=
  { n with functions := [], state := .searching, failCount := 0, discoveryId := none }

/-- `TearDown(k)` (rule R231). -/
def tearDown (k : Fin 6) (s : State) : State :=
  let s1 := s.emitAll (destroyedEvents k (s.node k).functions)
  let s2 := (cancelByRecipient (nodeAddr s.cfg k) s1).2
  s2.setNode k (clearedNode (s2.node k))

/-- Write `node[k].present`. -/
def markPresent (k : Fin 6) (b : Bool) (s : State) : State := s.setNode k { s.node k with present := b }

/-- The Sub Node part of a Main Node disconnect (rule R232): torn down and not present. -/
def dropSubNode (s : State) (j : Fin 6) : State := markPresent j false (tearDown j s)

/-- `Disconnect(k)` (rules R231, R232, R275). -/
def disconnect (k : Fin 6) (s : State) : State :=
  let s1 := tearDown k (s.emit (.log (.disconnect k)))
  if k = 0 then subIndices.foldl dropSubNode s1 else s1

/-! ### Failures (rules R222, R230) -/

/-- `CountFailure(k)` (rule R230). -/
def countFailure (k : Fin 6) (s : State) : State :=
  if s.isPresent k = false then s
  else if (s.node k).state ≠ .connected then s
  else
    let s1 := s.setNode k { s.node k with failCount := (s.node k).failCount + 1 }
    if s.cfg.failThreshold ≤ (s.node k).failCount + 1 then disconnect k s1 else s1

/-- `HandleFailed(T)` (rule R222): the node is found by the recipient byte. -/
def handleFailed (t : Transmission) (s : State) : State :=
  match nodeOfAddr s.cfg t.recipient with
  | none => s
  | some k => countFailure k s

/-! ### Presence (rules R234 to R236) -/

/-- `SetPresent(k, b)` (rule R234). -/
def setPresent (k : Fin 6) (b : Bool) (s : State) : State :=
  if b then
    if (s.node k).present then s else (markPresent k true s).emit (.log (.subNodePresent k))
  else
    if (s.node k).present then (markPresent k false (tearDown k s)).emit (.log (.subNodeGone k)) else s

/-- `InferPresence(s)` (rule R234): bit i of the sender byte stands for Sub Node i. -/
def inferPresence (sender : Byte) (s : State) : State :=
  subIndices.foldl (fun st k => setPresent k (sender.getLsbD (k.val - 1)) st) s

/-! ### Device information (rules R226 to R228) -/

/-- The function-code bitmask of a device-info response (rules R95, R226). -/
def deviceMask (p : Packet) : Word := p.payload.headD 0

/-- The event of the unrecognized bits of a mask, if there are any (rules R226, R227). -/
def unknownBitsEvents (cfg : Config) (k : Fin 6) (mask : Word) : List Event :=
  if mask &&& ~~~(recognizedMask cfg) = 0 then []
  else [.log (.unknownFunctionBits k (mask &&& ~~~(recognizedMask cfg)))]

/-- `MAX_FUNCTIONS` (rule R7). -/
def maxFunctions : Nat := 3

/-- The events of a new function set: the old functions destroyed, the excess logged, the new ones created
(rules R226, R228). -/
def functionEvents (k : Fin 6) (old selected : List Word) (mask : Word) : List Event :=
  destroyedEvents k old ++
    ((if maxFunctions < selected.length then [.log (.moreThanThreeFunctions k mask)] else []) ++
      createdEvents k (selected.take maxFunctions))

/-- The record of a node that got this function set (rule R226). -/
def connectedNode (n : Node) (codes : List Word) : Node :=
  { n with functions := codes, state := .connected, failCount := 0, discoveryId := none }

/-- Cancel a node's discovery request, if it has one (rule R226). -/
def cancelDiscovery (id : Option Nat) (s : State) : State :=
  match id with
  | none => s
  | some i => (cancelById i s).2

/-- `ProcessDeviceInfo(k, P)` (rule R226). -/
def processDeviceInfo (k : Fin 6) (p : Packet) (s : State) : State :=
  let mask := deviceMask p
  let selected := selectedCodes s.cfg mask
  let s1 := s.emitAll (unknownBitsEvents s.cfg k mask)
  if selected = [] then s1
  else
    let s2 := s1.emitAll (functionEvents k (s.node k).functions selected mask)
    let s3 := cancelDiscovery (s.node k).discoveryId s2
    s3.setNode k (connectedNode (s.node k) (selected.take maxFunctions))

/-! ### Completed reads (rules R221, R229) -/

/-- A packet routed to a connected node resets its failure counter (rule R229). -/
def resetFailCount (k : Fin 6) (s : State) : State :=
  if (s.node k).state = .connected then s.setNode k { s.node k with failCount := 0 } else s

/-- `Observe(k, P)` (rule R221). -/
def observe (k : Fin 6) (p : Packet) (s : State) : State :=
  if s.isPresent k = false then s
  else
    let s1 := resetFailCount k s
    let s2 := if k = 0 then inferPresence p.sender s1 else s1
    if p.command = 0x05 then processDeviceInfo k p s2 else s2

/-- `HandleCompleted(P, T)` (rule R221). -/
def handleCompleted (p : Packet) (s : State) : State :=
  match route s.cfg p with
  | none => s
  | some k => observe k p s

/-! ### Discovery (rules R219, R220) -/

/-- The operands of node k's discovery request (rule R220). -/
def discoveryOperands (cfg : Config) (k : Fin 6) (now : Nat) : AddOperands where
  priority := if isRoot k then cfg.discoveryPriorityMain else cfg.discoveryPrioritySub
  scheduledTimeUs := now
  expectResponse := true
  expectedResponseWords := cfg.discoveryExpectedWords
  autoRepeatUs := cfg.discoveryPeriodUs
  readTimeoutUs := some cfg.defaultReadTimeoutUs
  autoRepeatEndUs := none
  transmitter := .node k

/-- Node k searches, is present, and has no discovery request (rule R220). -/
def wantsDiscovery (k : Fin 6) (s : State) : Bool :=
  s.isPresent k && (s.node k).state == .searching && (s.node k).discoveryId.isNone

/-- `EnsureDiscovery(k, now)` (rule R220). -/
def ensureDiscovery (now : Nat) (s : State) (k : Fin 6) : State :=
  if wantsDiscovery k s then
    match addTx (discoveryPacket s.cfg k) (discoveryOperands s.cfg k now) s with
    | none => s.emit (.log .discoveryRefused)
    | some (id, s1) => s1.setNode k { s1.node k with discoveryId := some id }
  else s

/-! ### NODE.TASK (rule R216) -/

/-- The topology's reaction to the timeliner's result (rule R216). -/
def reactTo (r : TlResult) (s : State) : State :=
  match r with
  | .completed (some p) _ => handleCompleted p s
  | .completed none _ => s
  | .failed _ _ _ t => handleFailed t s
  | .nothing => s

/-- `NODE.TASK` (rule R216): read half, reaction, discovery for nodes 0 to 5, write half. -/
def nodeTask (now : Nat) (ev : LineEvents) (lineOpen : Bool) (s : State) : TlResult × State :=
  let r := (readTask now ev s).1
  let s1 := reactTo r (readTask now ev s).2
  let s2 := nodeIndices.foldl (ensureDiscovery now) s1
  (r, (writeTask now lineOpen s2).2)

/-- `NODE.TASK` as an operation. -/
def opNodeTask (now : Nat) (ev : LineEvents) (lineOpen : Bool) (s : State) : State :=
  (nodeTask now ev lineOpen s).2.respond (.tl (nodeTask now ev lineOpen s).1)

/-- `NODE.TXCOMPLETE` as an operation (rule R243): an invalid packet and the null packet change nothing. -/
def opNodeTxComplete (k : Byte) (packet : Option Packet) (t : Transmission) (s : State) : State :=
  match nodeOfByte k with
  | none => refuse s
  | some i =>
    let s1 := s.emit (.callback (.txComplete (.node i) packet t))
    match packet with
    | none => s1.respond .done
    | some p => (if isValid s.cfg p then observe i p s1 else s1).respond .done

/-! ### The meanings -/

/-- `NODE.TASK` (rule R216). -/
def execNodeTask (now : Nat) (ev : LineEvents) (lineOpen : Bool) (s : State) : Host.Outcome State Fault Refusal :=
  .next (opNodeTask now ev lineOpen s)

/-- `NODE.TXSTARTED` (rule R241). -/
def execNodeTxStarted (k : Byte) (t : Transmission) (s : State) : Host.Outcome State Fault Refusal :=
  match nodeOfByte k with
  | none => .next (refuse s)
  | some i => .next ((s.emit (.callback (.txStarted (.node i) t))).respond .done)

/-- `NODE.TXFAILED` (rule R242): the caller has chosen the node. -/
def execNodeTxFailed (k : Byte) (writeFailed readFailed : Bool) (t : Transmission) (s : State) :
    Host.Outcome State Fault Refusal :=
  match nodeOfByte k with
  | none => .next (refuse s)
  | some i =>
    .next ((countFailure i (s.emit (.callback (.txFailed (.node i) writeFailed readFailed t)))).respond .done)

/-- `NODE.TXCOMPLETE` (rule R243). -/
def execNodeTxComplete (k : Byte) (packet : Option Packet) (t : Transmission) (s : State) :
    Host.Outcome State Fault Refusal :=
  .next (opNodeTxComplete k packet t s)

end Sys2Proof.Machine
end

