-- ==== Sys2Proof/Machine/Wire.lean ====
section
/-! DEFINITION. The twelve Maple command codes (`45_wire_commands.md`): what the block does when a packet with a given code
passes through it (rule R250), one meaning per code. -/

namespace Sys2Proof.Machine

/-- The poll that finds this packet on the line, well framed and with its check byte, and no other event
(rules R92, R171; log entry 3). -/
def frameEvents (p : Packet) : LineEvents where
  txDone := false
  contention := false
  rxStarted := false
  rxFrame := some ⟨packetBytes p, true, true⟩
  rxOverflow := false

/-- A packet passes through the block (rule R250): inbound by a poll or by `NODE.TXCOMPLETE`, outbound by `ADD` or
`WRITE`. Nothing but these operations looks at it. -/
def passPacket (p : Packet) (via : Passage) (s : State) : State :=
  match via with
  | .nodeTask now lineOpen => opNodeTask now (frameEvents p) lineOpen s
  | .readTask now => opReadTask now (frameEvents p) s
  | .processEvents now => opProcessEvents now (frameEvents p) s
  | .txComplete k t => opNodeTxComplete k (some p) t s
  | .add a => opAdd p a s
  | .write w => opWrite p w s

/-- `DEVICE_INFO_REQUEST` (rule R251). -/
def execDeviceInfoRequest (recipient sender count : Byte) (payload : List Word) (via : Passage) (s : State) :
    Host.Outcome State Fault Refusal :=
  .next (passPacket (framePacket 0x01 recipient sender count payload) via s)

/-- `RESPONSE_DEVICE_INFO` (rule R252). -/
def execResponseDeviceInfo (recipient sender count : Byte) (payload : List Word) (via : Passage) (s : State) :
    Host.Outcome State Fault Refusal :=
  .next (passPacket (framePacket 0x05 recipient sender count payload) via s)

/-- `RESPONSE_DATA_XFER` (rule R253). -/
def execResponseDataXfer (recipient sender count : Byte) (payload : List Word) (via : Passage) (s : State) :
    Host.Outcome State Fault Refusal :=
  .next (passPacket (framePacket 0x08 recipient sender count payload) via s)

/-- `GET_CONDITION` (rule R254). -/
def execGetCondition (recipient sender count : Byte) (payload : List Word) (via : Passage) (s : State) :
    Host.Outcome State Fault Refusal :=
  .next (passPacket (framePacket 0x09 recipient sender count payload) via s)

/-- `GET_MEMORY_INFORMATION` (rule R255). -/
def execGetMemoryInformation (recipient sender count : Byte) (payload : List Word) (via : Passage) (s : State) :
    Host.Outcome State Fault Refusal :=
  .next (passPacket (framePacket 0x0A recipient sender count payload) via s)

/-- `BLOCK_READ` (rule R256). -/
def execBlockRead (recipient sender count : Byte) (payload : List Word) (via : Passage) (s : State) :
    Host.Outcome State Fault Refusal :=
  .next (passPacket (framePacket 0x0B recipient sender count payload) via s)

/-- `BLOCK_WRITE` (rule R257). -/
def execBlockWrite (recipient sender count : Byte) (payload : List Word) (via : Passage) (s : State) :
    Host.Outcome State Fault Refusal :=
  .next (passPacket (framePacket 0x0C recipient sender count payload) via s)

/-- `SET_CONDITION` (rule R258). -/
def execSetCondition (recipient sender count : Byte) (payload : List Word) (via : Passage) (s : State) :
    Host.Outcome State Fault Refusal :=
  .next (passPacket (framePacket 0x0E recipient sender count payload) via s)

/-- `RESPONSE_FILE_ERROR` (rule R259). -/
def execResponseFileError (recipient sender count : Byte) (payload : List Word) (via : Passage) (s : State) :
    Host.Outcome State Fault Refusal :=
  .next (passPacket (framePacket 0xFB recipient sender count payload) via s)

/-- `RESPONSE_REQUEST_RESEND` (rule R260). -/
def execResponseRequestResend (recipient sender count : Byte) (payload : List Word) (via : Passage) (s : State) :
    Host.Outcome State Fault Refusal :=
  .next (passPacket (framePacket 0xFC recipient sender count payload) via s)

/-- `RESPONSE_UNKNOWN_COMMAND` (rule R261). -/
def execResponseUnknownCommand (recipient sender count : Byte) (payload : List Word) (via : Passage) (s : State) :
    Host.Outcome State Fault Refusal :=
  .next (passPacket (framePacket 0xFD recipient sender count payload) via s)

/-- `RESPONSE_FUNCTION_CODE_NOT_SUPPORTED` (rule R262). -/
def execResponseFunctionCodeNotSupported (recipient sender count : Byte) (payload : List Word) (via : Passage)
    (s : State) : Host.Outcome State Fault Refusal :=
  .next (passPacket (framePacket 0xFE recipient sender count payload) via s)

end Sys2Proof.Machine
end

