-- ==== Sys2Proof/Machine/Dispatch.lean ====
section
/-! DEFINITION. One arm per instruction (rules R96, R100). -/

namespace Sys2Proof.Machine

def exec (i : Instr) (s : State) : Host.Outcome State Fault Refusal :=
  match i with
  -- PKT
  | .crcInit => Sys2Proof.Machine.execCrcInit s
  | .crcUpdate b => Sys2Proof.Machine.execCrcUpdate b s
  | .crcRead => Sys2Proof.Machine.execCrcRead s
  | .crc8 bytes => Sys2Proof.Machine.execCrc8 bytes s
  | .mkAddr playerIndex mask => Sys2Proof.Machine.execMkAddr playerIndex mask s
  | .encode c r a payload => Sys2Proof.Machine.execEncode c r a payload s
  | .decode bytes => Sys2Proof.Machine.execDecode bytes s
  | .isValid packet => Sys2Proof.Machine.execIsValid packet s
  | .setSender packet addr => Sys2Proof.Machine.execSetSender packet addr s
  -- SCH
  | .add packet ops => Sys2Proof.Machine.execAdd packet ops s
  | .peekNext now => Sys2Proof.Machine.execPeekNext now s
  | .popItem id now => Sys2Proof.Machine.execPopItem id now s
  | .cancelById id => Sys2Proof.Machine.execCancelById id s
  | .cancelByRecipient addr => Sys2Proof.Machine.execCancelByRecipient addr s
  | .cancelAll => Sys2Proof.Machine.execCancelAll s
  | .countRecipients addr => Sys2Proof.Machine.execCountRecipients addr s
  -- BUS
  | .write packet ops => Sys2Proof.Machine.execWrite packet ops s
  | .processEvents now ev => Sys2Proof.Machine.execProcessEvents now ev s
  | .isBusy => Sys2Proof.Machine.execIsBusy s
  | .getReadData => Sys2Proof.Machine.execGetReadData s
  -- TL
  | .tlReadTask now ev => Sys2Proof.Machine.execTlReadTask now ev s
  | .tlWriteTask now lineOpen => Sys2Proof.Machine.execTlWriteTask now lineOpen s
  -- TOPO
  | .nodeTask now ev lineOpen => Sys2Proof.Machine.execNodeTask now ev lineOpen s
  | .nodeTxStarted k t => Sys2Proof.Machine.execNodeTxStarted k t s
  | .nodeTxFailed k w r t => Sys2Proof.Machine.execNodeTxFailed k w r t s
  | .nodeTxComplete k packet t => Sys2Proof.Machine.execNodeTxComplete k packet t s
  -- RESET and MUTEX
  | .reset => Sys2Proof.Machine.execReset s
  | .lock ctx => Sys2Proof.Machine.execLock ctx s
  | .unlock ctx => Sys2Proof.Machine.execUnlock ctx s
  | .tryLock ctx => Sys2Proof.Machine.execTryLock ctx s
  -- command codes
  | .deviceInfoRequest r a n ws via => Sys2Proof.Machine.execDeviceInfoRequest r a n ws via s
  | .responseDeviceInfo r a n ws via => Sys2Proof.Machine.execResponseDeviceInfo r a n ws via s
  | .responseDataXfer r a n ws via => Sys2Proof.Machine.execResponseDataXfer r a n ws via s
  | .getCondition r a n ws via => Sys2Proof.Machine.execGetCondition r a n ws via s
  | .getMemoryInformation r a n ws via => Sys2Proof.Machine.execGetMemoryInformation r a n ws via s
  | .blockRead r a n ws via => Sys2Proof.Machine.execBlockRead r a n ws via s
  | .blockWrite r a n ws via => Sys2Proof.Machine.execBlockWrite r a n ws via s
  | .setCondition r a n ws via => Sys2Proof.Machine.execSetCondition r a n ws via s
  | .responseFileError r a n ws via => Sys2Proof.Machine.execResponseFileError r a n ws via s
  | .responseRequestResend r a n ws via => Sys2Proof.Machine.execResponseRequestResend r a n ws via s
  | .responseUnknownCommand r a n ws via => Sys2Proof.Machine.execResponseUnknownCommand r a n ws via s
  | .responseFunctionCodeNotSupported r a n ws via => Sys2Proof.Machine.execResponseFunctionCodeNotSupported r a n ws via s

end Sys2Proof.Machine
end

