-- ==== Sys2Proof/Decode.lean ====
section
/-! DEFINITION. The decoder of a request (rules R90, R93, R96, R100 to R102; log entries 2 to 5), total on any bytes
and rejecting by name, and after it the encoder, written from the same tables. -/

namespace Sys2Proof

/-! ### Readers of operands: a value and the bytes after it, or nothing -/

/-- A reader of one operand. -/
abbrev Parser (α : Type) := List Byte → Option (α × List Byte)

/-- A reader that reads nothing. -/
def takeNone (a : α) : Parser α := fun bs => some (a, bs)

/-- One byte. -/
def takeByte : Parser Byte
  | [] => none
  | b :: bs => some (b, bs)

/-- An unsigned number of `n` bytes, least significant first. -/
def takeNat : Nat → Parser Nat
  | 0, bs => some (0, bs)
  | _ + 1, [] => none
  | n + 1, b :: bs =>
    match takeNat n bs with
    | none => none
    | some (v, rest) => some (b.toNat + 256 * v, rest)

/-- Change what a reader answers. -/
def mapP (p : Parser α) (f : α → β) : Parser β := fun bs =>
  match p bs with
  | none => none
  | some (a, rest) => some (f a, rest)

/-- One reader after another. -/
def thenP (p : Parser α) (q : α → Parser β) : Parser β := fun bs =>
  match p bs with
  | none => none
  | some (a, rest) => q a rest

/-- A reader that fails. -/
def failP : Parser α := fun _ => none

/-- A bool: one byte, 0 or 1 (rule R101). -/
def takeBool : Parser Bool :=
  thenP takeByte fun b => if b = 0 then takeNone false else if b = 1 then takeNone true else failP

/-- A word: four bytes (rule R101). -/
def takeWord : Parser Word := mapP (takeNat 4) (BitVec.ofNat 32)

/-- A time or a duration: eight bytes (rule R101). -/
def takeTime : Parser Nat := takeNat 8

/-- An id: four bytes (rule R101); 0, which no entry of a schedule has, is accepted (log entry 15). -/
def takeId : Parser Nat := takeNat 4

/-- `n` values in a row. -/
def takeList (p : Parser α) : Nat → Parser (List α)
  | 0 => takeNone []
  | n + 1 => thenP p fun a => mapP (takeList p n) (a :: ·)

/-- A list of words: a two-byte number, then the words (rule R101 for a packet; log entry 4 for `ENCODE`). -/
def takeWords : Parser (List Word) := thenP (takeNat 2) (takeList takeWord)

/-- A byte string: a two-byte length, then the bytes (rule R101). -/
def takeBytes : Parser (List Byte) := thenP (takeNat 2) (takeList takeByte)

/-- A packet: its frame word, then the payload words actually given (rule R101). -/
def takePacket : Parser Packet := thenP takeWord fun w => mapP takeWords (Packet.mk w)

/-- An optional value: a tag 0 or 1, then the value (rule R101). -/
def takeOption (p : Parser α) : Parser (Option α) :=
  thenP takeBool fun some? => if some? then mapP p some else takeNone none

/-- A node index in 0..5 inside a handle (rule R31). -/
def takeNode : Parser (Fin 6) :=
  thenP takeByte fun k =>
    match nodeOfByte k with
    | some i => takeNone i
    | none => failP

/-- A handle: a tag 0, 1, 2 for `NODE`, `FUNC`, `EXT`, then its fields (log entry 4). DESIGN CHOICE (log entry 15): any
word is accepted as the code of a `FUNC` handle, also one that is no function code of rule R13; such a handle never
resolves where the function table is as rule R311 has it, since no node owns the code. -/
def takeHandle : Parser Handle :=
  thenP takeByte fun tag =>
    match tag.toNat with
    | 0 => mapP takeNode Handle.node
    | 1 => thenP takeNode fun k => mapP takeWord (Handle.func k)
    | 2 => mapP (takeNat 8) Handle.ext
    | _ => failP

/-- A context: 0 for `CTX_BUS`, 1 for `CTX_DEV` (log entry 4). -/
def takeContext : Parser Context := mapP takeBool fun b => if b then .dev else .bus

/-- A transmission: the fields of rule R29 in its order (log entry 4). DESIGN CHOICE (log entry 15): an id 0 and an
`expectedResponseWords` above 255, outside the types of rules R13 and R29, are accepted as given. -/
def takeTransmission : Parser Transmission :=
  thenP takeId fun id => thenP takeByte fun priority => thenP takeBool fun expectResponse =>
  thenP (takeNat 2) fun words => thenP takeTime fun readTimeout => thenP takeTime fun autoRepeat =>
  thenP (takeOption takeTime) fun endTime => thenP takeTime fun duration => thenP takeTime fun nextTime =>
  thenP takePacket fun packet => mapP takeHandle
    (Transmission.mk id priority expectResponse words readTimeout autoRepeat endTime duration nextTime packet)

/-- A received frame: its bytes, `startOk`, `endOk` (log entry 4). -/
def takeRxFrame : Parser RxFrame :=
  thenP takeBytes fun bytes => thenP takeBool fun startOk => mapP takeBool (RxFrame.mk bytes startOk)

/-- Line events: the five inputs of rule R171 in the order of its table (log entry 4). -/
def takeEvents : Parser LineEvents :=
  thenP takeBool fun txDone => thenP takeBool fun contention => thenP takeBool fun rxStarted =>
  thenP (takeOption takeRxFrame) fun rxFrame => mapP takeBool (LineEvents.mk txDone contention rxStarted rxFrame)

/-- An operand that takes its default where the request ends before it (rule R106). -/
def takeOr (default : α) (p : Parser α) : Parser α := fun bs =>
  match bs with
  | [] => some (default, [])
  | b :: rest => p (b :: rest)

/-- The last four operands of `ADD`, each with the default of rule R144. -/
def takeAddTail (build : Nat → Option Nat → Option Nat → Handle → AddOperands) : Parser AddOperands :=
  thenP (takeOr 0 takeTime) fun autoRepeat => thenP (takeOr none (mapP takeTime some)) fun readTimeout =>
  thenP (takeOr none (takeOption takeTime)) fun endTime =>
  mapP (takeOr (Handle.ext 0) takeHandle) (build autoRepeat readTimeout endTime)

/-- `ADD`'s packet and other operands in the order of rule R144. -/
def takeAdd : Parser (Packet × AddOperands) :=
  thenP takeByte fun priority => thenP takeTime fun scheduledTime => thenP takePacket fun packet =>
  thenP takeBool fun expectResponse => thenP (takeNat 2) fun words =>
  mapP (takeAddTail (AddOperands.mk priority scheduledTime expectResponse words)) (Prod.mk packet)

/-- `ADD`'s operands without a packet: the passage of a packet already given. -/
def takeAddOperands : Parser AddOperands :=
  thenP takeByte fun priority => thenP takeTime fun scheduledTime =>
  thenP takeBool fun expectResponse => thenP (takeNat 2) fun words =>
  takeAddTail (AddOperands.mk priority scheduledTime expectResponse words)

/-- `WRITE`'s operands after the packet (rule R174). -/
def takeWriteOperands : Parser WriteOperands :=
  thenP takeBool fun expectResponse => thenP takeTime fun readTimeout => thenP takeTime fun now =>
  mapP takeBool (WriteOperands.mk expectResponse readTimeout now)

/-- A passage: a tag, then its operands (log entry 3). -/
def takePassage : Parser Passage :=
  thenP takeByte fun tag =>
    match tag.toNat with
    | 0 => thenP takeTime fun now => mapP takeBool (Passage.nodeTask now)
    | 1 => mapP takeTime Passage.readTask
    | 2 => mapP takeTime Passage.processEvents
    | 3 => thenP takeByte fun k => mapP takeTransmission (Passage.txComplete k)
    | 4 => mapP takeAddOperands Passage.add
    | 5 => mapP takeWriteOperands Passage.write
    | _ => failP

/-! ### The decoder -/

/-- The reader of the operands that an operation select code selects (rule R100), or nothing for a reserved code.
DESIGN CHOICE (log entry 4): the operands that are small numbers and no `Byte` by type, the player index and the mask of
`MKADDR` (rule R125) and the node index of the three `NODE.TX` operations (rule R241), are one byte each. -/
def operandsOf : Nat → Option (Parser Instr)
  | 0x00 => some (takeNone .crcInit)
  | 0x01 => some (mapP takeByte .crcUpdate)
  | 0x02 => some (takeNone .crcRead)
  | 0x03 => some (mapP takeBytes .crc8)
  | 0x04 => some (thenP takeByte fun player => mapP takeByte (.mkAddr player))
  | 0x05 => some (thenP takeByte fun c => thenP takeByte fun r => thenP takeByte fun a => mapP takeWords (.encode c r a))
  | 0x06 => some (mapP takeBytes .decode)
  | 0x07 => some (mapP takePacket .isValid)
  | 0x08 => some (thenP takePacket fun p => mapP takeByte (.setSender p))
  | 0x10 => some (mapP takeAdd fun x => .add x.1 x.2)
  | 0x11 => some (mapP takeTime .peekNext)
  | 0x12 => some (thenP takeId fun id => mapP takeTime (.popItem id))
  | 0x13 => some (mapP takeId .cancelById)
  | 0x14 => some (mapP takeByte .cancelByRecipient)
  | 0x15 => some (takeNone .cancelAll)
  | 0x16 => some (mapP takeByte .countRecipients)
  | 0x20 => some (thenP takePacket fun p => mapP takeWriteOperands (.write p))
  | 0x21 => some (thenP takeTime fun now => mapP takeEvents (.processEvents now))
  | 0x22 => some (takeNone .isBusy)
  | 0x23 => some (takeNone .getReadData)
  | 0x30 => some (thenP takeTime fun now => mapP takeEvents (.tlReadTask now))
  | 0x31 => some (thenP takeTime fun now => mapP takeBool (.tlWriteTask now))
  | 0x40 => some (thenP takeTime fun now => thenP takeEvents fun ev => mapP takeBool (.nodeTask now ev))
  | 0x41 => some (thenP takeByte fun k => mapP takeTransmission (.nodeTxStarted k))
  | 0x42 => some (thenP takeByte fun k => thenP takeBool fun w => thenP takeBool fun r =>
      mapP takeTransmission (.nodeTxFailed k w r))
  | 0x43 => some (thenP takeByte fun k => thenP (takeOption takePacket) fun p =>
      mapP takeTransmission (.nodeTxComplete k p))
  | 0x50 => some (takeNone .reset)
  | 0x60 => some (mapP takeContext .lock)
  | 0x61 => some (mapP takeContext .unlock)
  | 0x62 => some (mapP takeContext .tryLock)
  | _ => none

/-- The instruction of a command code (rule R96), or nothing for any other code. -/
def frameInstr (command : Nat) (recipient sender count : Byte) (payload : List Word) (via : Passage) : Option Instr :=
  match command with
  | 0x01 => some (.deviceInfoRequest recipient sender count payload via)
  | 0x05 => some (.responseDeviceInfo recipient sender count payload via)
  | 0x08 => some (.responseDataXfer recipient sender count payload via)
  | 0x09 => some (.getCondition recipient sender count payload via)
  | 0x0A => some (.getMemoryInformation recipient sender count payload via)
  | 0x0B => some (.blockRead recipient sender count payload via)
  | 0x0C => some (.blockWrite recipient sender count payload via)
  | 0x0E => some (.setCondition recipient sender count payload via)
  | 0xFB => some (.responseFileError recipient sender count payload via)
  | 0xFC => some (.responseRequestResend recipient sender count payload via)
  | 0xFD => some (.responseUnknownCommand recipient sender count payload via)
  | 0xFE => some (.responseFunctionCodeNotSupported recipient sender count payload via)
  | _ => none

/-- Why a request is not an instruction. -/
inductive DecodeError where
  /-- An operation request without an operation select code. -/
  | emptyRequest
  /-- A select code outside rule R100 (rule R102). -/
  | reservedOpsel (code : Byte)
  /-- The operand bytes end early or hold a value no operand form admits (log entry 5). -/
  | malformedOperands (code : Byte)
  /-- The bytes of a `FRAME` request end early or hold no passage (log entry 5). -/
  | malformedFrame
  /-- A packet whose command code is none of rule R96's (rule R263). -/
  | unknownCommand (packet : Packet) (via : Passage)
  deriving DecidableEq, Repr

/-- Decoding of an operation request (rules R100, R102). Bytes after the operands are ignored (log entry 2). -/
def decodeOp (bs : List Byte) : Except DecodeError Instr :=
  match bs with
  | [] => .error .emptyRequest
  | code :: operands =>
    match operandsOf code.toNat with
    | none => .error (.reservedOpsel code)
    | some p =>
      match p operands with
      | none => .error (.malformedOperands code)
      | some (i, _) => .ok i

/-- The fields of a `FRAME` request: wire order of rule R62, then `count` words (rule R93), then the passage. -/
def takeFrame : Parser (Byte × Byte × Byte × Byte × List Word × Passage) :=
  thenP takeByte fun count => thenP takeByte fun sender => thenP takeByte fun recipient => thenP takeByte fun command =>
  thenP (takeList takeWord count.toNat) fun payload =>
  mapP takePassage fun via => (command, recipient, sender, count, payload, via)

/-- Decoding of a packet with its passage (rules R90, R93, R96, R263). DESIGN CHOICE (log entries 2 and 3): bytes
after the passage are ignored. -/
def decodeFrame (bs : List Byte) : Except DecodeError Instr :=
  match takeFrame bs with
  | none => .error .malformedFrame
  | some ((command, recipient, sender, count, payload, via), _) =>
    match frameInstr command.toNat recipient sender count payload via with
    | some i => .ok i
    | none => .error (.unknownCommand (framePacket command recipient sender count payload) via)

/-- The decoder of a request. -/
def decode : Request → Except DecodeError Instr
  | .op bs => decodeOp bs
  | .frame bs => decodeFrame bs

/-! ### The encoder -/

/-- A bool (rule R101). -/
def putBool (b : Bool) : List Byte := [if b then 1 else 0]

/-- A list of words with its two-byte number. -/
def putWords (ws : List Word) : List Byte := leBytes 2 ws.length ++ wordsBytes ws

/-- A byte string with its two-byte length (rule R101). -/
def putBytes (bs : List Byte) : List Byte := leBytes 2 bs.length ++ bs

/-- A packet (rule R101). -/
def putPacket (p : Packet) : List Byte := wordBytes p.frameWord ++ putWords p.payload

/-- An optional value (rule R101). -/
def putOption (put : α → List Byte) : Option α → List Byte
  | none => [0]
  | some a => 1 :: put a

/-- A time or a duration (rule R101). -/
def putTime (t : Nat) : List Byte := leBytes 8 t

/-- An id (rule R101). -/
def putId (n : Nat) : List Byte := leBytes 4 n

/-- A handle (log entry 4). -/
def putHandle : Handle → List Byte
  | .node k => [0, BitVec.ofNat 8 k.val]
  | .func k code => [1, BitVec.ofNat 8 k.val] ++ wordBytes code
  | .ext n => 2 :: leBytes 8 n

/-- A context (log entry 4). -/
def putContext : Context → List Byte
  | .bus => [0]
  | .dev => [1]

/-- A transmission (log entry 4). -/
def putTransmission (t : Transmission) : List Byte :=
  putId t.id ++ ([t.priority] ++ (putBool t.expectResponse ++ (leBytes 2 t.expectedResponseWords ++
  (putTime t.readTimeoutUs ++ (putTime t.autoRepeatUs ++ (putOption putTime t.autoRepeatEndUs ++
  (putTime t.durationUs ++ (putTime t.nextTimeUs ++ (putPacket t.packet ++ putHandle t.transmitter)))))))))

/-- A received frame (log entry 4). -/
def putRxFrame (f : RxFrame) : List Byte := putBytes f.bytes ++ (putBool f.startOk ++ putBool f.endOk)

/-- Line events (log entry 4). -/
def putEvents (ev : LineEvents) : List Byte :=
  putBool ev.txDone ++ (putBool ev.contention ++ (putBool ev.rxStarted ++
  (putOption putRxFrame ev.rxFrame ++ putBool ev.rxOverflow)))

/-- The last four operands of `ADD`; an omitted read timeout ends the request (rule R106, log entry 4). -/
def putAddTail (a : AddOperands) : List Byte :=
  putTime a.autoRepeatUs ++
    (match a.readTimeoutUs with
     | none => []
     | some t => putTime t ++ (putOption putTime a.autoRepeatEndUs ++ putHandle a.transmitter))

/-- `ADD`'s packet and other operands (rule R144). -/
def putAdd (p : Packet) (a : AddOperands) : List Byte :=
  [a.priority] ++ (putTime a.scheduledTimeUs ++ (putPacket p ++ (putBool a.expectResponse ++
  (leBytes 2 a.expectedResponseWords ++ putAddTail a))))

/-- `ADD`'s operands without a packet. -/
def putAddOperands (a : AddOperands) : List Byte :=
  [a.priority] ++ (putTime a.scheduledTimeUs ++ (putBool a.expectResponse ++
  (leBytes 2 a.expectedResponseWords ++ putAddTail a)))

/-- `WRITE`'s operands after the packet (rule R174). -/
def putWriteOperands (w : WriteOperands) : List Byte :=
  putBool w.expectResponse ++ (putTime w.readTimeoutUs ++ (putTime w.now ++ putBool w.lineOpen))

/-- A passage (log entry 3). -/
def putPassage : Passage → List Byte
  | .nodeTask now lineOpen => 0 :: (putTime now ++ putBool lineOpen)
  | .readTask now => 1 :: putTime now
  | .processEvents now => 2 :: putTime now
  | .txComplete k t => 3 :: k :: putTransmission t
  | .add a => 4 :: putAddOperands a
  | .write w => 5 :: putWriteOperands w

/-- A packet of format `FRAME` with its passage: the frame word in wire order (rule R62), the words, the passage. -/
def putFrame (command recipient sender count : Byte) (payload : List Word) (via : Passage) : Request :=
  .frame (count :: sender :: recipient :: command :: (wordsBytes payload ++ putPassage via))

/-- The encoder: the request that carries an instruction (rules R90, R96, R100, R101). -/
def encode : Instr → Request
  | .crcInit => .op [0x00]
  | .crcUpdate b => .op [0x01, b]
  | .crcRead => .op [0x02]
  | .crc8 bytes => .op (0x03 :: putBytes bytes)
  | .mkAddr player mask => .op [0x04, player, mask]
  | .encode c r a payload => .op (0x05 :: c :: r :: a :: putWords payload)
  | .decode bytes => .op (0x06 :: putBytes bytes)
  | .isValid p => .op (0x07 :: putPacket p)
  | .setSender p a => .op (0x08 :: (putPacket p ++ [a]))
  | .add p a => .op (0x10 :: putAdd p a)
  | .peekNext now => .op (0x11 :: putTime now)
  | .popItem id now => .op (0x12 :: (putId id ++ putTime now))
  | .cancelById id => .op (0x13 :: putId id)
  | .cancelByRecipient a => .op [0x14, a]
  | .cancelAll => .op [0x15]
  | .countRecipients a => .op [0x16, a]
  | .write p w => .op (0x20 :: (putPacket p ++ putWriteOperands w))
  | .processEvents now ev => .op (0x21 :: (putTime now ++ putEvents ev))
  | .isBusy => .op [0x22]
  | .getReadData => .op [0x23]
  | .tlReadTask now ev => .op (0x30 :: (putTime now ++ putEvents ev))
  | .tlWriteTask now lineOpen => .op (0x31 :: (putTime now ++ putBool lineOpen))
  | .nodeTask now ev lineOpen => .op (0x40 :: (putTime now ++ (putEvents ev ++ putBool lineOpen)))
  | .nodeTxStarted k t => .op (0x41 :: k :: putTransmission t)
  | .nodeTxFailed k w r t => .op (0x42 :: k :: (putBool w ++ (putBool r ++ putTransmission t)))
  | .nodeTxComplete k p t => .op (0x43 :: k :: (putOption putPacket p ++ putTransmission t))
  | .reset => .op [0x50]
  | .lock ctx => .op (0x60 :: putContext ctx)
  | .unlock ctx => .op (0x61 :: putContext ctx)
  | .tryLock ctx => .op (0x62 :: putContext ctx)
  | .deviceInfoRequest r a n ws via => putFrame 0x01 r a n ws via
  | .responseDeviceInfo r a n ws via => putFrame 0x05 r a n ws via
  | .responseDataXfer r a n ws via => putFrame 0x08 r a n ws via
  | .getCondition r a n ws via => putFrame 0x09 r a n ws via
  | .getMemoryInformation r a n ws via => putFrame 0x0A r a n ws via
  | .blockRead r a n ws via => putFrame 0x0B r a n ws via
  | .blockWrite r a n ws via => putFrame 0x0C r a n ws via
  | .setCondition r a n ws via => putFrame 0x0E r a n ws via
  | .responseFileError r a n ws via => putFrame 0xFB r a n ws via
  | .responseRequestResend r a n ws via => putFrame 0xFC r a n ws via
  | .responseUnknownCommand r a n ws via => putFrame 0xFD r a n ws via
  | .responseFunctionCodeNotSupported r a n ws via => putFrame 0xFE r a n ws via

/-! ### The opcode table's words -/

/-- The request that holds an opcode-table word: `nbits` bits laid out least significant byte first, then zero operand
bytes, enough for the longest operands that zeros can announce (255 payload words and a passage). A word of 8 bits
is an operation request, a wider one a frame word. -/
def tableRequest (nbits w : Nat) : Request :=
  let bytes := leBytes (nbits / 8) w ++ List.replicate 1100 0
  if nbits ≤ 8 then .op bytes else .frame bytes

/-- The instruction the decoder reads from an opcode-table word. -/
def decodeTableWord (nbits w : Nat) : Option Instr :=
  match decode (tableRequest nbits w) with
  | .ok i => some i
  | .error _ => none

end Sys2Proof
end

