-- ==== Sys2Proof/Machine/Port.lean ====
section
/-! DEFINITION. The fetch of the next request (rules R297, R328; log entries 2 and 7) and what a request that is no
instruction does (rules R102, R263, R274; log entry 5). -/

namespace Sys2Proof.Machine

/-- A request is not enabled: it is a `LOCK` that must wait (rule R297). -/
def requestWaits (s : State) (r : Request) : Bool :=
  match decode r with
  | .ok (.lock ctx) => lockWaits ctx s
  | _ => false

/-- The context that issues an instruction (rules R81, R285): the mutual-exclusion operations name their caller, every
other operation belongs to the bus-facing loop, `RESET` to neither. DESIGN CHOICE for `RESET` (log entry 7). -/
def issuer : Instr → Option Context
  | .lock ctx => some ctx
  | .unlock ctx => some ctx
  | .tryLock ctx => some ctx
  | .reset => none
  | _ => some .bus

/-- The context that issues a request; one that is no instruction belongs to the bus-facing loop (log entry 7). -/
def requestIssuer (r : Request) : Option Context :=
  match decode r with
  | .ok i => issuer i
  | .error _ => some .bus

/-- A request cannot be taken while these contexts are stalled: it is a `LOCK` that must wait (rule R297), or a call of a
context that waits in an earlier `LOCK` (rule R328). -/
def requestHeld (s : State) (stalled : List Context) (r : Request) : Bool :=
  requestWaits s r || (requestIssuer r).any stalled.contains

/-- The first request of a list that can be taken, and the list without it. A context whose request is held is stalled
for the rest of the list, so that each context's requests keep their order. -/
def takeEnabled (s : State) (stalled : List Context) : List Request → Option (Request × List Request)
  | [] => none
  | r :: rest =>
    if requestHeld s stalled r then
      match takeEnabled s ((requestIssuer r).toList ++ stalled) rest with
      | none => none
      | some (q, others) => some (q, r :: others)
    else some (r, rest)

/-- What a request that is no instruction does: a packet with another command code passes through the block as rule
R263 says; every other request is refused with `ConstructionError` and changes nothing (rules R102, R274). -/
def rejectRequest (e : DecodeError) (s : State) : State :=
  match e with
  | .unknownCommand p via => passPacket p via s
  | .emptyRequest => refuse s
  | .reservedOpsel _ => refuse s
  | .malformedOperands _ => refuse s
  | .malformedFrame => refuse s

end Sys2Proof.Machine
end

