-- ==== Sys2Proof/Machine/Step.lean ====
section
/-! DEFINITION. One step: take the first enabled request, decode it, run it (rules R11, R75; log entries 2 and 7). -/

namespace Sys2Proof.Machine

/-- One step. With no enabled request the block does nothing (rules R11, R310). -/
def step (s : State) : Host.Outcome State Fault Refusal :=
  match takeEnabled s [] s.port with
  | none => .next s
  | some (r, others) =>
    match decode r with
    | .ok i => exec i (s.setPort others)
    | .error e => .next (rejectRequest e (s.setPort others))

/-- The state with an opcode-table word as the oldest request of the port, where `step` takes its next request. -/
def State.withFetchWord (s : State) (nbits w : Nat) : State := s.setPort (tableRequest nbits w :: s.port)

end Sys2Proof.Machine
end

