-- ==== Sys2Proof/Safety.lean ====
section
/-! DEFINITION. The terms statements are made in: the invariants of the units (rules R30, R43 to R47, R182, R205, R247), the
ordering rule over positions (rules R145, R146), runs of instructions, and the list of the command codes' instructions. -/

namespace Sys2Proof.Machine

/-! ### Invariants -/

/-- The schedule's invariants (rule R30), with the ranges of rules R13 and R29. -/
structure SchedInv (s : State) : Prop where
  /-- (a) sorted by (`nextTimeUs`, `priority`). -/
  sorted : s.sch.schedule.Pairwise (fun x y => keyLt y x = false)
  /-- (b) no two entries have one id. -/
  idsDistinct : (s.sch.schedule.map (·.id)).Nodup
  /-- (c) every id was given by `ADD`. -/
  idsGiven : ∀ x ∈ s.sch.schedule, 1 ≤ x.id ∧ x.id < s.sch.nextId
  /-- (d) every packet is valid. -/
  packetsValid : ∀ x ∈ s.sch.schedule, isValid s.cfg x.packet = true
  /-- The expected response size is in 0..255. -/
  wordsBounded : ∀ x ∈ s.sch.schedule, x.expectedResponseWords ≤ 255
  /-- (e) the schedule keeps to its capacity. -/
  capacity : ∀ n, s.cfg.schedCapacity = some n → s.sch.schedule.length ≤ n
  /-- Ids start at 1. -/
  nextIdPositive : 1 ≤ s.sch.nextId

/-- One node's invariants (rules R43, R44, R46, R47, R247). -/
structure NodeInv (s : State) (k : Fin 6) : Prop where
  connectedIff : (s.node k).state = .connected ↔ (s.node k).functions ≠ []
  atMostThree : (s.node k).functions.length ≤ 3
  descending : (s.node k).functions.Pairwise (fun c d => d.toNat < c.toNat)
  recognized : ∀ c ∈ (s.node k).functions, c ∈ s.cfg.functionTable.map (·.code)
  noFailuresSearching : (s.node k).state = .searching → (s.node k).failCount = 0
  belowThreshold : (s.node k).failCount < s.cfg.failThreshold
  discoveryOnlySearching : (s.node k).discoveryId ≠ none → (s.node k).state = .searching ∧ s.isPresent k = true
  absentIsEmpty : s.isPresent k = false →
    (s.node k).state = .searching ∧ (s.node k).functions = [] ∧ (s.node k).failCount = 0 ∧
      (s.node k).discoveryId = none

/-- The topology's invariants, on an instance whose configuration meets rule R311. -/
structure TopoInv (s : State) : Prop where
  config : s.cfg.wf = true
  nodes : ∀ k, NodeInv s k

/-- The bus phase is never terminal between operations (rule R182). -/
def PhaseInv (s : State) : Prop := s.bus.phase.isTerminal = false

/-- The timeliner's invariants (rules R32, R205 (a), (b)). -/
structure TimelinerInv (s : State) : Prop where
  idleIff : s.tl.inFlight = none ↔ s.bus.phase = .idle
  carried : ∀ t, s.tl.inFlight = some t → s.bus.txPacket = some (setSender t.packet (busAddr s.cfg))

/-- The instructions that reach the bus past the timeliner (rule R324). -/
def bypassesTimeliner : Instr → Bool
  | .write _ _ => true
  | .processEvents _ _ => true
  | .deviceInfoRequest _ _ _ _ (.write _) => true
  | .deviceInfoRequest _ _ _ _ (.processEvents _) => true
  | .responseDeviceInfo _ _ _ _ (.write _) => true
  | .responseDeviceInfo _ _ _ _ (.processEvents _) => true
  | .responseDataXfer _ _ _ _ (.write _) => true
  | .responseDataXfer _ _ _ _ (.processEvents _) => true
  | .getCondition _ _ _ _ (.write _) => true
  | .getCondition _ _ _ _ (.processEvents _) => true
  | .getMemoryInformation _ _ _ _ (.write _) => true
  | .getMemoryInformation _ _ _ _ (.processEvents _) => true
  | .blockRead _ _ _ _ (.write _) => true
  | .blockRead _ _ _ _ (.processEvents _) => true
  | .blockWrite _ _ _ _ (.write _) => true
  | .blockWrite _ _ _ _ (.processEvents _) => true
  | .setCondition _ _ _ _ (.write _) => true
  | .setCondition _ _ _ _ (.processEvents _) => true
  | .responseFileError _ _ _ _ (.write _) => true
  | .responseFileError _ _ _ _ (.processEvents _) => true
  | .responseRequestResend _ _ _ _ (.write _) => true
  | .responseRequestResend _ _ _ _ (.processEvents _) => true
  | .responseUnknownCommand _ _ _ _ (.write _) => true
  | .responseUnknownCommand _ _ _ _ (.processEvents _) => true
  | .responseFunctionCodeNotSupported _ _ _ _ (.write _) => true
  | .responseFunctionCodeNotSupported _ _ _ _ (.processEvents _) => true
  | _ => false

/-- The instructions that can write the bus unit (rules R25, R27): `WRITE`, `PROCESSEVENTS`, the operations that call
them, `RESET`, and a packet that passes through one of these. -/
def reachesBus : Instr → Bool
  | .write _ _ => true
  | .processEvents _ _ => true
  | .tlReadTask _ _ => true
  | .tlWriteTask _ _ => true
  | .nodeTask _ _ _ => true
  | .reset => true
  | .deviceInfoRequest _ _ _ _ via => viaReachesBus via
  | .responseDeviceInfo _ _ _ _ via => viaReachesBus via
  | .responseDataXfer _ _ _ _ via => viaReachesBus via
  | .getCondition _ _ _ _ via => viaReachesBus via
  | .getMemoryInformation _ _ _ _ via => viaReachesBus via
  | .blockRead _ _ _ _ via => viaReachesBus via
  | .blockWrite _ _ _ _ via => viaReachesBus via
  | .setCondition _ _ _ _ via => viaReachesBus via
  | .responseFileError _ _ _ _ via => viaReachesBus via
  | .responseRequestResend _ _ _ _ via => viaReachesBus via
  | .responseUnknownCommand _ _ _ _ via => viaReachesBus via
  | .responseFunctionCodeNotSupported _ _ _ _ via => viaReachesBus via
  | _ => false
where
  /-- The passage of a packet through the bus. -/
  viaReachesBus : Passage → Bool
    | .nodeTask _ _ => true
    | .readTask _ => true
    | .processEvents _ => true
    | .write _ => true
    | .txComplete _ _ => false
    | .add _ => false

/-! ### Validity and next times, as the rules say them -/

/-- A command byte is recognized (rules R53, R97). -/
def Known (cfg : Config) (c : Byte) : Prop := c ∈ baseCommands ∨ c ∈ cfg.extraKnownCommands

/-- A packet is valid (rule R128). -/
def Valid (cfg : Config) (p : Packet) : Prop := Known cfg p.command ∧ p.payload.length = p.count.toNat

/-- The least `start + k * period` with `k >= 1` that is later than `now` (rule R150). -/
def IsNextTime (start period now t : Nat) : Prop :=
  now < t ∧ (∃ k, 1 ≤ k ∧ t = start + k * period) ∧
    ∀ k, 1 ≤ k → now < start + k * period → t ≤ start + k * period

/-! ### The ordering rule over positions -/

/-- Entry k of a schedule is eligible at `now` (rules R145, R146): due, no entry ahead of it to the same recipient, and
every entry ahead of it may be passed, by clause (i) or clause (ii). -/
def EligibleAt (l : List Transmission) (now k : Nat) : Prop :=
  ∃ a, l[k]? = some a ∧ a.nextTimeUs ≤ now ∧
    ∀ j b, j < k → l[j]? = some b →
      b.recipient ≠ a.recipient ∧
        (now + a.durationUs < b.nextTimeUs ∨ (b.nextTimeUs ≤ now ∧ a.priority.toNat < b.priority.toNat))

/-- `l'` is `l` with `t` put in by the rule of `Insert` (rule R142): behind every entry whose key is less than or equal
to its own, the others in their order. -/
def InsertedAt (t : Transmission) (l l' : List Transmission) : Prop :=
  ∃ k, k ≤ l.length ∧ l' = l.take k ++ t :: l.drop k ∧
    (∀ x ∈ l.take k, keyLt t x = false) ∧ (∀ x, l[k]? = some x → keyLt t x = true)

/-- `l'` is `l` with these transmissions put in one after another. -/
def InsertedAll : List Transmission → List Transmission → List Transmission → Prop
  | [], l, l' => l' = l
  | t :: ts, l, l' => ∃ m, InsertedAt t l m ∧ InsertedAll ts m l'

/-! ### Runs -/

/-- Instructions applied one after another. -/
def execAll : List Instr → State → Host.Outcome State Fault Refusal
  | [], s => .next s
  | i :: is, s =>
    match exec i s with
    | .next t => execAll is t
    | .fault r => .fault r
    | .refused r => .refused r

/-- The twelve command codes with their instructions (rule R96). -/
def commandInstrs : List (Byte × (Byte → Byte → Byte → List Word → Passage → Instr)) :=
  [(0x01, .deviceInfoRequest), (0x05, .responseDeviceInfo), (0x08, .responseDataXfer), (0x09, .getCondition),
   (0x0A, .getMemoryInformation), (0x0B, .blockRead), (0x0C, .blockWrite), (0x0E, .setCondition),
   (0xFB, .responseFileError), (0xFC, .responseRequestResend), (0xFD, .responseUnknownCommand),
   (0xFE, .responseFunctionCodeNotSupported)]

/-- The operation select codes of rule R100. -/
def opselCodes : List Byte :=
  [0x00, 0x01, 0x02, 0x03, 0x04, 0x05, 0x06, 0x07, 0x08, 0x10, 0x11, 0x12, 0x13, 0x14, 0x15, 0x16, 0x20, 0x21, 0x22, 0x23,
   0x30, 0x31, 0x40, 0x41, 0x42, 0x43, 0x50, 0x60, 0x61, 0x62]

end Sys2Proof.Machine
end

