-- ==== Sys2Proof/Certificates/Slice0/Obligations.lean ====
section
/-! DEFINITION. The statements for the provers. Each docstring names the rules it formalises. A next state is written out
as a record update wherever the rule fixes it, so that the fields not named are the frame: every register of the block is a
field of its state (it has no program counter and no byte-addressed memory, log entries 2 and 14). The field `result` is the
model's own (log entry 6). OBLIGATIONS.json names the spec's decisions D<n> that a cited rule is marked with. -/

open Sys2Proof Sys2Proof.Machine

/-! ### PKT -/

/-- Rules R121 to R123: the three operations of the streaming generator. -/
def Obligations.StreamOperations : Prop :=
  ∀ (s : State) (b : Byte),
    exec .crcInit s = .next { s with pkt := ⟨0x00⟩, result := .done } ∧
    exec (.crcUpdate b) s = .next { s with pkt := ⟨s.pkt.crcAcc ^^^ b⟩, result := .done } ∧
    exec .crcRead s = .next { s with result := .byte s.pkt.crcAcc }

/-- Rule R124, its fold and its four corner cases, and rule R120: bit i of the check byte is the parity of bit i of the
covered bytes. -/
def Obligations.CheckByteLaws : Prop :=
  ∀ (s : State) (xs ys : List Byte),
    let c := xs.foldl (fun acc b => acc ^^^ b) 0x00
    let d := ys.foldl (fun acc b => acc ^^^ b) 0x00
    exec (.crc8 xs) s = .next { s with result := .byte c } ∧
    (∀ i, i < 8 → (c.getLsbD i = true ↔ xs.countP (fun b => b.getLsbD i) % 2 = 1)) ∧
    exec (.crc8 []) s = .next { s with result := .byte 0x00 } ∧
    exec (.crc8 (xs ++ [c])) s = .next { s with result := .byte 0x00 } ∧
    exec (.crc8 (xs ++ ys)) s = .next { s with result := .byte (c ^^^ d) } ∧
    ∀ (i : Nat) (h : i < xs.length) (k : Nat), k < 8 →
      exec (.crc8 (xs.set i (xs[i] ^^^ (0x01#8 <<< k)))) s = .next { s with result := .byte (c ^^^ (0x01#8 <<< k)) }

/-- Rules R24 and R123: after `CRC.INIT` and any bytes, `CRC.READ` answers what `CRC8` answers for those bytes, and feeding
the answer back leaves zero. -/
def Obligations.StreamAgreesWithCheckByte : Prop :=
  ∀ (s : State) (xs : List Byte), ∃ c : Byte,
    exec (.crc8 xs) s = .next { s with result := .byte c } ∧
    execAll (.crcInit :: xs.map .crcUpdate ++ [.crcRead]) s =
      .next { s with pkt := ⟨c⟩, result := .byte c } ∧
    execAll (.crcInit :: xs.map .crcUpdate ++ [.crcUpdate c, .crcRead]) s =
      .next { s with pkt := ⟨0x00⟩, result := .byte 0x00 }

/-- Rule R125: the address byte is 64 times the player index plus the mask; operands out of range are refused. -/
def Obligations.AddressByte : Prop :=
  ∀ (s : State) (player mask : Byte),
    (player.toNat ≤ 3 ∧ mask.toNat ≤ 0x3F → ∃ a : Byte, a.toNat = 64 * player.toNat + mask.toNat ∧
      exec (.mkAddr player mask) s = .next { s with result := .byte a }) ∧
    (3 < player.toNat ∨ 0x3F < mask.toNat →
      exec (.mkAddr player mask) s = .next { s with result := .constructionError })

/-- Rules R126 and R92: every byte of what `ENCODE` answers; a payload above 255 words is refused. -/
def Obligations.EncodeLayout : Prop :=
  ∀ (s : State) (c r a : Byte) (ws : List Word),
    (ws.length ≤ 255 → ∃ bs : List Byte,
      exec (.encode c r a ws) s = .next { s with result := .bytes bs } ∧
      bs.length = 5 + 4 * ws.length ∧
      bs[0]? = some (BitVec.ofNat 8 ws.length) ∧ bs[1]? = some a ∧ bs[2]? = some r ∧ bs[3]? = some c ∧
      (∀ j w b, ws[j]? = some w → b < 4 → bs[4 + 4 * j + b]? = some (w.extractLsb' (8 * b) 8)) ∧
      bs[4 + 4 * ws.length]? = some ((bs.take (4 + 4 * ws.length)).foldl (fun acc b => acc ^^^ b) 0x00)) ∧
    (255 < ws.length → exec (.encode c r a ws) s = .next { s with result := .constructionError })

/-- Rule R127: the four checks in their order, and the packet that passes them. -/
def Obligations.DecodeChecks : Prop :=
  ∀ (s : State) (bs : List Byte),
    if bs.length < 5 ∨ (bs.length - 1) % 4 ≠ 0 then
      exec (.decode bs) s = .next { s with result := .framingError .badLength }
    else if (bs.getD 0 0).toNat ≠ (bs.length - 5) / 4 then
      exec (.decode bs) s = .next { s with result := .framingError .badLength }
    else if (bs.take (bs.length - 1)).foldl (fun acc b => acc ^^^ b) 0x00 ≠ bs.getD (bs.length - 1) 0 then
      exec (.decode bs) s = .next { s with result := .framingError .badCrc }
    else
      (¬ Known s.cfg (bs.getD 3 0) → exec (.decode bs) s = .next { s with result := .framingError .unknownCommand }) ∧
      (Known s.cfg (bs.getD 3 0) → ∃ p : Packet,
        exec (.decode bs) s = .next { s with result := .packet p } ∧
        (∀ b, b < 4 → bs[b]? = some (p.frameWord.extractLsb' (8 * b) 8)) ∧
        p.payload.length = (bs.length - 5) / 4 ∧
        ∀ j w b, p.payload[j]? = some w → b < 4 → bs[4 + 4 * j + b]? = some (w.extractLsb' (8 * b) 8))

/-- Rule R128: a packet is valid exactly when its command is known and its payload has the declared length. -/
def Obligations.ValidityRule : Prop :=
  ∀ (s : State) (p : Packet), ∃ b : Bool, exec (.isValid p) s = .next { s with result := .bool b } ∧
    (b = true ↔ Known s.cfg p.command ∧ p.payload.length = p.count.toNat)

/-- Rule R129: the sender byte is replaced and nothing else, so that validity does not change. -/
def Obligations.SenderOverwrite : Prop :=
  ∀ (s : State) (p : Packet) (a : Byte), ∃ q : Packet,
    exec (.setSender p a) s = .next { s with result := .packet q } ∧
    q.frameWord = (p.frameWord &&& 0xFFFF00FF) ||| (a.zeroExtend 32 <<< 8) ∧ q.payload = p.payload ∧
    q.sender = a ∧ q.command = p.command ∧ q.recipient = p.recipient ∧ q.count = p.count ∧
    (Valid s.cfg q ↔ Valid s.cfg p)

/-- Rule R130: decoding gives back what was encoded, and encoding gives back what was decoded. -/
def Obligations.PacketRoundTrip : Prop :=
  ∀ (s : State) (c r a : Byte) (ws : List Word),
    (Known s.cfg c → ws.length ≤ 255 → ∃ (bs : List Byte) (p : Packet),
      exec (.encode c r a ws) s = .next { s with result := .bytes bs } ∧
      exec (.decode bs) s = .next { s with result := .packet p } ∧
      p.command = c ∧ p.recipient = r ∧ p.sender = a ∧ p.count.toNat = ws.length ∧ p.payload = ws ∧
      exec (.isValid p) s = .next { s with result := .bool true }) ∧
    ∀ (bs : List Byte) (p : Packet), exec (.decode bs) s = .next { s with result := .packet p } →
      exec (.encode p.command p.recipient p.sender p.payload) s = .next { s with result := .bytes bs }

/-- Rule R131: any one flipped bit of an encoded packet makes `DECODE` answer a framing error: a bad length for byte 0, a
bad check byte for every other byte. -/
def Obligations.BitFlipRejected : Prop :=
  ∀ (s : State) (c r a : Byte) (ws bs : List _) (i k : Nat) (h : i < bs.length),
    exec (.encode c r a ws) s = .next { s with result := .bytes bs } → k < 8 →
      exec (.decode (bs.set i (bs[i] ^^^ (0x01#8 <<< k)))) s =
        .next { s with result := .framingError (if i = 0 then .badLength else .badCrc) }

/-! ### SCH -/

/-- Rules R142 and R144: `ADD` answers the next id and inserts exactly the transmission that its operands say, behind every
entry whose key is not greater; or, for one of four causes, it is refused, nothing changes and no id is consumed. -/
def Obligations.AddOperation : Prop :=
  ∀ (s : State) (p : Packet) (a : AddOperands),
    (Valid s.cfg p → a.expectedResponseWords ≤ 255 →
      (∀ n, s.cfg.schedCapacity = some n → s.sch.schedule.length < n) → s.sch.nextId ≤ 2 ^ 32 - 1 →
      ∃ l : List Transmission,
        exec (.add p a) s = .next { s with sch := ⟨l, s.sch.nextId + 1⟩, result := .id s.sch.nextId } ∧
        InsertedAt
          { id := s.sch.nextId
            priority := a.priority
            expectResponse := a.expectResponse
            expectedResponseWords := a.expectedResponseWords
            readTimeoutUs := a.readTimeoutUs.getD s.cfg.defaultReadTimeoutUs
            autoRepeatUs := a.autoRepeatUs
            autoRepeatEndUs := a.autoRepeatEndUs
            durationUs := durationUs s.cfg p.count.toNat a.expectResponse a.expectedResponseWords
            nextTimeUs := a.scheduledTimeUs
            packet := p
            transmitter := a.transmitter } s.sch.schedule l) ∧
    (¬ Valid s.cfg p ∨ 255 < a.expectedResponseWords ∨
        (∃ n, s.cfg.schedCapacity = some n ∧ n ≤ s.sch.schedule.length) ∨ 2 ^ 32 - 1 < s.sch.nextId →
      exec (.add p a) s = .next { s with result := .constructionError })

/-- Rules R143 and R176: the duration estimate and the write budget, as roundings up. The formulas rest on the spec's
decision D13. -/
def Obligations.TimeBudgets : Prop :=
  ∀ (cfg : Config) (n m : Nat),
    let bits := fun k => 32 * (k + 1) + 8 + cfg.framingBits
    ∃ w r b : Nat,
      (durationUs cfg n false m = w ∧ durationUs cfg n true m = w + (cfg.responseDelayUs + r)) ∧
      writeTimeoutUs cfg n = b ∧
      (bits n * cfg.tBitNs ≤ 1000 * w ∧ 1000 * w < bits n * cfg.tBitNs + 1000) ∧
      (bits m * cfg.rxTBitNs ≤ 1000 * r ∧ 1000 * r < bits m * cfg.rxTBitNs + 1000) ∧
      (bits n * cfg.tBitNs * (100 + cfg.slackPct) ≤ 100000 * b ∧
        100000 * b < bits n * cfg.tBitNs * (100 + cfg.slackPct) + 100000)

/-- Rule R147: `PEEKNEXT` answers the eligible entry of numerically least priority, the first among equals, or none; no
state changes. Eligibility is rules R145 and R146, on positions. -/
def Obligations.PeekNextChooses : Prop :=
  ∀ (s : State) (now : Nat), ∃ r : Option Transmission,
    exec (.peekNext now) s = .next { s with result := .transmission r } ∧
    (r = none → ∀ k, ¬ EligibleAt s.sch.schedule now k) ∧
    ∀ t, r = some t → ∃ k, s.sch.schedule[k]? = some t ∧ EligibleAt s.sch.schedule now k ∧
      ∀ j x, EligibleAt s.sch.schedule now j → s.sch.schedule[j]? = some x →
        t.priority.toNat ≤ x.priority.toNat ∧ (x.priority = t.priority → k ≤ j)

/-- Rule R148 (a) to (c), and rule R147's corner case: in a sorted schedule clause (i) never helps, eligible entries have
strictly falling priority numbers, and nothing is answered exactly when the head is not due. -/
def Obligations.OrderingConsequences : Prop :=
  ∀ (s : State) (now : Nat), SchedInv s →
    (∀ k, EligibleAt s.sch.schedule now k ↔ ∃ a, s.sch.schedule[k]? = some a ∧ a.nextTimeUs ≤ now ∧
      ∀ j b, j < k → s.sch.schedule[j]? = some b →
        b.recipient ≠ a.recipient ∧ a.priority.toNat < b.priority.toNat) ∧
    (∀ j k x y, j < k → EligibleAt s.sch.schedule now j → EligibleAt s.sch.schedule now k →
      s.sch.schedule[j]? = some x → s.sch.schedule[k]? = some y → y.priority.toNat < x.priority.toNat) ∧
    (exec (.peekNext now) s = .next { s with result := .transmission none } ↔
      ∀ x, s.sch.schedule[0]? = some x → now < x.nextTimeUs)

/-- Rule R150: what `POPITEM` does with an absent id, with a one-shot, and with a repeating entry before and after its end
time. -/
def Obligations.PopItem : Prop :=
  ∀ (s : State) (id now : Nat), SchedInv s →
    ((∀ x ∈ s.sch.schedule, x.id ≠ id) → exec (.popItem id now) s = .next { s with result := .bool false }) ∧
    ∀ x ∈ s.sch.schedule, x.id = id →
      let rest := s.sch.schedule.filter (fun y => y.id != id)
      (x.autoRepeatUs = 0 →
        exec (.popItem id now) s = .next { s with sch := ⟨rest, s.sch.nextId⟩, result := .bool true }) ∧
      (0 < x.autoRepeatUs → ∃ t, IsNextTime x.nextTimeUs x.autoRepeatUs now t ∧
        ((∃ e, x.autoRepeatEndUs = some e ∧ e < t) →
          exec (.popItem id now) s = .next { s with sch := ⟨rest, s.sch.nextId⟩, result := .bool true }) ∧
        ((∀ e, x.autoRepeatEndUs = some e → t ≤ e) → ∃ l,
          exec (.popItem id now) s = .next { s with sch := ⟨l, s.sch.nextId⟩, result := .bool true } ∧
          InsertedAt { x with nextTimeUs := t } rest l))

/-- Rules R151 to R154: what the three cancel operations remove and answer, and what `COUNTRECIPIENTS` answers. Everything
in flight, and the next id, stay as they are (rule R79). -/
def Obligations.CancelAndCount : Prop :=
  ∀ (s : State) (id : Nat) (addr : Byte),
    let l := s.sch.schedule
    exec (.cancelById id) s = .next { s with
      sch := ⟨l.filter (fun x => x.id != id), s.sch.nextId⟩
      result := .count (l.filter (fun x => x.id == id)).length } ∧
    exec (.cancelByRecipient addr) s = .next { s with
      sch := ⟨l.filter (fun x => x.packet.recipient != addr), s.sch.nextId⟩
      result := .count (l.filter (fun x => x.packet.recipient == addr)).length } ∧
    exec .cancelAll s = .next { s with sch := ⟨[], s.sch.nextId⟩, result := .count l.length } ∧
    exec (.countRecipients addr) s = .next { s with
      result := .count (l.filter (fun x => x.packet.recipient == addr)).length } ∧
    (SchedInv s → (l.filter (fun x => x.id == id)).length ≤ 1)

/-- Rule R152 (and rule R79): `CANCELBYRECIPIENT` removes every pending transmission to the address, the rest in their
order, answers how many, leaves what is in flight alone, and after it, whatever instructions other than `RESET` follow,
no `PEEKNEXT` answers a canceled id. -/
def Obligations.CanceledNeverPeeked : Prop :=
  ∀ (s : State) (addr : Byte),
    let t : State := { s with
      sch := ⟨s.sch.schedule.filter (fun x => x.packet.recipient != addr), s.sch.nextId⟩
      result := .count (s.sch.schedule.filter (fun x => x.packet.recipient == addr)).length }
    exec (.cancelByRecipient addr) s = .next t ∧
    (SchedInv s → ∀ is : List Instr, .reset ∉ is → ∃ u, execAll is t = .next u ∧
      ∀ now, ∃ r, exec (.peekNext now) u = .next { u with result := .transmission r } ∧
        ∀ x, r = some x → (is = [] → x ∈ s.sch.schedule) ∧
          ∀ y ∈ s.sch.schedule, y.packet.recipient = addr → x.id ≠ y.id)

/-- Rules R79 and R151 to R153, an inference from them and rule R28: an id that was given and that no entry of the schedule
has is had by no entry after any instruction but `RESET`, nor after any step that can take no `RESET`. -/
def Obligations.AbsentIdStaysAbsent : Prop :=
  ∀ (s : State) (id : Nat), id < s.sch.nextId → (∀ x ∈ s.sch.schedule, x.id ≠ id) →
    (∀ i : Instr, i ≠ .reset → ∃ t, exec i s = .next t ∧ id < t.sch.nextId ∧ ∀ x ∈ t.sch.schedule, x.id ≠ id) ∧
    ((∀ r ∈ s.port, decode r ≠ .ok .reset) → ∃ t, step s = .next t ∧ id < t.sch.nextId ∧
      ∀ x ∈ t.sch.schedule, x.id ≠ id)

/-! ### BUS -/

/-- Rules R174 and R273: every field after an accepted `WRITE`, and the bytes on the wire, which are those of the packet with
this bus's own address as its sender; and the three causes for which it is rejected and nothing changes. -/
def Obligations.WriteOperation : Prop :=
  ∀ (s : State) (p : Packet) (w : WriteOperands),
    (s.bus.phase = .idle → w.lineOpen = true → Valid s.cfg p → ∃ (q : Packet) (bs : List Byte),
      exec (.setSender p (busAddr s.cfg)) s = .next { s with result := .packet q } ∧
      exec (.encode q.command q.recipient q.sender q.payload) s = .next { s with result := .bytes bs } ∧
      exec (.decode bs) s = .next { s with result := .packet q } ∧
      q.sender.toNat = 64 * s.cfg.playerIndex.val ∧
      exec (.write p w) s = .next { s with
        bus :=
          { phase := .writeInProgress
            failureReason := .none
            txPacket := some q
            txBytes := bs
            expectResponse := w.expectResponse
            readTimeoutUs := w.readTimeoutUs
            tWriteStart := w.now
            writeDeadline := w.now + writeTimeoutUs s.cfg p.count.toNat
            tArmed := s.bus.tArmed
            tReadStart := s.bus.tReadStart
            readBuffer := none }
        out := s.out ++ [.wire bs]
        result := .bool true }) ∧
    (s.bus.phase ≠ .idle ∨ w.lineOpen = false ∨ ¬ Valid s.cfg p →
      exec (.write p w) s = .next { s with result := .bool false })

/-- Rule R175 in phase `IDLE`, and rule R177 with rule R182: a poll while nothing is being sent, and a poll while a write is
in progress. A finished write that expects a response goes on in the same poll as an armed bus. -/
def Obligations.PollWriting : Prop :=
  ∀ (s : State) (now : Nat) (ev : LineEvents),
    (s.bus.phase = .idle → exec (.processEvents now ev) s = .next { s with result := .status ⟨.idle, none, .none⟩ }) ∧
    (s.bus.phase = .writeInProgress →
      if ev.contention then
        exec (.processEvents now ev) s = .next { s with
          bus := { s.bus with phase := .idle, txPacket := none, failureReason := .contention }
          result := .status ⟨.writeFailed, none, .contention⟩ }
      else if ev.txDone then
        if s.bus.expectResponse then
          exec (.processEvents now ev) s =
            exec (.processEvents now ev) { s with bus := { s.bus with phase := .readArmed, tArmed := now } }
        else
          exec (.processEvents now ev) s = .next { s with
            bus := { s.bus with phase := .idle, txPacket := none }
            result := .status ⟨.writeComplete, none, .none⟩ }
      else if s.bus.writeDeadline < now then
        exec (.processEvents now ev) s = .next { s with
          bus := { s.bus with phase := .idle, txPacket := none, failureReason := .timeout }
          result := .status ⟨.writeFailed, none, .timeout⟩ }
      else exec (.processEvents now ev) s = .next { s with result := .status ⟨.writeInProgress, none, .none⟩ })

/-- Rule R179 with rule R182: a poll while a response is awaited. A response that has begun goes on in the same poll as a
read in progress. -/
def Obligations.PollArmed : Prop :=
  ∀ (s : State) (now : Nat) (ev : LineEvents), s.bus.phase = .readArmed →
    if ev.rxStarted = true ∨ ev.rxFrame ≠ none ∨ ev.rxOverflow = true then
      exec (.processEvents now ev) s =
        exec (.processEvents now ev) { s with bus := { s.bus with phase := .readInProgress, tReadStart := now } }
    else if s.bus.tArmed + s.bus.readTimeoutUs < now then
      exec (.processEvents now ev) s = .next { s with
        bus := { s.bus with phase := .idle, txPacket := none, failureReason := .timeout }
        result := .status ⟨.readFailed, none, .timeout⟩ }
    else exec (.processEvents now ev) s = .next { s with result := .status ⟨.readArmed, none, .none⟩ }

/-- Rules R180 and R181 with rule R182: a poll while a response is being received. Read validation is stated through what
`DECODE` answers for the frame's bytes. -/
def Obligations.PollReading : Prop :=
  ∀ (s : State) (now : Nat) (ev : LineEvents), s.bus.phase = .readInProgress →
    let failed := fun r : Reason => Host.Outcome.next (φ := Fault) (ρ := Refusal)
      { s with
        bus := { s.bus with phase := .idle, txPacket := none, failureReason := r }
        result := .status ⟨.readFailed, none, r⟩ }
    (ev.rxOverflow = true → exec (.processEvents now ev) s = failed .overflow) ∧
    (ev.rxOverflow = false → ∀ f, ev.rxFrame = some f →
      if s.cfg.rxBufferBytes < f.bytes.length then exec (.processEvents now ev) s = failed .overflow
      else if f.startOk = false ∨ f.endOk = false then exec (.processEvents now ev) s = failed .framingInvalid
      else
        (∀ p, exec (.decode f.bytes) s = .next { s with result := .packet p } →
          exec (.processEvents now ev) s = .next { s with
            bus := { s.bus with phase := .idle, txPacket := none, readBuffer := some p }
            result := .status ⟨.readComplete, some p, .none⟩ }) ∧
        (exec (.decode f.bytes) s = .next { s with result := .framingError .badLength } →
          exec (.processEvents now ev) s = failed .framingInvalid) ∧
        (exec (.decode f.bytes) s = .next { s with result := .framingError .badCrc } →
          exec (.processEvents now ev) s = failed .crcInvalid) ∧
        (exec (.decode f.bytes) s = .next { s with result := .framingError .unknownCommand } →
          exec (.processEvents now ev) s = failed .framingInvalid)) ∧
    (ev.rxOverflow = false → ev.rxFrame = none →
      if s.bus.tReadStart + s.cfg.frameReadTimeoutUs < now then exec (.processEvents now ev) s = failed .timeout
      else exec (.processEvents now ev) s = .next { s with result := .status ⟨.readInProgress, none, .none⟩ })

/-- Rule R172: what a `Status` carries, from any state that a run reaches. -/
def Obligations.StatusShape : Prop :=
  ∀ (s : State) (now : Nat) (ev : LineEvents), PhaseInv s → ∃ (t : State) (st : Status),
    exec (.processEvents now ev) s = .next t ∧ t.result = .status st ∧
    (st.readBuffer ≠ none ↔ st.phase = .readComplete) ∧
    (st.phase = .readFailed ∨ st.phase = .writeFailed ↔
      st.failureReason = .timeout ∨ st.failureReason = .crcInvalid ∨ st.failureReason = .framingInvalid ∨
        st.failureReason = .overflow ∨ st.failureReason = .contention)

/-- Rule R186 (c), an inference of the spec, with rule R185: the packet of a `READ_COMPLETE` status is valid, and
`GETREADDATA` answers it from then on, until a `WRITE` is accepted (which puts bytes on the wire) or a `RESET`. -/
def Obligations.ReadCompleteIsValid : Prop :=
  ∀ (s t : State) (now : Nat) (ev : LineEvents) (st : Status), PhaseInv s → exec (.processEvents now ev) s = .next t →
    t.result = .status st → st.phase = .readComplete → ∃ p, st.readBuffer = some p ∧ Valid s.cfg p ∧
      ∀ is : List Instr, .reset ∉ is → ∃ u, execAll is t = .next u ∧
        ((∀ bs, Event.wire bs ∉ u.out.drop t.out.length) →
          exec .getReadData u = .next { u with result := .readData (some p) })

/-- Rule R185: what each instruction but `RESET` does to the read buffer. One that puts bytes on the wire has accepted a
`WRITE` and leaves none; every other leaves it as it was, but for a poll that completes a read with a valid packet and
frees the bus; from an idle bus it leaves the whole bus unit as it was. -/
def Obligations.ReadBufferKept : Prop :=
  ∀ (i : Instr) (s : State), i ≠ .reset → ∃ (t : State) (es : List Event), exec i s = .next t ∧ t.out = s.out ++ es ∧
    ((∃ bs, Event.wire bs ∈ es) → t.bus.phase = .writeInProgress ∧ t.bus.readBuffer = none) ∧
    ((∀ bs, Event.wire bs ∉ es) →
      (s.bus.phase = .idle → t.bus = s.bus) ∧
      (t.bus.readBuffer = s.bus.readBuffer ∨
        (s.bus.phase ≠ .idle ∧ t.bus.phase = .idle ∧ ∃ p, t.bus.readBuffer = some p ∧ Valid s.cfg p)))

/-- Rules R184 and R185. -/
def Obligations.BusReads : Prop :=
  ∀ s : State,
    exec .isBusy s = .next { s with result := .bool (s.bus.phase != .idle) } ∧
    exec .getReadData s = .next { s with result := .readData s.bus.readBuffer }

/-- Rules R25 and R27: only `WRITE`, `PROCESSEVENTS`, what calls them, and `RESET` write the bus unit. -/
def Obligations.OnlyBusOperationsWriteBus : Prop :=
  ∀ (i : Instr) (s : State), reachesBus i = false → ∃ t, exec i s = .next t ∧ t.bus = s.bus

/-- Rule R186 (b), for three polls: whatever the line events are, three polls, each later than the deadlines that the one
before can have set, end every write. -/
def Obligations.ThreeLatePollsFree : Prop :=
  ∀ (s : State) (n1 n2 n3 : Nat) (e1 e2 e3 : LineEvents), PhaseInv s →
    s.bus.writeDeadline < n1 → s.bus.tArmed + s.bus.readTimeoutUs < n1 →
    s.bus.tReadStart + s.cfg.frameReadTimeoutUs < n1 →
    n1 + s.bus.readTimeoutUs < n2 → n1 ≤ n2 → n2 + s.cfg.frameReadTimeoutUs < n3 →
    ∃ t, execAll [.processEvents n1 e1, .processEvents n2 e2, .processEvents n3 e3] s = .next t ∧ t.bus.phase = .idle

/-! ### TL -/

/-- Rules R201 and R204: the read half by what its poll reports and by what is in flight; and rule R31: which handles
resolve, which tells apart the two events that a delivery can leave (rule R224). -/
def Obligations.ReadHalf : Prop :=
  ∀ (s : State) (now : Nat) (ev : LineEvents),
    let callback := fun (t : Transmission) (c : Callback) => if resolves s t.transmitter then Event.callback c else .dropped c
    (∀ k, resolves s (.node k) = true) ∧ (∀ n, resolves s (.ext n) = true) ∧
    (∀ k code, resolves s (.func k code) = true ↔ code ∈ (s.node k).functions) ∧
    ∃ (u : State) (st : Status), exec (.processEvents now ev) s = .next u ∧ u.result = .status st ∧
      (st.phase.isTerminal = false → exec (.tlReadTask now ev) s = .next { u with result := .tl .nothing }) ∧
      (st.phase.isTerminal = true → s.tl.inFlight = none →
        exec (.tlReadTask now ev) s =
          .next { u with out := s.out ++ [.log .resultWithoutInFlight], result := .tl .nothing }) ∧
      ∀ t, s.tl.inFlight = some t →
        (st.phase = .readComplete → exec (.tlReadTask now ev) s = .next { u with
          tl := ⟨none⟩
          out := s.out ++ [callback t (.txComplete t.transmitter st.readBuffer t)]
          result := .tl (.completed st.readBuffer t) }) ∧
        (st.phase = .writeComplete → exec (.tlReadTask now ev) s = .next { u with
          tl := ⟨none⟩
          out := s.out ++ [callback t (.txComplete t.transmitter none t)]
          result := .tl (.completed none t) }) ∧
        (st.phase = .writeFailed → exec (.tlReadTask now ev) s = .next { u with
          tl := ⟨none⟩
          out := s.out ++ [callback t (.txFailed t.transmitter true false t)]
          result := .tl (.failed true false st.failureReason t) }) ∧
        (st.phase = .readFailed → exec (.tlReadTask now ev) s = .next { u with
          tl := ⟨none⟩
          out := s.out ++ [callback t (.txFailed t.transmitter false true t)]
          result := .tl (.failed false true st.failureReason t) })

/-- Rule R202: the write half does nothing while busy, with nothing to peek, or when `WRITE` rejects (the line is not open,
or the packet is not valid); else it is the accepted `WRITE`, the `POPITEM`, and the remembered transmission. -/
def Obligations.WriteHalf : Prop :=
  ∀ (s : State) (now : Nat) (lineOpen : Bool),
    (s.bus.phase ≠ .idle ∨ s.tl.inFlight ≠ none ∨ lineOpen = false ∨ peekNext s.sch.schedule now = none →
      exec (.tlWriteTask now lineOpen) s = .next { s with result := .transmission none }) ∧
    ∀ t, peekNext s.sch.schedule now = some t →
      exec (.peekNext now) s = .next { s with result := .transmission (some t) } ∧
      (¬ Valid s.cfg t.packet → exec (.tlWriteTask now lineOpen) s = .next { s with result := .transmission none }) ∧
      (s.bus.phase = .idle → s.tl.inFlight = none → lineOpen = true → Valid s.cfg t.packet → ∃ w u,
        exec (.write t.packet ⟨t.expectResponse, t.readTimeoutUs, now, lineOpen⟩) s = .next w ∧
        w.result = .bool true ∧ exec (.popItem t.id now) w = .next u ∧ u.result = .bool true ∧
        exec (.tlWriteTask now lineOpen) s = .next { u with
          tl := ⟨some t⟩
          out := u.out ++ [if resolves s t.transmitter then .callback (.txStarted t.transmitter t)
            else .dropped (.txStarted t.transmitter t)]
          result := .transmission (some t) })

/-- Rule R205 (a) and (b), with rule R32: every instruction that does not reach the bus past the timeliner keeps the
timeliner's invariant. -/
def Obligations.TimelinerInvKept : Prop :=
  ∀ (i : Instr) (s t : State), bypassesTimeliner i = false → TimelinerInv s → exec i s = .next t → TimelinerInv t

/-! ### TOPO -/

/-- Rule R216: `NODE.TASK` is the read half, the topology's reaction to its result, the discovery requests of nodes 0 to 5,
and the write half; its result is the read half's. -/
def Obligations.NodeTaskOrder : Prop :=
  ∀ (s : State) (now : Nat) (ev : LineEvents) (lineOpen : Bool), ∃ (u v w : State) (r : TlResult),
    exec (.tlReadTask now ev) s = .next u ∧ u.result = .tl r ∧
    v = ([0, 1, 2, 3, 4, 5] : List (Fin 6)).foldl (ensureDiscovery now)
      (match r with
       | .completed (some p) _ => handleCompleted p u
       | .completed none _ => u
       | .failed _ _ _ t => handleFailed t u
       | .nothing => u) ∧
    exec (.tlWriteTask now lineOpen) v = .next w ∧
    exec (.nodeTask now ev lineOpen) s = .next { w with result := .tl r } ∧
    w.pkt = s.pkt ∧ w.mutexOwner = s.mutexOwner ∧ w.cfg = s.cfg ∧ w.port = s.port ∧ s.out <+: w.out

/-- Rules R42, R217, R218, R221, R222 and R237: which node the topology's reaction concerns. A completed read is observed by the
node its packet is routed to; a failed transmission is counted by the node whose address its recipient byte is. With rules
R242 and R243: observing is what `NODE.TXCOMPLETE` does with a valid packet, and counting what `NODE.TXFAILED` does, but for
the callback event that these append first and for their result. -/
def Obligations.RoutingByAddress : Prop :=
  ∀ (s : State) (p : Packet) (t : Transmission) (k : Fin 6),
    let mask := fun j : Fin 6 => (#v[0x20, 0x01, 0x02, 0x04, 0x08, 0x10] : Vector Nat 6)[j]
    ((nodeAddr s.cfg k).toNat = 64 * s.cfg.playerIndex.val + mask k) ∧
    (s.cfg.routeKey = .recipient → (route s.cfg p = some k ↔ p.recipient.toNat % 64 = mask k)) ∧
    (s.cfg.routeKey = .sender → (route s.cfg p = some k ↔
      (k = 0 ∧ p.sender.getLsbD 5 = true) ∨ (k ≠ 0 ∧ p.sender.toNat % 64 = mask k))) ∧
    (route s.cfg p = some k → handleCompleted p s = observe k p s) ∧
    (route s.cfg p = none → handleCompleted p s = s) ∧
    (t.recipient = nodeAddr s.cfg k → handleFailed t s = countFailure k s) ∧
    ((∀ j, t.recipient ≠ nodeAddr s.cfg j) → handleFailed t s = s) ∧
    ∀ b : Byte, b.toNat = k.val →
      (Valid s.cfg p → ∃ (u : State) (es : List Event), exec (.nodeTxComplete b (some p) t) s = .next u ∧
        u.out = s.out ++ [.callback (.txComplete (.node k) (some p) t)] ++ es ∧
        observe k p s = { u with out := s.out ++ es, result := s.result }) ∧
      ∀ w r : Bool, ∃ (u : State) (es : List Event), exec (.nodeTxFailed b w r t) s = .next u ∧
        u.out = s.out ++ [.callback (.txFailed (.node k) w r t)] ++ es ∧
        countFailure k s = { u with out := s.out ++ es, result := s.result }

/-- Rules R219 and R220: with the bus idle and the line closed, `NODE.TASK` goes through the nodes that want a discovery
request (present, searching, without one) in the order of their indices. As long as `ADD` does not refuse, each gets the
next id and its request is scheduled; each of the others logs the refusal and stays without. -/
def Obligations.DiscoveryRequest : Prop :=
  ∀ (s : State) (now : Nat) (ev : LineEvents), s.bus.phase = .idle →
    let wants := ([0, 1, 2, 3, 4, 5] : List (Fin 6)).filter (fun k =>
      s.isPresent k && (s.node k).state == .searching && (s.node k).discoveryId == none)
    ∃ (l : List Transmission) (topo : Topo) (packet : Fin 6 → Packet) (m : Nat),
      m ≤ wants.length ∧
      (∀ i, i < wants.length → (i < m ↔ s.cfg.discoveryExpectedWords ≤ 255 ∧
        (∀ n, s.cfg.schedCapacity = some n → s.sch.schedule.length + i < n) ∧ s.sch.nextId + i ≤ 2 ^ 32 - 1)) ∧
      exec (.nodeTask now ev false) s = .next { s with
        sch := ⟨l, s.sch.nextId + m⟩
        topo := topo
        out := s.out ++ List.replicate (wants.length - m) (.log .discoveryRefused)
        result := .tl .nothing } ∧
      (∀ i k, (wants.take m)[i]? = some k →
        topo.nodes[k] = { s.node k with discoveryId := some (s.sch.nextId + i) }) ∧
      (∀ k, k ∉ wants.take m → topo.nodes[k] = s.node k) ∧
      (∀ k, (packet k).command = 0x01 ∧ (packet k).recipient = nodeAddr s.cfg k ∧ (packet k).sender = busAddr s.cfg ∧
        (packet k).count = 0 ∧ (packet k).payload = []) ∧
      InsertedAll ((wants.take m).mapIdx (fun i k =>
        { id := s.sch.nextId + i
          priority := if k = 0 then s.cfg.discoveryPriorityMain else s.cfg.discoveryPrioritySub
          expectResponse := true
          expectedResponseWords := s.cfg.discoveryExpectedWords
          readTimeoutUs := s.cfg.defaultReadTimeoutUs
          autoRepeatUs := s.cfg.discoveryPeriodUs
          autoRepeatEndUs := none
          durationUs := durationUs s.cfg 0 true s.cfg.discoveryExpectedWords
          nextTimeUs := now
          packet := packet k
          transmitter := .node k })) s.sch.schedule l

/-- Rule R247 (e): after every `NODE.TASK` each present searching node has a discovery id, unless `ADD` can refuse. (Rule R327
says when the request of that id is not pending any more.) -/
def Obligations.SearchersHaveDiscoveryIds : Prop :=
  ∀ (s : State) (now : Nat) (ev : LineEvents) (lineOpen : Bool),
    s.cfg.discoveryExpectedWords ≤ 255 → s.cfg.schedCapacity = none → s.sch.nextId + 5 ≤ 2 ^ 32 - 1 →
    ∃ t, exec (.nodeTask now ev lineOpen) s = .next t ∧
      ∀ k, t.isPresent k = true → (t.node k).state = .searching → (t.node k).discoveryId ≠ none

/-- Rule R241, and rules R274 and R241 to R243 for a node index above 5. -/
def Obligations.NodeIndexAndStart : Prop :=
  ∀ (s : State) (b : Byte) (t : Transmission) (w r : Bool) (p : Option Packet),
    (∀ k : Fin 6, b.toNat = k.val → exec (.nodeTxStarted b t) s =
      .next { s with out := s.out ++ [.callback (.txStarted (.node k) t)], result := .done }) ∧
    (5 < b.toNat →
      exec (.nodeTxStarted b t) s = .next { s with result := .constructionError } ∧
      exec (.nodeTxFailed b w r t) s = .next { s with result := .constructionError } ∧
      exec (.nodeTxComplete b p t) s = .next { s with result := .constructionError })

/-- Rules R230 to R232, through `NODE.TXFAILED` (rule R242): a node that is absent or searching counts nothing; a connected
one counts one failure; at the threshold it is torn down, with the Main Node its five Sub Nodes are torn down and marked not
present, and every pending transmission to a node that was torn down is gone. -/
def Obligations.FailureOperation : Prop :=
  ∀ (s : State) (b : Byte) (k : Fin 6) (w r : Bool) (t : Transmission), b.toNat = k.val →
    let gone : List (Fin 6) := if k = 0 then [0, 1, 2, 3, 4, 5] else [k]
    (s.isPresent k = false ∨ (s.node k).state = .searching →
      exec (.nodeTxFailed b w r t) s =
        .next { s with out := s.out ++ [.callback (.txFailed (.node k) w r t)], result := .done }) ∧
    (s.isPresent k = true → (s.node k).state = .connected → (s.node k).failCount + 1 < s.cfg.failThreshold →
      ∃ topo, exec (.nodeTxFailed b w r t) s =
          .next { s with topo := topo, out := s.out ++ [.callback (.txFailed (.node k) w r t)], result := .done } ∧
        topo.nodes[k] = { s.node k with failCount := (s.node k).failCount + 1 } ∧
        ∀ j, j ≠ k → topo.nodes[j] = s.node j) ∧
    (s.isPresent k = true → (s.node k).state = .connected → s.cfg.failThreshold ≤ (s.node k).failCount + 1 →
      ∃ topo : Topo,
        exec (.nodeTxFailed b w r t) s = .next { s with
          topo := topo
          sch := ⟨s.sch.schedule.filter (fun x => gone.all (fun j => x.recipient != nodeAddr s.cfg j)), s.sch.nextId⟩
          out := s.out ++ [.callback (.txFailed (.node k) w r t), .log (.disconnect k)] ++
            gone.flatMap (fun j => (s.node j).functions.map (Event.functionDestroyed j))
          result := .done } ∧
        ∀ j : Fin 6, topo.nodes[j] =
          if j = k then ⟨(s.node k).present, .searching, [], 0, none⟩
          else if k = 0 then ⟨false, .searching, [], 0, none⟩
          else s.node j)

/-- Rules R226 to R228 (and rule R229's reset of the counter): what a valid packet fed to a present node does, where no Sub
Node comes or goes by it. A device-info response with a recognized bit gives the node the highest three of its recognized
codes, in falling order, and cancels its discovery request; every other packet leaves all but a connected node's counter;
unrecognized bits are logged once. No other node changes. -/
def Obligations.PacketObserved : Prop :=
  ∀ (s : State) (b : Byte) (k : Fin 6) (p : Packet) (t : Transmission), b.toNat = k.val →
    (k = 0 → ∀ j : Fin 6, j ≠ 0 → (s.node j).present = p.sender.getLsbD (j.val - 1)) →
    s.isPresent k = true → Valid s.cfg p →
    let mask := p.payload.headD 0
    let table := s.cfg.functionTable.map (·.code)
    ((p.command = 0x05 → ∀ c ∈ table, mask &&& c = 0) → ∃ (topo : Topo) (logs : List Event),
      exec (.nodeTxComplete b (some p) t) s = .next { s with
        topo := topo
        out := s.out ++ [.callback (.txComplete (.node k) (some p) t)] ++ logs
        result := .done } ∧
      topo.nodes[k] = { s.node k with
        failCount := if (s.node k).state = .connected then 0 else (s.node k).failCount } ∧
      (∀ j, j ≠ k → topo.nodes[j] = s.node j) ∧
      (p.command ≠ 0x05 ∨ mask = 0 → logs = []) ∧
      (p.command = 0x05 → mask ≠ 0 → logs = [.log (.unknownFunctionBits k mask)])) ∧
    (s.cfg.wf = true → p.command = 0x05 → (∃ c ∈ table, mask &&& c ≠ 0) →
      ∃ (topo : Topo) (codes : List Word) (logs more : List Event),
        exec (.nodeTxComplete b (some p) t) s = .next { s with
          topo := topo
          sch := ⟨s.sch.schedule.filter (fun x => some x.id != (s.node k).discoveryId), s.sch.nextId⟩
          out := s.out ++ [.callback (.txComplete (.node k) (some p) t)] ++ logs ++
            (s.node k).functions.map (Event.functionDestroyed k) ++ more ++ codes.map (Event.functionCreated k)
          result := .done } ∧
        topo.nodes[k] = ⟨(s.node k).present, .connected, codes, 0, none⟩ ∧ (∀ j, j ≠ k → topo.nodes[j] = s.node j) ∧
        codes ≠ [] ∧ codes.length ≤ 3 ∧ codes.Pairwise (fun c d => d.toNat < c.toNat) ∧
        (∀ c ∈ codes, c ∈ table ∧ mask &&& c ≠ 0) ∧
        (∀ c ∈ table, mask &&& c ≠ 0 → c ∈ codes ∨ (codes.length = 3 ∧ ∀ d ∈ codes, c.toNat < d.toNat)) ∧
        ((∀ i, mask.getLsbD i = true → ∃ c ∈ table, c.getLsbD i = true) → logs = []) ∧
        ((∃ i, mask.getLsbD i = true ∧ ∀ c ∈ table, c.getLsbD i = false) →
          ∃ bits : Word, logs = [.log (.unknownFunctionBits k bits)] ∧
            ∀ i, bits.getLsbD i = true ↔ mask.getLsbD i = true ∧ ∀ c ∈ table, c.getLsbD i = false) ∧
        ((∀ c ∈ table, mask &&& c ≠ 0 → c ∈ codes) → more = []) ∧
        ((∃ c ∈ table, mask &&& c ≠ 0 ∧ c ∉ codes) → more = [.log (.moreThanThreeFunctions k mask)]))

/-- Rules R243 and R221: the null packet, an invalid packet and a packet for an absent Sub Node change nothing but the
trace. -/
def Obligations.PacketIgnored : Prop :=
  ∀ (s : State) (b : Byte) (k : Fin 6) (o : Option Packet) (t : Transmission), b.toNat = k.val →
    (∀ p, o = some p → ¬ Valid s.cfg p ∨ s.isPresent k = false) →
    exec (.nodeTxComplete b o t) s =
      .next { s with out := s.out ++ [.callback (.txComplete (.node k) o t)], result := .done }

/-- Rules R234 and R236 (and rule R235): every valid packet fed to the Main Node drives each Sub Node's presence from its own
bit of the sender byte; a Sub Node that goes is torn down and its pending transmissions are canceled, one that stays or comes
keeps its record. For every packet but a device-info response with a recognized bit (which is the statement
`MainNodeConnects`) the Main Node's record, the schedule and the whole trace are stated too. -/
def Obligations.PresenceFollowsSender : Prop :=
  ∀ (s : State) (b : Byte) (p : Packet) (t : Transmission), b = 0 → Valid s.cfg p →
    let here := fun j : Fin 6 => p.sender.getLsbD (j.val - 1)
    let goes := fun j : Fin 6 => (s.node j).present && !here j
    let mask := p.payload.headD 0
    ∃ u, exec (.nodeTxComplete b (some p) t) s = .next u ∧
      (∀ j : Fin 6, j ≠ 0 → u.node j =
        if here j then { s.node j with present := true }
        else if (s.node j).present then ⟨false, .searching, [], 0, none⟩
        else s.node j) ∧
      (∀ (j : Fin 6) (x : Transmission), j ≠ 0 → goes j = true → x ∈ u.sch.schedule → x.recipient ≠ nodeAddr s.cfg j) ∧
      u.sch.schedule.Sublist s.sch.schedule ∧ u.sch.nextId = s.sch.nextId ∧ u.pkt = s.pkt ∧ u.bus = s.bus ∧ u.tl = s.tl ∧
      u.mutexOwner = s.mutexOwner ∧ u.cfg = s.cfg ∧ u.port = s.port ∧ s.out <+: u.out ∧
      ((p.command = 0x05 → ∀ c ∈ s.cfg.functionTable.map (·.code), mask &&& c = 0) →
        u.node 0 = { s.node 0 with failCount := if (s.node 0).state = .connected then 0 else (s.node 0).failCount } ∧
        u.sch.schedule = s.sch.schedule.filter (fun x => ([1, 2, 3, 4, 5] : List (Fin 6)).all
          (fun j => !(goes j && x.recipient == nodeAddr s.cfg j))) ∧
        u.out = s.out ++ [.callback (.txComplete (.node 0) (some p) t)] ++
          ([1, 2, 3, 4, 5] : List (Fin 6)).flatMap (fun j =>
            if goes j then (s.node j).functions.map (Event.functionDestroyed j) ++ [.log (.subNodeGone j)]
            else if here j && !(s.node j).present then [.log (.subNodePresent j)]
            else []) ++
          (if p.command = 0x05 ∧ mask ≠ 0 then [.log (.unknownFunctionBits 0 mask)] else []))

/-- Rule R226 for the Main Node, behind rules R234 to R236: the whole state after a device-info response with a recognized
bit, whatever Sub Nodes come or go by it. The events of the Sub Nodes stand before those of the Main Node. -/
def Obligations.MainNodeConnects : Prop :=
  ∀ (s : State) (b : Byte) (p : Packet) (t : Transmission), b = 0 → s.cfg.wf = true → Valid s.cfg p →
    let here := fun j : Fin 6 => p.sender.getLsbD (j.val - 1)
    let goes := fun j : Fin 6 => (s.node j).present && !here j
    let mask := p.payload.headD 0
    let table := s.cfg.functionTable.map (·.code)
    p.command = 0x05 → (∃ c ∈ table, mask &&& c ≠ 0) →
    ∃ (topo : Topo) (codes : List Word) (logs more : List Event),
      exec (.nodeTxComplete b (some p) t) s = .next { s with
        topo := topo
        sch := ⟨s.sch.schedule.filter (fun x => some x.id != (s.node 0).discoveryId &&
          ([1, 2, 3, 4, 5] : List (Fin 6)).all (fun j => !(goes j && x.recipient == nodeAddr s.cfg j))), s.sch.nextId⟩
        out := s.out ++ [.callback (.txComplete (.node 0) (some p) t)] ++
          ([1, 2, 3, 4, 5] : List (Fin 6)).flatMap (fun j =>
            if goes j then (s.node j).functions.map (Event.functionDestroyed j) ++ [.log (.subNodeGone j)]
            else if here j && !(s.node j).present then [.log (.subNodePresent j)]
            else []) ++
          logs ++ (s.node 0).functions.map (Event.functionDestroyed 0) ++ more ++ codes.map (Event.functionCreated 0)
        result := .done } ∧
      topo.nodes[0] = ⟨(s.node 0).present, .connected, codes, 0, none⟩ ∧
      (∀ j : Fin 6, j ≠ 0 → topo.nodes[j] =
        if here j then { s.node j with present := true }
        else if (s.node j).present then ⟨false, .searching, [], 0, none⟩
        else s.node j) ∧
      codes ≠ [] ∧ codes.length ≤ 3 ∧ codes.Pairwise (fun c d => d.toNat < c.toNat) ∧
      (∀ c ∈ codes, c ∈ table ∧ mask &&& c ≠ 0) ∧
      (∀ c ∈ table, mask &&& c ≠ 0 → c ∈ codes ∨ (codes.length = 3 ∧ ∀ d ∈ codes, c.toNat < d.toNat)) ∧
      ((∀ i, mask.getLsbD i = true → ∃ c ∈ table, c.getLsbD i = true) → logs = []) ∧
      ((∃ i, mask.getLsbD i = true ∧ ∀ c ∈ table, c.getLsbD i = false) →
        ∃ bits : Word, logs = [.log (.unknownFunctionBits 0 bits)] ∧
          ∀ i, bits.getLsbD i = true ↔ mask.getLsbD i = true ∧ ∀ c ∈ table, c.getLsbD i = false) ∧
      ((∀ c ∈ table, mask &&& c ≠ 0 → c ∈ codes) → more = []) ∧
      ((∃ c ∈ table, mask &&& c ≠ 0 ∧ c ∉ codes) → more = [.log (.moreThanThreeFunctions 0 mask)])

/-! ### RESET and MUTEX -/

/-- Rules R310 and R55: the value of every field after `RESET`. -/
def Obligations.ResetValues : Prop :=
  ∀ s : State, ∃ t, exec .reset s = .next t ∧
    t.pkt.crcAcc = 0x00 ∧
    t.bus = { phase := .idle, failureReason := .none, txPacket := none, txBytes := [], expectResponse := false,
              readTimeoutUs := 0, tWriteStart := 0, writeDeadline := 0, tArmed := 0, tReadStart := 0,
              readBuffer := none } ∧
    t.sch = ⟨[], 1⟩ ∧ t.tl.inFlight = none ∧
    (∀ k : Fin 6, t.node k = ⟨k == 0, .searching, [], 0, none⟩) ∧
    t.out = [] ∧ t.mutexOwner = none ∧ t.cfg = s.cfg

/-- Rules R298 and R299, and rule R297 where `LOCK` is enabled: the answers and the owner. -/
def Obligations.MutexOperations : Prop :=
  ∀ (s : State) (ctx : Context),
    (s.mutexOwner = none →
      exec (.lock ctx) s = .next { s with mutexOwner := some ctx, result := .lock .locked } ∧
      exec (.tryLock ctx) s = .next { s with mutexOwner := some ctx, result := .lock .locked }) ∧
    (s.mutexOwner = some ctx →
      exec (.lock ctx) s = .next { s with result := .lock .wouldDeadlock } ∧
      exec (.tryLock ctx) s = .next { s with result := .lock .wouldDeadlock } ∧
      exec (.unlock ctx) s = .next { s with mutexOwner := none, result := .done }) ∧
    (∀ c, c ≠ ctx → s.mutexOwner = some c → exec (.tryLock ctx) s = .next { s with result := .lock .wouldBlock }) ∧
    (s.mutexOwner ≠ some ctx →
      exec (.unlock ctx) s = .next { s with out := s.out ++ [.log .unlockByNonOwner], result := .done })

/-! ### Command codes -/

/-- Rule R250 for all twelve command codes (`DEVICE_INFO_REQUEST`, `RESPONSE_DEVICE_INFO`, `RESPONSE_DATA_XFER`,
`GET_CONDITION`, `GET_MEMORY_INFORMATION`, `BLOCK_READ`, `BLOCK_WRITE`, `SET_CONDITION`, `RESPONSE_FILE_ERROR`,
`RESPONSE_REQUEST_RESEND`, `RESPONSE_UNKNOWN_COMMAND`, `RESPONSE_FUNCTION_CODE_NOT_SUPPORTED`): a packet with the code passes
through the block exactly as the operation that carries it treats any packet. The passages are the model's (log entry 3). -/
def Obligations.CommandsPassThrough : Prop :=
  ∀ x ∈ commandInstrs, ∀ (s : State) (r a n : Byte) (ws : List Word) (now : Nat) (lineOpen : Bool) (k : Byte)
    (t : Transmission) (ops : AddOperands) (w : WriteOperands), ws.length = n.toNat → ∃ (p : Packet) (bs : List Byte),
    p.command = x.1 ∧ p.recipient = r ∧ p.sender = a ∧ p.count = n ∧ p.payload = ws ∧
    exec (.encode x.1 r a ws) s = .next { s with result := .bytes bs } ∧
    exec (x.2 r a n ws (.nodeTask now lineOpen)) s =
      exec (.nodeTask now ⟨false, false, false, some ⟨bs, true, true⟩, false⟩ lineOpen) s ∧
    exec (x.2 r a n ws (.readTask now)) s =
      exec (.tlReadTask now ⟨false, false, false, some ⟨bs, true, true⟩, false⟩) s ∧
    exec (x.2 r a n ws (.processEvents now)) s =
      exec (.processEvents now ⟨false, false, false, some ⟨bs, true, true⟩, false⟩) s ∧
    exec (x.2 r a n ws (.txComplete k t)) s = exec (.nodeTxComplete k (some p) t) s ∧
    exec (x.2 r a n ws (.add ops)) s = exec (.add p ops) s ∧
    exec (x.2 r a n ws (.write w)) s = exec (.write p w) s

/-- Rules R250 (a), R251 to R262 outbound, for all twelve command codes named above: the packet is scheduled, and it is
written with its payload as given and this bus's address as its sender. -/
def Obligations.CommandsOutbound : Prop :=
  ∀ x ∈ commandInstrs, ∀ (s : State) (r a n : Byte) (ws : List Word) (ops : AddOperands) (w : WriteOperands),
    ws.length = n.toNat →
    (ops.expectedResponseWords ≤ 255 → (∀ c, s.cfg.schedCapacity = some c → s.sch.schedule.length < c) →
      s.sch.nextId ≤ 2 ^ 32 - 1 → ∃ (l : List Transmission) (p : Packet),
      p.command = x.1 ∧ p.recipient = r ∧ p.sender = a ∧ p.count = n ∧ p.payload = ws ∧
      exec (x.2 r a n ws (.add ops)) s =
        .next { s with sch := ⟨l, s.sch.nextId + 1⟩, result := .id s.sch.nextId } ∧
      InsertedAt
        { id := s.sch.nextId
          priority := ops.priority
          expectResponse := ops.expectResponse
          expectedResponseWords := ops.expectedResponseWords
          readTimeoutUs := ops.readTimeoutUs.getD s.cfg.defaultReadTimeoutUs
          autoRepeatUs := ops.autoRepeatUs
          autoRepeatEndUs := ops.autoRepeatEndUs
          durationUs := durationUs s.cfg n.toNat ops.expectResponse ops.expectedResponseWords
          nextTimeUs := ops.scheduledTimeUs
          packet := p
          transmitter := ops.transmitter } s.sch.schedule l) ∧
    (s.bus.phase = .idle → w.lineOpen = true → ∃ (bus : Bus) (bs : List Byte),
      exec (.encode x.1 r (busAddr s.cfg) ws) s = .next { s with result := .bytes bs } ∧
      exec (x.2 r a n ws (.write w)) s =
        .next { s with bus := bus, out := s.out ++ [.wire bs], result := .bool true } ∧
      bus.phase = .writeInProgress ∧ bus.txBytes = bs)

/-- Rules R250 (b), R251 to R262 inbound, for all twelve command codes named above: while a response is awaited, the
well-framed packet completes the transmission in flight, whatever its code; an error response is a completed read. -/
def Obligations.CommandsInbound : Prop :=
  ∀ x ∈ commandInstrs, ∀ (s : State) (r a n : Byte) (ws : List Word) (now : Nat) (t : Transmission),
    ws.length = n.toNat → s.bus.phase = .readArmed ∨ s.bus.phase = .readInProgress → s.tl.inFlight = some t →
    5 + 4 * ws.length ≤ s.cfg.rxBufferBytes → ∃ p : Packet,
      p.command = x.1 ∧ p.recipient = r ∧ p.sender = a ∧ p.count = n ∧ p.payload = ws ∧
      exec (x.2 r a n ws (.readTask now)) s = .next { s with
        bus := { s.bus with
          phase := .idle
          txPacket := none
          readBuffer := some p
          tReadStart := if s.bus.phase = .readArmed then now else s.bus.tReadStart }
        tl := ⟨none⟩
        out := s.out ++ [if resolves s t.transmitter then .callback (.txComplete t.transmitter (some p) t)
          else .dropped (.txComplete t.transmitter (some p) t)]
        result := .tl (.completed (some p) t) }

/-! ### The request port -/

/-- A step takes the oldest request, decodes it and runs it, where it is no `LOCK` that must wait (the model's request port,
log entry 2). With no request the block does nothing (rule R310). -/
def Obligations.StepRunsDecoded : Prop :=
  (∀ (s : State) (r : Request) (rest : List Request) (i : Instr), s.port = r :: rest → decode r = .ok i →
    (∀ ctx, i = .lock ctx → s.mutexOwner = none ∨ s.mutexOwner = some ctx) →
    step s = exec i { s with port := rest }) ∧
  ∀ s : State, s.port = [] → step s = .next s

/-- Rule R297's wait and rule R328's stall, as the model's port takes them (log entry 7): a `LOCK` that is not enabled has no
effect and keeps its place; the requests of the context that waits in it keep theirs behind it, `NODE.TASK` and every other
call of the bus-facing loop where that is `CTX_BUS`; the first request of another issuer behind them is taken. -/
def Obligations.LockWaits : Prop :=
  ∀ (s : State) (ctx c : Context), c ≠ ctx → s.mutexOwner = some c →
    exec (.lock ctx) s = .next { s with result := .waiting } ∧
    ∀ held : List Request, (∀ r ∈ held, ∃ i, decode r = .ok i ∧ issuer i = some ctx) →
      (s.port = encode (.lock ctx) :: held → step s = .next s) ∧
      (ctx = .bus → ∀ (r : Request) (now : Nat) (ev : LineEvents) (lineOpen : Bool),
        decode r = .ok (.nodeTask now ev lineOpen) → s.port = encode (.lock ctx) :: held ++ [r] → step s = .next s) ∧
      ∀ (r : Request) (i : Instr) (rest : List Request), decode r = .ok i → issuer i ≠ some ctx →
        s.port = encode (.lock ctx) :: held ++ r :: rest →
        step s = exec i { s with port := encode (.lock ctx) :: held ++ rest }

/-- Rule R102: a reserved operation code is refused and changes nothing but the request's own place in the port. -/
def Obligations.ReservedCodesRefused : Prop :=
  ∀ (s : State) (code : Byte) (operands : List Byte) (rest : List Request), code ∉ opselCodes →
    s.port = .op (code :: operands) :: rest →
    step s = .next { s with port := rest, result := .constructionError }

/-- Rule R263, through the request port (log entry 3): a packet with a code that is not known is refused by `ADD` and
`WRITE`, and fails a read with `FRAMING_INVALID`. -/
def Obligations.UnknownCommandsRefused : Prop :=
  ∀ (s : State) (c r a n : Byte) (ws : List Word) (rest : List Request) (v : Passage),
    ¬ Known s.cfg c → wfFrame n ws v = true → s.port = putFrame c r a n ws v :: rest →
    (∀ ops, v = .add ops → step s = .next { s with port := rest, result := .constructionError }) ∧
    (∀ ops, v = .write ops → step s = .next { s with port := rest, result := .bool false }) ∧
    (∀ now, v = .processEvents now → s.bus.phase = .readInProgress → 5 + 4 * ws.length ≤ s.cfg.rxBufferBytes →
      step s = .next { s with
        port := rest
        bus := { s.bus with phase := .idle, txPacket := none, failureReason := .framingInvalid }
        result := .status ⟨.readFailed, none, .framingInvalid⟩ })

/-! ### Encoding -/

/-- Every well-formed instruction's request decodes to it. -/
def Obligations.DecodeEncode : Prop := ∀ i : Instr, i.wf = true → decode (encode i) = .ok i

/-- Every instruction that any request decodes to is well formed: each operand fits the field it was read from. -/
def Obligations.DecodedWellFormed : Prop := ∀ (r : Request) (i : Instr), decode r = .ok i → i.wf = true

/-- A few requests written out from rules R62, R96, R100 and R101 decode to the instructions they stand for. -/
def Obligations.SampleRequests : Prop :=
  decode (.op [0x01, 0x5A]) = .ok (.crcUpdate 0x5A) ∧
  decode (.op [0x04, 0x01, 0x20]) = .ok (.mkAddr 0x01 0x20) ∧
  decode (.op [0x11, 0xE8, 0x03, 0, 0, 0, 0, 0, 0]) = .ok (.peekNext 1000) ∧
  decode (.op [0x13, 0x02, 0x01, 0, 0]) = .ok (.cancelById 258) ∧
  decode (.op [0x31, 0x64, 0, 0, 0, 0, 0, 0, 0, 1]) = .ok (.tlWriteTask 100 true) ∧
  decode (.op [0x50]) = .ok .reset ∧
  decode (.frame [0x01, 0x40, 0x60, 0x09, 0x01, 0, 0, 0, 0x01, 0x64, 0, 0, 0, 0, 0, 0, 0]) =
    .ok (.getCondition 0x60 0x40 0x01 [0x00000001] (.readTask 100))

/-! ### Invariants and ownership -/

/-- Rule R30, with the ranges of rule R29: every step keeps the schedule's invariant. -/
def Obligations.SchedInvKept : Prop := ∀ s t : State, SchedInv s → step s = .next t → SchedInv t

/-- Rules R43, R44, R46, R47 and R247 (a) to (d): every step keeps the topology's invariant. -/
def Obligations.TopoInvKept : Prop := ∀ s t : State, TopoInv s → step s = .next t → TopoInv t

/-- Rule R182: no step leaves the bus in a terminal phase. -/
def Obligations.PhaseInvKept : Prop := ∀ s t : State, PhaseInv s → step s = .next t → PhaseInv t

/-- The invariants hold after reset. -/
def Obligations.InvariantsAtReset : Prop :=
  SchedInv State.reset ∧ TopoInv State.reset ∧ PhaseInv State.reset ∧ TimelinerInv State.reset

/-- Rules R12 and R270: no operation halts the block. Every instruction and every step answers a next state. -/
def Obligations.NothingHalts : Prop :=
  (∀ (i : Instr) (s : State), ∃ t, exec i s = .next t) ∧ ∀ s : State, ∃ t, step s = .next t

/-- Rules R28, R48, R50 and R24: no instruction writes the configuration; but for `RESET`, the next id never decreases and
the trace is only appended to; the check accumulator is written by `CRC.INIT` and `CRC.UPDATE` alone, and the mutex's
owner by its own operations (rule R299). -/
def Obligations.OwnedState : Prop :=
  ∀ (i : Instr) (s : State), ∃ t, exec i s = .next t ∧ t.cfg = s.cfg ∧ t.port = s.port ∧
    (i ≠ .reset → s.sch.nextId ≤ t.sch.nextId ∧ s.out <+: t.out ∧
      (i ≠ .crcInit → (∀ b, i ≠ .crcUpdate b) → t.pkt = s.pkt) ∧
      ((∀ ctx, i ≠ .lock ctx ∧ i ≠ .unlock ctx ∧ i ≠ .tryLock ctx) → t.mutexOwner = s.mutexOwner))
end

