-- ==== Sys2Proof/Laws/Packet.lean ====
section
/-! SUPPORT. The packet unit's functions: byte strings and words (rules R61, R92), the check byte (rule R124), the frame
word's fields (rules R22, R91, R129), what `DECODE` accepts and what it answers (rules R127, R130). -/

namespace Sys2Proof

/-! ### Bytes and numbers -/

@[simp] theorem length_leBytes (n v : Nat) : (leBytes n v).length = n := by
  induction n generalizing v with
  | zero => rfl
  | succ n ih => simp [leBytes, ih]

theorem ofLeBytes_leBytes (n v : Nat) : ofLeBytes (leBytes n v) = v % 256 ^ n := by
  induction n generalizing v with
  | zero => simp [leBytes, ofLeBytes, Nat.mod_one]
  | succ n ih =>
    rw [leBytes, ofLeBytes, ih, BitVec.toNat_ofNat, show 2 ^ 8 = 256 from rfl, pow_succ, mul_comm (256 ^ n) 256,
      Nat.mod_mul]

theorem ofLeBytes_lt (bs : List Byte) : ofLeBytes bs < 256 ^ bs.length := by
  induction bs with
  | nil => simp [ofLeBytes]
  | cons b bs ih => have := b.isLt; simp only [ofLeBytes, List.length_cons, Nat.pow_succ]; omega

theorem leBytes_ofLeBytes (bs : List Byte) : leBytes bs.length (ofLeBytes bs) = bs := by
  induction bs with
  | nil => rfl
  | cons b bs ih =>
    have := b.isLt
    have e1 : BitVec.ofNat 8 (b.toNat + 256 * ofLeBytes bs) = b := by
      apply BitVec.eq_of_toNat_eq; simp only [BitVec.toNat_ofNat]; omega
    have e2 : (b.toNat + 256 * ofLeBytes bs) / 256 = ofLeBytes bs := by omega
    simp only [List.length_cons, leBytes, ofLeBytes, e1, e2, ih]

@[simp] theorem length_wordBytes (w : Word) : (wordBytes w).length = 4 := length_leBytes 4 _

theorem ofLeBytes_wordBytes (w : Word) : BitVec.ofNat 32 (ofLeBytes (wordBytes w)) = w := by
  apply BitVec.eq_of_toNat_eq
  have := w.isLt
  rw [wordBytes, ofLeBytes_leBytes, BitVec.toNat_ofNat, Nat.mod_mod_of_dvd _ (by decide), Nat.mod_eq_of_lt (by omega)]

/-- Four bytes are the wire form of the word they read as. -/
theorem wordBytes_ofLeBytes {bs : List Byte} (h : bs.length = 4) : wordBytes (BitVec.ofNat 32 (ofLeBytes bs)) = bs := by
  have h1 := ofLeBytes_lt bs
  have h2 := leBytes_ofLeBytes bs
  rw [h] at h1 h2
  rw [wordBytes, BitVec.toNat_ofNat, Nat.mod_eq_of_lt (by omega), h2]

@[simp] theorem length_wordsBytes (ws : List Word) : (wordsBytes ws).length = 4 * ws.length := by
  induction ws with
  | nil => rfl
  | cons w ws ih =>
    have : wordsBytes (w :: ws) = wordBytes w ++ wordsBytes ws := rfl
    simp [this, ih]; omega

/-- Words laid out in wire order read back (rule R61), whatever stands after them. -/
theorem wordsOf_wordsBytes (ws : List Word) (rest : List Byte) : wordsOf ws.length (wordsBytes ws ++ rest) = ws := by
  induction ws with
  | nil => rfl
  | cons w ws ih =>
    have e : wordsBytes (w :: ws) ++ rest = wordBytes w ++ (wordsBytes ws ++ rest) := by simp [wordsBytes]
    rw [e]
    simp only [List.length_cons, wordsOf, memRead, List.drop_zero]
    rw [List.take_left' (length_wordBytes w), List.drop_left' (length_wordBytes w), ofLeBytes_wordBytes, ih]

@[simp] theorem length_wordsOf (n : Nat) (bs : List Byte) : (wordsOf n bs).length = n := by
  induction n generalizing bs with
  | zero => rfl
  | succ n ih => simp [wordsOf, ih]

/-- The words read from a byte string lay out as its first bytes. -/
theorem wordsBytes_wordsOf (n : Nat) (bs : List Byte) (h : 4 * n ≤ bs.length) :
    wordsBytes (wordsOf n bs) = bs.take (4 * n) := by
  induction n generalizing bs with
  | zero => simp [wordsOf, wordsBytes]
  | succ n ih =>
    have e : wordsBytes (wordsOf (n + 1) bs) = wordBytes (BitVec.ofNat 32 (memRead bs 0 4)) ++
        wordsBytes (wordsOf n (bs.drop 4)) := by simp [wordsOf, wordsBytes]
    have l4 : (bs.take 4).length = 4 := by simp; omega
    rw [e, memRead, List.drop_zero, wordBytes_ofLeBytes l4, ih _ (by simp; omega)]
    have : 4 * (n + 1) = 4 + 4 * n := by omega
    rw [this, List.take_add]

/-! ### The frame word (rules R22, R91, R129) -/

theorem frameWordOf_toNat (c r a n : Byte) :
    (frameWordOf c r a n).toNat = c.toNat * 2 ^ 24 + (r.toNat * 2 ^ 16 + (a.toNat * 2 ^ 8 + n.toNat)) := by
  have hc := c.isLt; have hr := r.isLt; have ha := a.isLt; have hn := n.isLt
  have e : ∀ (x : Byte) (k : Nat), k ≤ 24 → (x.zeroExtend 32 <<< k).toNat = x.toNat <<< k := fun x k hk => by
    have hx := x.isLt
    have : x.toNat * 2 ^ k < 2 ^ 32 := by
      have := Nat.pow_le_pow_right (n := 2) (by decide) hk
      nlinarith
    simp only [BitVec.zeroExtend, BitVec.toNat_shiftLeft, BitVec.toNat_setWidth]
    rw [Nat.mod_eq_of_lt (by omega : x.toNat < 2 ^ 32), Nat.shiftLeft_eq, Nat.mod_eq_of_lt this]
  have e0 : (n.zeroExtend 32).toNat = n.toNat := by
    simp only [BitVec.zeroExtend, BitVec.toNat_setWidth]; omega
  simp only [frameWordOf, BitVec.toNat_or, e _ _ (by decide : 24 ≤ 24), e _ _ (by decide : 16 ≤ 24),
    e _ _ (by decide : 8 ≤ 24), e0, Nat.or_assoc]
  rw [← Nat.shiftLeft_add_eq_or_of_lt (by omega : n.toNat < 2 ^ 8) a.toNat,
    ← Nat.shiftLeft_add_eq_or_of_lt (by rw [Nat.shiftLeft_eq]; omega) r.toNat,
    ← Nat.shiftLeft_add_eq_or_of_lt (by simp only [Nat.shiftLeft_eq]; omega) c.toNat]
  simp only [Nat.shiftLeft_eq]

theorem extractByte_toNat (w : Word) (k : Nat) : (w.extractLsb' k 8).toNat = w.toNat / 2 ^ k % 256 := by
  simp [BitVec.extractLsb'_toNat, Nat.shiftRight_eq_div_pow]

/-- The frame word is its four fields (rule R90). -/
theorem frameWord_eq (p : Packet) : frameWordOf p.command p.recipient p.sender p.count = p.frameWord := by
  have := p.frameWord.isLt
  apply BitVec.eq_of_toNat_eq
  simp only [frameWordOf_toNat, Packet.command, Packet.recipient, Packet.sender, Packet.count, extractByte_toNat]
  omega

section
variable (c r a n : Byte) (ws : List Word)

@[simp] theorem framePacket_command : (framePacket c r a n ws).command = c := by
  have hc := c.isLt; have hr := r.isLt; have ha := a.isLt; have hn := n.isLt
  apply BitVec.eq_of_toNat_eq
  simp only [Packet.command, framePacket, extractByte_toNat, frameWordOf_toNat]; omega

@[simp] theorem framePacket_recipient : (framePacket c r a n ws).recipient = r := by
  have hc := c.isLt; have hr := r.isLt; have ha := a.isLt; have hn := n.isLt
  apply BitVec.eq_of_toNat_eq
  simp only [Packet.recipient, framePacket, extractByte_toNat, frameWordOf_toNat]; omega

@[simp] theorem framePacket_sender : (framePacket c r a n ws).sender = a := by
  have hc := c.isLt; have hr := r.isLt; have ha := a.isLt; have hn := n.isLt
  apply BitVec.eq_of_toNat_eq
  simp only [Packet.sender, framePacket, extractByte_toNat, frameWordOf_toNat]; omega

@[simp] theorem framePacket_count : (framePacket c r a n ws).count = n := by
  have hc := c.isLt; have hr := r.isLt; have ha := a.isLt; have hn := n.isLt
  apply BitVec.eq_of_toNat_eq
  simp only [Packet.count, framePacket, extractByte_toNat, frameWordOf_toNat]; omega

@[simp] theorem framePacket_payload : (framePacket c r a n ws).payload = ws := rfl

end

/-- A packet is the one its fields make. -/
theorem framePacket_eq (p : Packet) : framePacket p.command p.recipient p.sender p.count p.payload = p := by
  cases p; simp only [framePacket]; congr 1; exact frameWord_eq _

/-- The first four wire bytes of a packet: count, sender, recipient, command (rule R62). -/
theorem wordBytes_frameWordOf (c r a n : Byte) : wordBytes (frameWordOf c r a n) = [n, a, r, c] := by
  have hc := c.isLt; have hr := r.isLt; have ha := a.isLt; have hn := n.isLt
  simp only [wordBytes, frameWordOf_toNat, leBytes, List.cons.injEq, and_true]
  refine ⟨?_, ?_, ?_, ?_⟩ <;> apply BitVec.eq_of_toNat_eq <;> simp only [BitVec.toNat_ofNat] <;> omega

/-! ### The check byte (rule R124) -/

/-- Byte b of a word in wire order is its bits 8·b+7 to 8·b (rule R61). -/
theorem wordBytes_getElem? (w : Word) (b : Nat) (hb : b < 4) : (wordBytes w)[b]? = some (w.extractLsb' (8 * b) 8) := by
  have e : w.extractLsb' (8 * b) 8 = BitVec.ofNat 8 (w.toNat / 2 ^ (8 * b)) := by
    apply BitVec.eq_of_toNat_eq; rw [extractByte_toNat]; simp
  rw [e]
  interval_cases b <;> simp [wordBytes, leBytes, Nat.div_div_eq_div_mul]

/-- Byte 4·j + b of words in wire order is byte b of word j (rule R64). -/
theorem wordsBytes_getElem? (ws : List Word) (rest : List Byte) (j b : Nat) (w : Word) (h : ws[j]? = some w)
    (hb : b < 4) : (wordsBytes ws ++ rest)[4 * j + b]? = some (w.extractLsb' (8 * b) 8) := by
  induction ws generalizing j with
  | nil => simp at h
  | cons x ws ih =>
    have e : wordsBytes (x :: ws) ++ rest = wordBytes x ++ (wordsBytes ws ++ rest) := by simp [wordsBytes]
    rw [e]
    cases j with
    | zero =>
      simp at h; subst h
      rw [List.getElem?_append_left (by simp; omega)]; simpa using wordBytes_getElem? x b hb
    | succ j =>
      rw [List.getElem?_append_right (by simp; omega), length_wordBytes, show 4 * (j + 1) + b - 4 = 4 * j + b by omega]
      exact ih j (by simpa using h)

namespace Machine

theorem foldl_xor (bs : List Byte) (acc : Byte) : bs.foldl (fun a b => a ^^^ b) acc = acc ^^^ crc8 bs := by
  induction bs generalizing acc with
  | nil => simp [crc8]
  | cons b bs ih => simp only [crc8, List.foldl_cons]; rw [ih, ih (0x00 ^^^ b)]; simp [BitVec.xor_assoc]

@[simp] theorem crc8_nil : crc8 [] = 0x00 := rfl

@[simp] theorem crc8_cons (b : Byte) (bs : List Byte) : crc8 (b :: bs) = b ^^^ crc8 bs := by
  simp only [crc8, List.foldl_cons]; rw [foldl_xor]; simp [crc8]

theorem crc8_append (xs ys : List Byte) : crc8 (xs ++ ys) = crc8 xs ^^^ crc8 ys := by
  induction xs with
  | nil => simp
  | cons x xs ih => simp [ih, BitVec.xor_assoc]

/-- A change of one byte changes the check byte by the same bits. -/
theorem crc8_set (bs : List Byte) (i : Nat) (h : i < bs.length) (d : Byte) :
    crc8 (bs.set i (bs[i] ^^^ d)) = crc8 bs ^^^ d := by
  induction bs generalizing i with
  | nil => simp at h
  | cons b bs ih =>
    cases i with
    | zero => simp [BitVec.xor_assoc, BitVec.xor_comm d]
    | succ i =>
      simp only [List.set_cons_succ, List.getElem_cons_succ, crc8_cons, BitVec.xor_assoc]
      rw [ih i (by simpa using h)]

/-- The last byte is the XOR of the others exactly when all bytes together give zero. -/
theorem crc8_dropLast_eq_iff (bs : List Byte) (h : bs ≠ []) :
    crc8 (bs.take (bs.length - 1)) = byteAt bs (bs.length - 1) ↔ crc8 bs = 0x00 := by
  have hl : 0 < bs.length := List.length_pos_iff.mpr h
  have e : bs = bs.take (bs.length - 1) ++ [byteAt bs (bs.length - 1)] := by
    conv_lhs => rw [← List.dropLast_append_getLast h]
    rw [List.dropLast_eq_take, List.getLast_eq_getElem, byteAt, List.getD_eq_getElem _ _ (by omega)]
  conv_rhs => rw [e, crc8_append]
  simp only [crc8_cons, crc8_nil]
  constructor
  · intro he; rw [he]; simp
  · intro he
    have := congrArg (· ^^^ byteAt bs (bs.length - 1)) he
    simpa [BitVec.xor_assoc] using this

/-! ### ENCODE, DECODE, ISVALID (rules R126 to R128, R130) -/

@[simp] theorem length_bodyBytes (fw : Word) (ws : List Word) : (bodyBytes fw ws).length = 4 + 4 * ws.length := by
  simp [bodyBytes]

@[simp] theorem length_packetBytes (p : Packet) : (packetBytes p).length = 5 + 4 * p.payload.length := by
  simp [packetBytes]; omega

/-- The wire layout of a packet (rule R92). -/
theorem packetBytes_eq (p : Packet) :
    packetBytes p = p.count :: p.sender :: p.recipient :: p.command ::
      (wordsBytes p.payload ++ [crc8 (bodyBytes p.frameWord p.payload)]) := by
  have e : wordBytes p.frameWord = [p.count, p.sender, p.recipient, p.command] := by
    rw [← frameWord_eq p, wordBytes_frameWordOf]
  simp [packetBytes, bodyBytes, e]

theorem crc8_packetBytes (p : Packet) : crc8 (packetBytes p) = 0x00 := by
  simp [packetBytes, crc8_append]

theorem isValid_iff (cfg : Config) (p : Packet) :
    isValid cfg p = true ↔ isKnown cfg p.command = true ∧ p.payload.length = p.count.toNat := by
  simp [isValid]

theorem isKnown_iff_known (cfg : Config) (c : Byte) : isKnown cfg c = true ↔ Known cfg c := by
  simp [isKnown, knownCommands, Known]

/-- `isValid` decides `Valid` (rule R128). -/
theorem isValid_iff_valid (cfg : Config) (p : Packet) : isValid cfg p = true ↔ Valid cfg p := by
  rw [isValid_iff, isKnown_iff_known]; rfl

theorem encodePacket_eq (c r a : Byte) (ws : List Word) (h : ws.length ≤ 255) :
    encodePacket c r a ws = some (packetBytes (framePacket c r a (BitVec.ofNat 8 ws.length) ws)) := by
  simp [encodePacket, Nat.not_lt.mpr h]

theorem isValid_framePacket (cfg : Config) (c r a : Byte) (ws : List Word) (h : ws.length ≤ 255)
    (hc : isKnown cfg c = true) : isValid cfg (framePacket c r a (BitVec.ofNat 8 ws.length) ws) = true := by
  rw [isValid_iff]
  refine ⟨by simpa using hc, ?_⟩
  simp only [framePacket_payload, framePacket_count, BitVec.toNat_ofNat]; omega

/-- `DECODE` gives a valid packet back from its bytes (rule R130). -/
theorem decodeBytes_packetBytes (cfg : Config) (p : Packet) (h : isValid cfg p = true) :
    decodeBytes cfg (packetBytes p) = .ok p := by
  obtain ⟨hk, hn⟩ := (isValid_iff cfg p).mp h
  have hb : p.count.toNat = (packetBytes p).length / 4 - 1 := by rw [length_packetBytes]; omega
  have hne : packetBytes p ≠ [] := by simp [packetBytes]
  have e0 : byteAt (packetBytes p) 0 = p.count := by rw [packetBytes_eq]; rfl
  have e3 : byteAt (packetBytes p) 3 = p.command := by rw [packetBytes_eq]; rfl
  have e4 : memRead (packetBytes p) 0 4 = ofLeBytes (wordBytes p.frameWord) := by
    simp only [memRead, List.drop_zero, packetBytes, bodyBytes, List.append_assoc]
    rw [List.take_left' (length_wordBytes _)]
  have e5 : (packetBytes p).drop 4 = wordsBytes p.payload ++ [crc8 (bodyBytes p.frameWord p.payload)] := by
    rw [packetBytes_eq]; rfl
  have e6 : (packetBytes p).length - 5 = 4 * p.payload.length := by rw [length_packetBytes]; omega
  unfold decodeBytes
  rw [if_neg (by rw [length_packetBytes]; omega), if_neg (by rw [e0, e6]; omega),
    if_neg (by rw [not_not, crc8_dropLast_eq_iff _ hne]; exact crc8_packetBytes p),
    if_neg (by rw [e3, hk]; decide), e4, e5, e6, ofLeBytes_wordBytes, Nat.mul_div_cancel_left _ (by decide),
    wordsOf_wordsBytes]

/-- `DECODE` answers a packet only for the bytes of that packet, and the packet is valid (rules R127, R130). -/
theorem decodeBytes_ok {cfg : Config} {bs : List Byte} {p : Packet} (h : decodeBytes cfg bs = .ok p) :
    isValid cfg p = true ∧ packetBytes p = bs := by
  unfold decodeBytes at h
  split at h
  · cases h
  rename_i hl
  split at h
  · cases h
  rename_i hn
  split at h
  · cases h
  rename_i hc
  split at h
  · cases h
  rename_i hk
  simp only [not_or, Nat.not_lt, not_not] at hl
  rw [not_not] at hn hc
  simp only [Except.ok.injEq] at h
  obtain ⟨n, hlen⟩ : ∃ n, bs.length = 5 + 4 * n := ⟨(bs.length - 5) / 4, by omega⟩
  obtain ⟨b0, b1, b2, b3, rest, rfl⟩ : ∃ b0 b1 b2 b3 rest, bs = b0 :: b1 :: b2 :: b3 :: rest := by
    match bs, hl with
    | b0 :: b1 :: b2 :: b3 :: rest, _ => exact ⟨_, _, _, _, _, rfl⟩
    | [], h => simp at h
    | [_], h => simp at h
    | [_, _], h => simp at h
    | [_, _, _], h => simp at h
  have hd : ((b0 :: b1 :: b2 :: b3 :: rest).length - 5) / 4 = n := by omega
  rw [hd] at h hn
  have hrest : rest.length = 4 * n + 1 := by simp at hlen; omega
  have hw : wordBytes p.frameWord = [b0, b1, b2, b3] := by
    rw [← h]; exact wordBytes_ofLeBytes (bs := [b0, b1, b2, b3]) rfl
  have hf : [p.count, p.sender, p.recipient, p.command] = [b0, b1, b2, b3] := by
    rw [← hw, ← frameWord_eq p, wordBytes_frameWordOf]
  simp only [List.cons.injEq, and_true] at hf
  obtain ⟨f0, f1, f2, f3⟩ := hf
  have hp : p.payload = wordsOf n rest := by rw [← h]; rfl
  have hb0 : b0.toNat = n := hn
  have hb3 : isKnown cfg b3 = true := by
    have : isKnown cfg b3 ≠ false := hk
    simpa using this
  refine ⟨(isValid_iff cfg p).mpr ⟨by rw [f3]; exact hb3, by rw [hp, length_wordsOf, f0]; exact hb0.symm⟩, ?_⟩
  have hbody : bodyBytes p.frameWord p.payload = (b0 :: b1 :: b2 :: b3 :: rest).take (4 + 4 * n) := by
    rw [bodyBytes, hw, hp, wordsBytes_wordsOf _ _ (by omega), List.take_add]; rfl
  have hlast : (b0 :: b1 :: b2 :: b3 :: rest).length - 1 = 4 + 4 * n := by rw [hlen]; omega
  rw [hlast] at hc
  rw [packetBytes, hbody, hc, byteAt, List.getD_eq_getElem _ _ (by omega), List.take_concat_get']
  rw [List.take_of_length_le (by omega)]

/-! ### SETSENDER (rule R129) -/

theorem setSender_eq (p : Packet) (a : Byte) : setSender p a = framePacket p.command p.recipient a p.count p.payload := by
  have : ((p.frameWord &&& 0xFFFF00FF) ||| (a.zeroExtend 32 <<< 8)) = frameWordOf p.command p.recipient a p.count := by
    conv_lhs => rw [← frameWord_eq p]
    simp only [frameWordOf]
    apply BitVec.eq_of_getLsbD_eq
    intro i hi
    simp only [BitVec.getLsbD_or, BitVec.getLsbD_and, BitVec.getLsbD_shiftLeft, BitVec.zeroExtend,
      BitVec.getLsbD_setWidth]
    interval_cases i <;> simp [BitVec.getLsbD_of_ge]
  simp only [setSender, framePacket, this]

@[simp] theorem setSender_command (p : Packet) (a : Byte) : (setSender p a).command = p.command := by
  rw [setSender_eq]; simp

@[simp] theorem setSender_recipient (p : Packet) (a : Byte) : (setSender p a).recipient = p.recipient := by
  rw [setSender_eq]; simp

@[simp] theorem setSender_sender (p : Packet) (a : Byte) : (setSender p a).sender = a := by rw [setSender_eq]; simp

@[simp] theorem setSender_count (p : Packet) (a : Byte) : (setSender p a).count = p.count := by rw [setSender_eq]; simp

@[simp] theorem setSender_payload (p : Packet) (a : Byte) : (setSender p a).payload = p.payload := rfl

/-- The sender byte is no part of validity (rule R129). -/
@[simp] theorem isValid_setSender (cfg : Config) (p : Packet) (a : Byte) :
    isValid cfg (setSender p a) = isValid cfg p := by simp [isValid]

end Machine

end Sys2Proof
end

