-- ==== Sys2Proof/Laws/State.lean ====
section
/-! SUPPORT. What each named update of a state leaves in each field: one lemma per field per update, true by rfl. -/

namespace Sys2Proof.Machine

variable (s : State)

/-! ### emit -/

@[simp] theorem State.emit_pkt (e : Event) : (s.emit e).pkt = s.pkt := rfl
@[simp] theorem State.emit_bus (e : Event) : (s.emit e).bus = s.bus := rfl
@[simp] theorem State.emit_sch (e : Event) : (s.emit e).sch = s.sch := rfl
@[simp] theorem State.emit_tl (e : Event) : (s.emit e).tl = s.tl := rfl
@[simp] theorem State.emit_topo (e : Event) : (s.emit e).topo = s.topo := rfl
@[simp] theorem State.emit_out (e : Event) : (s.emit e).out = s.out ++ [e] := rfl
@[simp] theorem State.emit_mutexOwner (e : Event) : (s.emit e).mutexOwner = s.mutexOwner := rfl
@[simp] theorem State.emit_cfg (e : Event) : (s.emit e).cfg = s.cfg := rfl
@[simp] theorem State.emit_port (e : Event) : (s.emit e).port = s.port := rfl
@[simp] theorem State.emit_result (e : Event) : (s.emit e).result = s.result := rfl
@[simp] theorem State.emit_node (e : Event) (k : Fin 6) : (s.emit e).node k = s.node k := rfl
@[simp] theorem State.emit_isPresent (e : Event) (k : Fin 6) : (s.emit e).isPresent k = s.isPresent k := rfl

/-! ### emitAll -/

@[simp] theorem State.emitAll_pkt (es : List Event) : (s.emitAll es).pkt = s.pkt := rfl
@[simp] theorem State.emitAll_bus (es : List Event) : (s.emitAll es).bus = s.bus := rfl
@[simp] theorem State.emitAll_sch (es : List Event) : (s.emitAll es).sch = s.sch := rfl
@[simp] theorem State.emitAll_tl (es : List Event) : (s.emitAll es).tl = s.tl := rfl
@[simp] theorem State.emitAll_topo (es : List Event) : (s.emitAll es).topo = s.topo := rfl
@[simp] theorem State.emitAll_out (es : List Event) : (s.emitAll es).out = s.out ++ es := rfl
@[simp] theorem State.emitAll_mutexOwner (es : List Event) : (s.emitAll es).mutexOwner = s.mutexOwner := rfl
@[simp] theorem State.emitAll_cfg (es : List Event) : (s.emitAll es).cfg = s.cfg := rfl
@[simp] theorem State.emitAll_port (es : List Event) : (s.emitAll es).port = s.port := rfl
@[simp] theorem State.emitAll_result (es : List Event) : (s.emitAll es).result = s.result := rfl
@[simp] theorem State.emitAll_node (es : List Event) (k : Fin 6) : (s.emitAll es).node k = s.node k := rfl
@[simp] theorem State.emitAll_isPresent (es : List Event) (k : Fin 6) : (s.emitAll es).isPresent k = s.isPresent k := rfl

/-! ### respond -/

@[simp] theorem State.respond_pkt (r : Result) : (s.respond r).pkt = s.pkt := rfl
@[simp] theorem State.respond_bus (r : Result) : (s.respond r).bus = s.bus := rfl
@[simp] theorem State.respond_sch (r : Result) : (s.respond r).sch = s.sch := rfl
@[simp] theorem State.respond_tl (r : Result) : (s.respond r).tl = s.tl := rfl
@[simp] theorem State.respond_topo (r : Result) : (s.respond r).topo = s.topo := rfl
@[simp] theorem State.respond_out (r : Result) : (s.respond r).out = s.out := rfl
@[simp] theorem State.respond_mutexOwner (r : Result) : (s.respond r).mutexOwner = s.mutexOwner := rfl
@[simp] theorem State.respond_cfg (r : Result) : (s.respond r).cfg = s.cfg := rfl
@[simp] theorem State.respond_port (r : Result) : (s.respond r).port = s.port := rfl
@[simp] theorem State.respond_result (r : Result) : (s.respond r).result = r := rfl
@[simp] theorem State.respond_node (r : Result) (k : Fin 6) : (s.respond r).node k = s.node k := rfl
@[simp] theorem State.respond_isPresent (r : Result) (k : Fin 6) : (s.respond r).isPresent k = s.isPresent k := rfl

/-! ### setCrc -/

@[simp] theorem State.setCrc_pkt (c : Byte) : (s.setCrc c).pkt = ⟨c⟩ := rfl
@[simp] theorem State.setCrc_bus (c : Byte) : (s.setCrc c).bus = s.bus := rfl
@[simp] theorem State.setCrc_sch (c : Byte) : (s.setCrc c).sch = s.sch := rfl
@[simp] theorem State.setCrc_tl (c : Byte) : (s.setCrc c).tl = s.tl := rfl
@[simp] theorem State.setCrc_topo (c : Byte) : (s.setCrc c).topo = s.topo := rfl
@[simp] theorem State.setCrc_out (c : Byte) : (s.setCrc c).out = s.out := rfl
@[simp] theorem State.setCrc_mutexOwner (c : Byte) : (s.setCrc c).mutexOwner = s.mutexOwner := rfl
@[simp] theorem State.setCrc_cfg (c : Byte) : (s.setCrc c).cfg = s.cfg := rfl
@[simp] theorem State.setCrc_port (c : Byte) : (s.setCrc c).port = s.port := rfl
@[simp] theorem State.setCrc_result (c : Byte) : (s.setCrc c).result = s.result := rfl
@[simp] theorem State.setCrc_node (c : Byte) (k : Fin 6) : (s.setCrc c).node k = s.node k := rfl
@[simp] theorem State.setCrc_isPresent (c : Byte) (k : Fin 6) : (s.setCrc c).isPresent k = s.isPresent k := rfl

/-! ### setBus -/

@[simp] theorem State.setBus_pkt (b : Bus) : (s.setBus b).pkt = s.pkt := rfl
@[simp] theorem State.setBus_bus (b : Bus) : (s.setBus b).bus = b := rfl
@[simp] theorem State.setBus_sch (b : Bus) : (s.setBus b).sch = s.sch := rfl
@[simp] theorem State.setBus_tl (b : Bus) : (s.setBus b).tl = s.tl := rfl
@[simp] theorem State.setBus_topo (b : Bus) : (s.setBus b).topo = s.topo := rfl
@[simp] theorem State.setBus_out (b : Bus) : (s.setBus b).out = s.out := rfl
@[simp] theorem State.setBus_mutexOwner (b : Bus) : (s.setBus b).mutexOwner = s.mutexOwner := rfl
@[simp] theorem State.setBus_cfg (b : Bus) : (s.setBus b).cfg = s.cfg := rfl
@[simp] theorem State.setBus_port (b : Bus) : (s.setBus b).port = s.port := rfl
@[simp] theorem State.setBus_result (b : Bus) : (s.setBus b).result = s.result := rfl
@[simp] theorem State.setBus_node (b : Bus) (k : Fin 6) : (s.setBus b).node k = s.node k := rfl
@[simp] theorem State.setBus_isPresent (b : Bus) (k : Fin 6) : (s.setBus b).isPresent k = s.isPresent k := rfl

/-! ### setSchedule -/

@[simp] theorem State.setSchedule_pkt (l : List Transmission) : (s.setSchedule l).pkt = s.pkt := rfl
@[simp] theorem State.setSchedule_bus (l : List Transmission) : (s.setSchedule l).bus = s.bus := rfl
@[simp] theorem State.setSchedule_sch (l : List Transmission) : (s.setSchedule l).sch = ⟨l, s.sch.nextId⟩ := rfl
@[simp] theorem State.setSchedule_tl (l : List Transmission) : (s.setSchedule l).tl = s.tl := rfl
@[simp] theorem State.setSchedule_topo (l : List Transmission) : (s.setSchedule l).topo = s.topo := rfl
@[simp] theorem State.setSchedule_out (l : List Transmission) : (s.setSchedule l).out = s.out := rfl
@[simp] theorem State.setSchedule_mutexOwner (l : List Transmission) : (s.setSchedule l).mutexOwner = s.mutexOwner := rfl
@[simp] theorem State.setSchedule_cfg (l : List Transmission) : (s.setSchedule l).cfg = s.cfg := rfl
@[simp] theorem State.setSchedule_port (l : List Transmission) : (s.setSchedule l).port = s.port := rfl
@[simp] theorem State.setSchedule_result (l : List Transmission) : (s.setSchedule l).result = s.result := rfl
@[simp] theorem State.setSchedule_node (l : List Transmission) (k : Fin 6) : (s.setSchedule l).node k = s.node k := rfl
@[simp] theorem State.setSchedule_isPresent (l : List Transmission) (k : Fin 6) : (s.setSchedule l).isPresent k = s.isPresent k := rfl

/-! ### setNextId -/

@[simp] theorem State.setNextId_pkt (n : Nat) : (s.setNextId n).pkt = s.pkt := rfl
@[simp] theorem State.setNextId_bus (n : Nat) : (s.setNextId n).bus = s.bus := rfl
@[simp] theorem State.setNextId_sch (n : Nat) : (s.setNextId n).sch = ⟨s.sch.schedule, n⟩ := rfl
@[simp] theorem State.setNextId_tl (n : Nat) : (s.setNextId n).tl = s.tl := rfl
@[simp] theorem State.setNextId_topo (n : Nat) : (s.setNextId n).topo = s.topo := rfl
@[simp] theorem State.setNextId_out (n : Nat) : (s.setNextId n).out = s.out := rfl
@[simp] theorem State.setNextId_mutexOwner (n : Nat) : (s.setNextId n).mutexOwner = s.mutexOwner := rfl
@[simp] theorem State.setNextId_cfg (n : Nat) : (s.setNextId n).cfg = s.cfg := rfl
@[simp] theorem State.setNextId_port (n : Nat) : (s.setNextId n).port = s.port := rfl
@[simp] theorem State.setNextId_result (n : Nat) : (s.setNextId n).result = s.result := rfl
@[simp] theorem State.setNextId_node (n : Nat) (k : Fin 6) : (s.setNextId n).node k = s.node k := rfl
@[simp] theorem State.setNextId_isPresent (n : Nat) (k : Fin 6) : (s.setNextId n).isPresent k = s.isPresent k := rfl

/-! ### setInFlight -/

@[simp] theorem State.setInFlight_pkt (t : Option Transmission) : (s.setInFlight t).pkt = s.pkt := rfl
@[simp] theorem State.setInFlight_bus (t : Option Transmission) : (s.setInFlight t).bus = s.bus := rfl
@[simp] theorem State.setInFlight_sch (t : Option Transmission) : (s.setInFlight t).sch = s.sch := rfl
@[simp] theorem State.setInFlight_tl (t : Option Transmission) : (s.setInFlight t).tl = ⟨t⟩ := rfl
@[simp] theorem State.setInFlight_topo (t : Option Transmission) : (s.setInFlight t).topo = s.topo := rfl
@[simp] theorem State.setInFlight_out (t : Option Transmission) : (s.setInFlight t).out = s.out := rfl
@[simp] theorem State.setInFlight_mutexOwner (t : Option Transmission) : (s.setInFlight t).mutexOwner = s.mutexOwner := rfl
@[simp] theorem State.setInFlight_cfg (t : Option Transmission) : (s.setInFlight t).cfg = s.cfg := rfl
@[simp] theorem State.setInFlight_port (t : Option Transmission) : (s.setInFlight t).port = s.port := rfl
@[simp] theorem State.setInFlight_result (t : Option Transmission) : (s.setInFlight t).result = s.result := rfl
@[simp] theorem State.setInFlight_node (t : Option Transmission) (k : Fin 6) : (s.setInFlight t).node k = s.node k := rfl
@[simp] theorem State.setInFlight_isPresent (t : Option Transmission) (k : Fin 6) : (s.setInFlight t).isPresent k = s.isPresent k := rfl

/-! ### setOwner -/

@[simp] theorem State.setOwner_pkt (o : Option Context) : (s.setOwner o).pkt = s.pkt := rfl
@[simp] theorem State.setOwner_bus (o : Option Context) : (s.setOwner o).bus = s.bus := rfl
@[simp] theorem State.setOwner_sch (o : Option Context) : (s.setOwner o).sch = s.sch := rfl
@[simp] theorem State.setOwner_tl (o : Option Context) : (s.setOwner o).tl = s.tl := rfl
@[simp] theorem State.setOwner_topo (o : Option Context) : (s.setOwner o).topo = s.topo := rfl
@[simp] theorem State.setOwner_out (o : Option Context) : (s.setOwner o).out = s.out := rfl
@[simp] theorem State.setOwner_mutexOwner (o : Option Context) : (s.setOwner o).mutexOwner = o := rfl
@[simp] theorem State.setOwner_cfg (o : Option Context) : (s.setOwner o).cfg = s.cfg := rfl
@[simp] theorem State.setOwner_port (o : Option Context) : (s.setOwner o).port = s.port := rfl
@[simp] theorem State.setOwner_result (o : Option Context) : (s.setOwner o).result = s.result := rfl
@[simp] theorem State.setOwner_node (o : Option Context) (k : Fin 6) : (s.setOwner o).node k = s.node k := rfl
@[simp] theorem State.setOwner_isPresent (o : Option Context) (k : Fin 6) : (s.setOwner o).isPresent k = s.isPresent k := rfl

/-! ### setPort -/

@[simp] theorem State.setPort_pkt (p : List Request) : (s.setPort p).pkt = s.pkt := rfl
@[simp] theorem State.setPort_bus (p : List Request) : (s.setPort p).bus = s.bus := rfl
@[simp] theorem State.setPort_sch (p : List Request) : (s.setPort p).sch = s.sch := rfl
@[simp] theorem State.setPort_tl (p : List Request) : (s.setPort p).tl = s.tl := rfl
@[simp] theorem State.setPort_topo (p : List Request) : (s.setPort p).topo = s.topo := rfl
@[simp] theorem State.setPort_out (p : List Request) : (s.setPort p).out = s.out := rfl
@[simp] theorem State.setPort_mutexOwner (p : List Request) : (s.setPort p).mutexOwner = s.mutexOwner := rfl
@[simp] theorem State.setPort_cfg (p : List Request) : (s.setPort p).cfg = s.cfg := rfl
@[simp] theorem State.setPort_port (p : List Request) : (s.setPort p).port = p := rfl
@[simp] theorem State.setPort_result (p : List Request) : (s.setPort p).result = s.result := rfl
@[simp] theorem State.setPort_node (p : List Request) (k : Fin 6) : (s.setPort p).node k = s.node k := rfl
@[simp] theorem State.setPort_isPresent (p : List Request) (k : Fin 6) : (s.setPort p).isPresent k = s.isPresent k := rfl

/-! ### setNode -/

@[simp] theorem State.setNode_pkt (k : Fin 6) (n : Node) : (s.setNode k n).pkt = s.pkt := rfl
@[simp] theorem State.setNode_bus (k : Fin 6) (n : Node) : (s.setNode k n).bus = s.bus := rfl
@[simp] theorem State.setNode_sch (k : Fin 6) (n : Node) : (s.setNode k n).sch = s.sch := rfl
@[simp] theorem State.setNode_tl (k : Fin 6) (n : Node) : (s.setNode k n).tl = s.tl := rfl
@[simp] theorem State.setNode_topo (k : Fin 6) (n : Node) : (s.setNode k n).topo = ⟨s.topo.nodes.set k n⟩ := rfl
@[simp] theorem State.setNode_out (k : Fin 6) (n : Node) : (s.setNode k n).out = s.out := rfl
@[simp] theorem State.setNode_mutexOwner (k : Fin 6) (n : Node) : (s.setNode k n).mutexOwner = s.mutexOwner := rfl
@[simp] theorem State.setNode_cfg (k : Fin 6) (n : Node) : (s.setNode k n).cfg = s.cfg := rfl
@[simp] theorem State.setNode_port (k : Fin 6) (n : Node) : (s.setNode k n).port = s.port := rfl
@[simp] theorem State.setNode_result (k : Fin 6) (n : Node) : (s.setNode k n).result = s.result := rfl

/-! ### Nodes -/

/-- Reading a node after writing one. -/
theorem State.setNode_node (k j : Fin 6) (n : Node) : (s.setNode k n).node j = if j = k then n else s.node j := by
  unfold State.node State.setNode
  simp only [Fin.getElem_fin, Vector.getElem_set]
  by_cases h : j = k
  · simp [h]
  · have : ¬ (k : Nat) = j := fun e => h (Fin.ext e.symm)
    simp [h, this]

@[simp] theorem State.setNode_node_same (k : Fin 6) (n : Node) : (s.setNode k n).node k = n := by
  simp [State.setNode_node]

theorem State.setNode_node_other (k j : Fin 6) (n : Node) (h : j ≠ k) : (s.setNode k n).node j = s.node j := by
  simp [State.setNode_node, h]

/-- Presence after writing a node. -/
theorem State.setNode_isPresent (k j : Fin 6) (n : Node) :
    (s.setNode k n).isPresent j = if j = k then (j == 0 || n.present) else s.isPresent j := by
  unfold State.isPresent
  rw [State.setNode_node]
  by_cases h : j = k <;> simp [h]

/-- The Main Node is always present (rule R41). -/
@[simp] theorem State.isPresent_zero : s.isPresent 0 = true := rfl

theorem State.isPresent_sub (k : Fin 6) (h : k ≠ 0) : s.isPresent k = (s.node k).present := by
  simp [State.isPresent, h]

/-- Two updates of one kind in a row: the later one stands. -/
@[simp] theorem State.respond_respond (r q : Result) : (s.respond r).respond q = s.respond q := rfl

/-! ### Refusals and callbacks -/

/-- A refused operation changes nothing but the result (rules R274, R277). -/
theorem refuse_eq : refuse s = { s with result := .constructionError } := rfl

/-- Everything `deliver` does (rule R224): it appends one event. -/
theorem deliver_eq (h : Handle) (c : Callback) :
    deliver h c s = s.emit (if resolves s h then .callback c else .dropped c) := rfl

end Sys2Proof.Machine
end

