-- ==== Sys2Proof/Laws/Bus.lean ====
section
/-! SUPPORT. The bus unit's stages and operations: what each does in each phase, what it never writes (rules R174 to
R182). -/

namespace Sys2Proof.Machine

/-! ### WRITE (rule R174) -/

theorem writeAccepts_iff (p : Packet) (w : WriteOperands) (s : State) : writeAccepts p w s = true ↔
    s.bus.phase = .idle ∧ w.lineOpen = true ∧ isValid s.cfg p = true := by
  simp [writeAccepts, and_assoc]

theorem busWrite_of_accepts {p : Packet} {w : WriteOperands} {s : State} (h : writeAccepts p w s = true) :
    busWrite p w s = (true, (s.setBus (startedBus p w s)).emit (.wire (startedBus p w s).txBytes)) := by
  simp [busWrite, h]

theorem busWrite_of_refuses {p : Packet} {w : WriteOperands} {s : State} (h : writeAccepts p w s = false) :
    busWrite p w s = (false, s) := by
  simp [busWrite, h]

/-- `WRITE` starts the bus and hands out the bytes, or does nothing. -/
theorem busWrite_cases (p : Packet) (w : WriteOperands) (s : State) :
    (writeAccepts p w s = true ∧
      busWrite p w s = (true, (s.setBus (startedBus p w s)).emit (.wire (startedBus p w s).txBytes))) ∨
    (writeAccepts p w s = false ∧ busWrite p w s = (false, s)) := by
  cases h : writeAccepts p w s
  · exact .inr ⟨rfl, busWrite_of_refuses h⟩
  · exact .inl ⟨rfl, busWrite_of_accepts h⟩

@[simp] theorem startedBus_phase (p : Packet) (w : WriteOperands) (s : State) :
    (startedBus p w s).phase = .writeInProgress := rfl

@[simp] theorem startedBus_txPacket (p : Packet) (w : WriteOperands) (s : State) :
    (startedBus p w s).txPacket = some (setSender p (busAddr s.cfg)) := rfl

@[simp] theorem startedBus_txBytes (p : Packet) (w : WriteOperands) (s : State) :
    (startedBus p w s).txBytes = packetBytes (setSender p (busAddr s.cfg)) := rfl

/-! ### The stages in a phase that is not theirs -/

theorem stageW_of_ne {b : Bus} (h : b.phase ≠ .writeInProgress) (now : Nat) (ev : LineEvents) : stageW now ev b = b := by
  simp [stageW, h]

theorem stageA_of_ne {b : Bus} (h : b.phase ≠ .readArmed) (now : Nat) (ev : LineEvents) : stageA now ev b = b := by
  simp [stageA, h]

theorem stageR_of_ne {b : Bus} (h : b.phase ≠ .readInProgress) (cfg : Config) (now : Nat) (ev : LineEvents) :
    stageR cfg now ev b = b := by
  simp [stageR, h]

/-! ### The stages in their own phase -/

theorem stageW_eq {b : Bus} (h : b.phase = .writeInProgress) (now : Nat) (ev : LineEvents) : stageW now ev b =
    if ev.contention then busFail .writeFailed .contention b
    else if ev.txDone then
      if b.expectResponse then { b with phase := .readArmed, tArmed := now } else { b with phase := .writeComplete }
    else if b.writeDeadline < now then busFail .writeFailed .timeout b
    else b := by
  simp [stageW, h]

theorem stageA_eq {b : Bus} (h : b.phase = .readArmed) (now : Nat) (ev : LineEvents) : stageA now ev b =
    if ev.rxStarted || ev.rxFrame.isSome || ev.rxOverflow then { b with phase := .readInProgress, tReadStart := now }
    else if b.tArmed + b.readTimeoutUs < now then busFail .readFailed .timeout b
    else b := by
  simp [stageA, h]

/-- Stage R: an overflow, an accepted frame, a rejected frame, a timeout, or nothing. -/
theorem stageR_eq {b : Bus} (h : b.phase = .readInProgress) (cfg : Config) (now : Nat) (ev : LineEvents) :
    stageR cfg now ev b =
      if ev.rxOverflow then busFail .readFailed .overflow b
      else match ev.rxFrame with
        | some f =>
          match validateRx cfg f with
          | .ok p => { b with readBuffer := some p, phase := .readComplete }
          | .error r => busFail .readFailed r b
        | none => if b.tReadStart + cfg.frameReadTimeoutUs < now then busFail .readFailed .timeout b else b :=
  if_pos h

/-! ### Read validation (rule R180) -/

/-- Read validation accepts exactly the well-framed bytes of a valid packet that fit the buffer. -/
theorem validateRx_ok_iff (cfg : Config) (f : RxFrame) (p : Packet) : validateRx cfg f = .ok p ↔
    f.bytes.length ≤ cfg.rxBufferBytes ∧ f.startOk = true ∧ f.endOk = true ∧ decodeBytes cfg f.bytes = .ok p := by
  unfold validateRx
  split
  · rename_i h; constructor
    · intro e; cases e
    · intro e; omega
  · rename_i h
    split
    · rename_i h'; constructor
      · intro e; cases e
      · rintro ⟨-, h1, h2, -⟩; rcases h' with h' | h'
        · rw [h1] at h'; cases h'
        · rw [h2] at h'; cases h'
    · rename_i h'
      simp only [not_or, Bool.not_eq_false] at h'
      split <;> rename_i e he
      · simp [he]
      · simp [he, h', Nat.le_of_not_lt h]

/-- A packet that read validation accepts is valid (rule R186 (c)). -/
theorem isValid_of_validateRx {cfg : Config} {f : RxFrame} {p : Packet} (h : validateRx cfg f = .ok p) :
    isValid cfg p = true := (decodeBytes_ok ((validateRx_ok_iff cfg f p).mp h).2.2.2).1

/-- The reasons a frame is rejected for are three. -/
theorem validateRx_error {cfg : Config} {f : RxFrame} {r : Reason} (h : validateRx cfg f = .error r) :
    r = .overflow ∨ r = .framingInvalid ∨ r = .crcInvalid := by
  unfold validateRx at h
  split at h
  · cases h; exact .inl rfl
  · split at h
    · cases h; exact .inr (.inl rfl)
    · split at h
      · rename_i e _; cases h; cases e <;> simp [FramingError.reason]
      · cases h

/-! ### What a poll leaves alone -/

/-- No stage writes what `WRITE` stored (rule R27), except that stage T clears the packet. -/
structure KeepsWrite (b b' : Bus) : Prop where
  txPacket       : b'.txPacket = b.txPacket
  txBytes        : b'.txBytes = b.txBytes
  expectResponse : b'.expectResponse = b.expectResponse
  readTimeoutUs  : b'.readTimeoutUs = b.readTimeoutUs
  tWriteStart    : b'.tWriteStart = b.tWriteStart
  writeDeadline  : b'.writeDeadline = b.writeDeadline

theorem KeepsWrite.refl (b : Bus) : KeepsWrite b b := ⟨rfl, rfl, rfl, rfl, rfl, rfl⟩

theorem KeepsWrite.trans {a b c : Bus} (h : KeepsWrite a b) (h' : KeepsWrite b c) : KeepsWrite a c :=
  ⟨h'.1.trans h.1, h'.2.trans h.2, h'.3.trans h.3, h'.4.trans h.4, h'.5.trans h.5, h'.6.trans h.6⟩

theorem stageW_keeps (now : Nat) (ev : LineEvents) (b : Bus) : KeepsWrite b (stageW now ev b) := by
  unfold stageW busFail; split
  · split
    · exact ⟨rfl, rfl, rfl, rfl, rfl, rfl⟩
    · split
      · split <;> exact ⟨rfl, rfl, rfl, rfl, rfl, rfl⟩
      · split <;> exact ⟨rfl, rfl, rfl, rfl, rfl, rfl⟩
  · exact .refl b

theorem stageA_keeps (now : Nat) (ev : LineEvents) (b : Bus) : KeepsWrite b (stageA now ev b) := by
  unfold stageA busFail; split
  · split
    · exact ⟨rfl, rfl, rfl, rfl, rfl, rfl⟩
    · split <;> exact ⟨rfl, rfl, rfl, rfl, rfl, rfl⟩
  · exact .refl b

theorem stageR_keeps (cfg : Config) (now : Nat) (ev : LineEvents) (b : Bus) : KeepsWrite b (stageR cfg now ev b) := by
  unfold stageR busFail; split
  · split
    · exact ⟨rfl, rfl, rfl, rfl, rfl, rfl⟩
    · split
      · split <;> exact ⟨rfl, rfl, rfl, rfl, rfl, rfl⟩
      · split <;> exact ⟨rfl, rfl, rfl, rfl, rfl, rfl⟩
  · exact .refl b

theorem polledBus_keeps (cfg : Config) (now : Nat) (ev : LineEvents) (b : Bus) : KeepsWrite b (polledBus cfg now ev b) :=
  ((stageW_keeps now ev b).trans (stageA_keeps now ev _)).trans (stageR_keeps cfg now ev _)

/-! ### A poll by phase (rules R175, R183) -/

theorem polledBus_idle {b : Bus} (h : b.phase = .idle) (cfg : Config) (now : Nat) (ev : LineEvents) :
    polledBus cfg now ev b = b := by
  rw [polledBus, stageW_of_ne (by rw [h]; decide), stageA_of_ne (by rw [h]; decide), stageR_of_ne (by rw [h]; decide)]

theorem polledBus_readInProgress {b : Bus} (h : b.phase = .readInProgress) (cfg : Config) (now : Nat) (ev : LineEvents) :
    polledBus cfg now ev b = stageR cfg now ev b := by
  rw [polledBus, stageW_of_ne (by rw [h]; decide), stageA_of_ne (by rw [h]; decide)]

theorem polledBus_readArmed {b : Bus} (h : b.phase = .readArmed) (cfg : Config) (now : Nat) (ev : LineEvents) :
    polledBus cfg now ev b =
      if ev.rxStarted || ev.rxFrame.isSome || ev.rxOverflow then
        stageR cfg now ev { b with phase := .readInProgress, tReadStart := now }
      else if b.tArmed + b.readTimeoutUs < now then busFail .readFailed .timeout b
      else b := by
  rw [polledBus, stageW_of_ne (by rw [h]; decide), stageA_eq h]
  split
  · rfl
  · split
    · exact stageR_of_ne (by simp [busFail]) ..
    · exact stageR_of_ne (by rw [h]; decide) ..

theorem polledBus_writeInProgress {b : Bus} (h : b.phase = .writeInProgress) (cfg : Config) (now : Nat) (ev : LineEvents) :
    polledBus cfg now ev b =
      if ev.contention then busFail .writeFailed .contention b
      else if ev.txDone then
        if b.expectResponse then polledBus cfg now ev { b with phase := .readArmed, tArmed := now }
        else { b with phase := .writeComplete }
      else if b.writeDeadline < now then busFail .writeFailed .timeout b
      else b := by
  have rest : ∀ c : Bus, c.phase ≠ .readArmed → c.phase ≠ .readInProgress → stageR cfg now ev (stageA now ev c) = c :=
    fun c h1 h2 => by rw [stageA_of_ne h1, stageR_of_ne h2]
  rw [polledBus, stageW_eq h]
  split
  · exact rest _ (by simp [busFail]) (by simp [busFail])
  · split
    · split
      · rw [polledBus, stageW_of_ne (by simp)]
      · exact rest _ (by simp) (by simp)
    · split
      · exact rest _ (by simp [busFail]) (by simp [busFail])
      · exact rest _ (by rw [h]; decide) (by rw [h]; decide)

/-! ### Stage T (rule R182) -/

/-- A freed bus is in no terminal phase. -/
theorem freeBus_not_terminal (b : Bus) : (freeBus b).phase.isTerminal = false := by
  unfold freeBus; split
  · rfl
  · rename_i h; simpa using h

theorem freeBus_of_terminal {b : Bus} (h : b.phase.isTerminal = true) :
    freeBus b = { b with phase := .idle, txPacket := none } := by simp [freeBus, h]

theorem freeBus_of_not_terminal {b : Bus} (h : b.phase.isTerminal = false) : freeBus b = b := by simp [freeBus, h]

@[simp] theorem statusOf_phase (b : Bus) : (statusOf b).phase = b.phase := rfl

@[simp] theorem processEvents_snd (now : Nat) (ev : LineEvents) (s : State) :
    (processEvents now ev s).2 = s.setBus (freeBus (polledBus s.cfg now ev s.bus)) := rfl

@[simp] theorem processEvents_fst (now : Nat) (ev : LineEvents) (s : State) :
    (processEvents now ev s).1 = statusOf (polledBus s.cfg now ev s.bus) := rfl

end Sys2Proof.Machine
end

