-- ==== Sys2Proof/Laws/Codec.lean ====
section
/-! SUPPORT. Each operand reader reads back what its writer wrote, and whatever a reader reads fits its field. The
whole-instruction statements are for the provers; they follow by citing these. -/

namespace Sys2Proof

/-! ### Readers that read back what was written -/

/-- The reader `p` reads exactly the bytes `xs`, whatever stands after them, and answers `a`. -/
def Reads (p : Parser α) (xs : List Byte) (a : α) : Prop := ∀ rest, p (xs ++ rest) = some (a, rest)

theorem reads_takeNone (a : α) : Reads (takeNone a) [] a := fun _ => rfl

theorem reads_takeByte (b : Byte) : Reads takeByte [b] b := fun _ => rfl

theorem reads_mapP {p : Parser α} {xs : List Byte} {a : α} (h : Reads p xs a) (f : α → β) :
    Reads (mapP p f) xs (f a) := fun rest => by simp [mapP, h rest]

theorem reads_thenP {p : Parser α} {q : α → Parser β} {xs ys : List Byte} {a : α} {b : β} (h : Reads p xs a)
    (hq : Reads (q a) ys b) : Reads (thenP p q) (xs ++ ys) b := fun rest => by
  simp only [thenP, List.append_assoc, h (ys ++ rest), hq rest]

/-- The same with one byte in front, the form in which tags and select codes are written. -/
theorem reads_takeByte_thenP {q : Byte → Parser β} {ys : List Byte} {x : Byte} {b : β} (hq : Reads (q x) ys b) :
    Reads (thenP takeByte q) (x :: ys) b := fun rest => by simp [thenP, takeByte, hq rest]

theorem reads_takeNat (n v : Nat) (h : v < 256 ^ n) : Reads (takeNat n) (leBytes n v) v := by
  induction n generalizing v with
  | zero => intro rest; simp at h; simp [takeNat, leBytes, h]
  | succ n ih =>
    intro rest
    have hv : v / 256 < 256 ^ n := Nat.div_lt_of_lt_mul (by rw [Nat.pow_succ] at h; omega)
    simp only [leBytes, List.cons_append, takeNat, ih _ hv rest, BitVec.toNat_ofNat]
    congr 2; omega

theorem reads_takeBool (b : Bool) : Reads takeBool (putBool b) b := by intro rest; cases b <;> rfl

theorem reads_takeTime (t : Nat) (h : wfTime t = true) : Reads takeTime (putTime t) t :=
  reads_takeNat 8 t (by simpa [wfTime] using h)

theorem reads_takeId (n : Nat) (h : wfId n = true) : Reads takeId (putId n) n :=
  reads_takeNat 4 n (by simpa [wfId] using h)

theorem reads_takeCount (n : Nat) (h : wfCount n = true) : Reads (takeNat 2) (leBytes 2 n) n :=
  reads_takeNat 2 n (by simpa [wfCount] using h)

theorem reads_takeWord (w : Word) : Reads takeWord (wordBytes w) w := by
  have h := reads_mapP (reads_takeNat 4 w.toNat (by have := w.isLt; omega)) (BitVec.ofNat 32)
  simpa [takeWord, wordBytes] using h

theorem reads_takeList {p : Parser α} {put : α → List Byte} (h : ∀ a, Reads p (put a) a) (as : List α) :
    Reads (takeList p as.length) (as.flatMap put) as := by
  induction as with
  | nil => exact reads_takeNone []
  | cons a as ih => exact reads_thenP (h a) (reads_mapP ih (a :: ·))

theorem reads_takeListWord (ws : List Word) : Reads (takeList takeWord ws.length) (wordsBytes ws) ws :=
  reads_takeList reads_takeWord ws

theorem reads_takeWords (ws : List Word) (h : wfCount ws.length = true) : Reads takeWords (putWords ws) ws :=
  reads_thenP (reads_takeCount _ h) (reads_takeListWord ws)

theorem reads_takeBytes (bs : List Byte) (h : wfBytes bs = true) : Reads takeBytes (putBytes bs) bs := by
  have hl := reads_takeList reads_takeByte bs
  rw [List.flatMap_singleton' bs] at hl
  exact reads_thenP (reads_takeCount _ h) hl

theorem reads_takePacket (p : Packet) (h : wfPacket p = true) : Reads takePacket (putPacket p) p :=
  reads_thenP (reads_takeWord _) (reads_mapP (reads_takeWords _ h) (Packet.mk p.frameWord))

theorem reads_takeOption {p : Parser α} {put : α → List Byte} {o : Option α} (h : ∀ a, o = some a → Reads p (put a) a) :
    Reads (takeOption p) (putOption put o) o := by
  cases o with
  | none => intro rest; rfl
  | some a =>
    intro rest
    have := h a rfl rest
    simp [takeOption, putOption, thenP, takeBool, takeByte, takeNone, mapP, this]

theorem reads_takeOptTime {o : Option Nat} (h : wfOptTime o = true) : Reads (takeOption takeTime) (putOption putTime o) o :=
  reads_takeOption fun t e => reads_takeTime t (by subst e; exact h)

theorem nodeOfByte_ofNat (k : Fin 6) : nodeOfByte (BitVec.ofNat 8 k.val) = some k := by
  revert k; decide

theorem reads_takeNode (k : Fin 6) : Reads takeNode [BitVec.ofNat 8 k.val] k := by
  intro rest; simp [takeNode, thenP, takeByte, nodeOfByte_ofNat, takeNone]

theorem reads_takeHandle (h : Handle) (hw : wfHandle h = true) : Reads takeHandle (putHandle h) h := by
  cases h with
  | node k => exact reads_takeByte_thenP (reads_mapP (reads_takeNode k) Handle.node)
  | func k code =>
    exact reads_takeByte_thenP (reads_thenP (reads_takeNode k) (reads_mapP (reads_takeWord code) (Handle.func k)))
  | ext n =>
    exact reads_takeByte_thenP (reads_mapP (reads_takeNat 8 n (by simpa [wfHandle] using hw)) Handle.ext)

theorem reads_takeContext (c : Context) : Reads takeContext (putContext c) c := by intro rest; cases c <;> rfl

theorem reads_takeTransmission (t : Transmission) (h : wfTransmission t = true) :
    Reads takeTransmission (putTransmission t) t := by
  simp only [wfTransmission, Bool.and_eq_true] at h
  obtain ⟨⟨⟨⟨⟨⟨⟨⟨h1, h2⟩, h3⟩, h4⟩, h5⟩, h6⟩, h7⟩, h8⟩, h9⟩ := h
  exact reads_thenP (reads_takeId _ h1) <| reads_thenP (reads_takeByte _) <| reads_thenP (reads_takeBool _) <|
    reads_thenP (reads_takeCount _ h2) <| reads_thenP (reads_takeTime _ h3) <| reads_thenP (reads_takeTime _ h4) <|
    reads_thenP (reads_takeOptTime h5) <| reads_thenP (reads_takeTime _ h6) <| reads_thenP (reads_takeTime _ h7) <|
    reads_thenP (reads_takePacket _ h8) <| reads_mapP (reads_takeHandle _ h9) _

theorem reads_takeRxFrame (f : RxFrame) (h : wfBytes f.bytes = true) : Reads takeRxFrame (putRxFrame f) f :=
  reads_thenP (reads_takeBytes _ h) <| reads_thenP (reads_takeBool _) <| reads_mapP (reads_takeBool _) _

theorem reads_takeEvents (ev : LineEvents) (h : wfEvents ev = true) : Reads takeEvents (putEvents ev) ev :=
  reads_thenP (reads_takeBool _) <| reads_thenP (reads_takeBool _) <| reads_thenP (reads_takeBool _) <|
    reads_thenP (reads_takeOption fun f e => reads_takeRxFrame f (by
      simpa [wfEvents, wfRxFrame, e] using h)) <| reads_mapP (reads_takeBool _) _

theorem reads_takeWriteOperands (w : WriteOperands) (h : wfWriteOperands w = true) :
    Reads takeWriteOperands (putWriteOperands w) w := by
  simp only [wfWriteOperands, Bool.and_eq_true] at h
  exact reads_thenP (reads_takeBool _) <| reads_thenP (reads_takeTime _ h.1) <| reads_thenP (reads_takeTime _ h.2) <|
    reads_mapP (reads_takeBool _) _

/-! ### ADD's trailing operands: they end the request, so nothing stands after them -/

theorem takeOr_nil (d : α) (p : Parser α) : takeOr d p [] = some (d, []) := rfl

theorem takeOr_reads {d a : α} {p : Parser α} {xs : List Byte} (h : Reads p xs a) (hx : xs ≠ []) (rest : List Byte) :
    takeOr d p (xs ++ rest) = some (a, rest) := by
  cases xs with
  | nil => exact absurd rfl hx
  | cons x xs => exact h rest

theorem takeAddTail_put (build : Nat → Option Nat → Option Nat → Handle → AddOperands) (a : AddOperands)
    (h : wfAddOperands a = true)
    (hb : build a.autoRepeatUs a.readTimeoutUs a.autoRepeatEndUs a.transmitter = a) :
    takeAddTail build (putAddTail a) = some (a, []) := by
  simp only [wfAddOperands, Bool.and_eq_true, Bool.or_eq_true] at h
  obtain ⟨⟨⟨⟨⟨⟨-, -⟩, h3⟩, h4⟩, h5⟩, h6⟩, h7⟩ := h
  have hn : ∀ t, putTime t ≠ [] := fun t => by simp [putTime, leBytes]
  have e1 := fun rest => takeOr_reads (d := 0) (reads_takeTime _ h3) (hn _) rest
  unfold takeAddTail putAddTail
  cases hr : a.readTimeoutUs with
  | none =>
    rw [hr] at h7 hb
    simp only [Option.isSome_none, Bool.false_eq_true, Option.isNone_iff_eq_none, beq_iff_eq, false_or] at h7
    rw [h7.1, h7.2] at hb
    simp only [thenP, mapP, e1, takeOr_nil, hb]
  | some t =>
    rw [hr] at h4 hb
    have e2 := fun rest => takeOr_reads (d := none) (reads_mapP (reads_takeTime t h4) some) (hn _) rest
    have e3 := fun rest => takeOr_reads (d := none) (reads_takeOptTime h5)
      (by cases a.autoRepeatEndUs <;> simp [putOption]) rest
    have e4 := takeOr_reads (d := Handle.ext 0) (reads_takeHandle _ h6)
      (by cases a.transmitter <;> simp [putHandle]) []
    rw [List.append_nil] at e4
    simp only [thenP, mapP, e1] at *
    simp only [e2, e3, e4, hb]

theorem takeAdd_put (p : Packet) (a : AddOperands) (hp : wfPacket p = true) (h : wfAddOperands a = true) :
    takeAdd (putAdd p a) = some ((p, a), []) := by
  have h' := h
  simp only [wfAddOperands, Bool.and_eq_true] at h'
  have ht := takeAddTail_put (AddOperands.mk a.priority a.scheduledTimeUs a.expectResponse a.expectedResponseWords)
    a h rfl
  have e1 := reads_takeByte a.priority
  have e2 := reads_takeTime _ h'.1.1.1.1.1.1
  have e3 := reads_takePacket p hp
  have e4 := reads_takeBool a.expectResponse
  have e5 := reads_takeCount _ h'.1.1.1.1.1.2
  unfold takeAdd putAdd
  simp only [thenP, mapP, e1 _, e2 _, e3 _, e4 _, e5 _, ht]

theorem takeAddOperands_put (a : AddOperands) (h : wfAddOperands a = true) :
    takeAddOperands (putAddOperands a) = some (a, []) := by
  have h' := h
  simp only [wfAddOperands, Bool.and_eq_true] at h'
  have ht := takeAddTail_put (AddOperands.mk a.priority a.scheduledTimeUs a.expectResponse a.expectedResponseWords)
    a h rfl
  have e1 := reads_takeByte a.priority
  have e2 := reads_takeTime _ h'.1.1.1.1.1.1
  have e4 := reads_takeBool a.expectResponse
  have e5 := reads_takeCount _ h'.1.1.1.1.1.2
  unfold takeAddOperands putAddOperands
  simp only [thenP, e1 _, e2 _, e4 _, e5 _, ht]

theorem takePassage_put (v : Passage) (h : wfPassage v = true) : takePassage (putPassage v) = some (v, []) := by
  have ends : ∀ {p : Parser Passage} {xs : List Byte}, Reads p xs v → p xs = some (v, []) := fun hr => by
    have := hr []; rwa [List.append_nil] at this
  cases v with
  | nodeTask now lineOpen =>
    exact ends (reads_takeByte_thenP (reads_thenP (reads_takeTime _ h) (reads_mapP (reads_takeBool _) _)))
  | readTask now => exact ends (reads_takeByte_thenP (reads_mapP (reads_takeTime _ h) _))
  | processEvents now => exact ends (reads_takeByte_thenP (reads_mapP (reads_takeTime _ h) _))
  | txComplete k t =>
    exact ends (reads_takeByte_thenP (reads_takeByte_thenP (reads_mapP (reads_takeTransmission _ h) _)))
  | add a => simp [takePassage, putPassage, thenP, takeByte, mapP, takeAddOperands_put a h]
  | write w => exact ends (reads_takeByte_thenP (reads_mapP (reads_takeWriteOperands _ h) _))

/-- A packet with its passage reads back, its fields in their places. -/
theorem takeFrame_put (command recipient sender count : Byte) (payload : List Word) (via : Passage)
    (h : wfFrame count payload via = true) :
    takeFrame (count :: sender :: recipient :: command :: (wordsBytes payload ++ putPassage via)) =
      some ((command, recipient, sender, count, payload, via), []) := by
  simp only [wfFrame, Bool.and_eq_true, beq_iff_eq] at h
  have hw := reads_takeListWord payload (putPassage via)
  rw [h.1] at hw
  simp [takeFrame, thenP, takeByte, mapP, hw, takePassage_put via h.2]

/-- An operation request decodes to what the reader of its select code reads. -/
theorem decodeOp_reads {c : Byte} {p : Parser Instr} {xs : List Byte} {i : Instr} (hp : operandsOf c.toNat = some p)
    (h : Reads p xs i) : decodeOp (c :: xs) = .ok i := by
  have := h []
  rw [List.append_nil] at this
  simp [decodeOp, hp, this]

/-- A packet of format `FRAME` decodes to the instruction of its command code. -/
theorem decode_putFrame (command recipient sender count : Byte) (payload : List Word) (via : Passage) (i : Instr)
    (h : wfFrame count payload via = true)
    (hi : frameInstr command.toNat recipient sender count payload via = some i) :
    decode (putFrame command recipient sender count payload via) = .ok i := by
  simp [decode, putFrame, decodeFrame, takeFrame_put _ _ _ _ _ _ h, hi]

/-! ### Whatever a reader reads fits its field -/

/-- Every value that `p` reads satisfies `Q`. -/
def Yields (p : Parser α) (Q : α → Prop) : Prop := ∀ bs a rest, p bs = some (a, rest) → Q a

theorem yields_true (p : Parser α) : Yields p fun _ => True := fun _ _ _ _ => trivial

theorem yields_takeNone {a : α} {Q : α → Prop} (h : Q a) : Yields (takeNone a) Q := fun _ _ _ e => by
  cases e; exact h

theorem yields_failP (Q : α → Prop) : Yields failP Q := fun _ _ _ e => by cases e

theorem yields_mapP {p : Parser α} {f : α → β} {P : α → Prop} {Q : β → Prop} (h : Yields p P)
    (hf : ∀ a, P a → Q (f a)) : Yields (mapP p f) Q := by
  intro bs b rest e
  simp only [mapP] at e
  split at e
  · cases e
  · rename_i a r he; cases e; exact hf a (h _ _ _ he)

theorem yields_thenP {p : Parser α} {q : α → Parser β} {P : α → Prop} {Q : β → Prop} (h : Yields p P)
    (hq : ∀ a, P a → Yields (q a) Q) : Yields (thenP p q) Q := by
  intro bs b rest e
  simp only [thenP] at e
  split at e
  · cases e
  · rename_i a r he; exact hq a (h _ _ _ he) _ _ _ e

theorem yields_takeNat (n : Nat) : Yields (takeNat n) fun v => v < 256 ^ n := by
  induction n with
  | zero => intro bs v rest e; simp [takeNat] at e; simp [← e.1]
  | succ n ih =>
    intro bs v rest e
    cases bs with
    | nil => simp [takeNat] at e
    | cons b bs =>
      simp only [takeNat] at e
      split at e
      · cases e
      · rename_i u r he
        cases e
        have h1 := ih _ _ _ he
        have := b.isLt
        simp only at h1
        show b.toNat + 256 * u < 256 ^ (n + 1)
        rw [Nat.pow_succ]; omega

theorem yields_takeTime : Yields takeTime fun t => wfTime t = true := fun _ _ _ e => by
  have := yields_takeNat 8 _ _ _ e; simpa [wfTime] using this

theorem yields_takeId : Yields takeId fun t => wfId t = true := fun _ _ _ e => by
  have := yields_takeNat 4 _ _ _ e; simpa [wfId] using this

theorem yields_takeCount : Yields (takeNat 2) fun t => wfCount t = true := fun _ _ _ e => by
  have := yields_takeNat 2 _ _ _ e; simpa [wfCount] using this

theorem yields_takeList (p : Parser α) (n : Nat) : Yields (takeList p n) fun as => as.length = n := by
  induction n with
  | zero => exact yields_takeNone rfl
  | succ n ih => exact yields_thenP (yields_true p) fun a _ => yields_mapP ih fun as h => by simp [h]

theorem yields_takeWords : Yields takeWords fun ws => wfCount ws.length = true :=
  yields_thenP yields_takeCount fun n hn bs ws rest e => by rw [yields_takeList _ _ _ _ _ e]; exact hn

theorem yields_takeBytes : Yields takeBytes fun bs => wfBytes bs = true :=
  yields_thenP yields_takeCount fun n hn bs ws rest e => by
    unfold wfBytes; rw [yields_takeList _ _ _ _ _ e]; exact hn

theorem yields_takePacket : Yields takePacket fun p => wfPacket p = true :=
  yields_thenP (yields_true _) fun _ _ => yields_mapP yields_takeWords fun _ h => h

theorem yields_takeOption {p : Parser α} {Q : α → Prop} (h : Yields p Q) :
    Yields (takeOption p) fun o => ∀ a, o = some a → Q a :=
  yields_thenP (yields_true _) fun b _ => by
    cases b
    · exact yields_takeNone fun _ e => by cases e
    · exact yields_mapP h fun a ha _ e => by cases e; exact ha

theorem yields_takeOptTime : Yields (takeOption takeTime) fun o => wfOptTime o = true := fun bs o rest e => by
  have := yields_takeOption yields_takeTime bs o rest e
  cases o with
  | none => rfl
  | some t => exact this t rfl

theorem yields_takeHandle : Yields takeHandle fun h => wfHandle h = true :=
  yields_thenP (yields_true _) fun tag _ => by
    split
    · exact yields_mapP (yields_true _) fun _ _ => rfl
    · exact yields_thenP (yields_true _) fun _ _ => yields_mapP (yields_true _) fun _ _ => rfl
    · exact yields_mapP (yields_takeNat 8) fun n h => by simpa [wfHandle] using h
    · exact yields_failP _

theorem yields_takeTransmission : Yields takeTransmission fun t => wfTransmission t = true :=
  yields_thenP yields_takeId fun _ h1 => yields_thenP (yields_true _) fun _ _ => yields_thenP (yields_true _) fun _ _ =>
  yields_thenP yields_takeCount fun _ h2 => yields_thenP yields_takeTime fun _ h3 =>
  yields_thenP yields_takeTime fun _ h4 => yields_thenP yields_takeOptTime fun _ h5 =>
  yields_thenP yields_takeTime fun _ h6 => yields_thenP yields_takeTime fun _ h7 =>
  yields_thenP yields_takePacket fun _ h8 => yields_mapP yields_takeHandle fun _ h9 => by
    simp [wfTransmission, h1, h2, h3, h4, h5, h6, h7, h8, h9]

theorem yields_takeEvents : Yields takeEvents fun ev => wfEvents ev = true :=
  yields_thenP (yields_true _) fun _ _ => yields_thenP (yields_true _) fun _ _ => yields_thenP (yields_true _) fun _ _ =>
  yields_thenP (yields_takeOption (p := takeRxFrame) (Q := fun f => wfBytes f.bytes = true)
    (yields_thenP yields_takeBytes fun _ h => yields_thenP (yields_true _) fun _ _ =>
      yields_mapP (yields_true _) fun _ _ => h)) fun f h =>
  yields_mapP (yields_true _) fun _ _ => by
    cases f with
    | none => rfl
    | some f => exact h f rfl

theorem yields_takeWriteOperands : Yields takeWriteOperands fun w => wfWriteOperands w = true :=
  yields_thenP (yields_true _) fun _ _ => yields_thenP yields_takeTime fun _ h1 =>
  yields_thenP yields_takeTime fun _ h2 => yields_mapP (yields_true _) fun _ _ => by simp [wfWriteOperands, h1, h2]

theorem yields_takeOr {p : Parser α} {Q : α → Prop} {d : α} (hd : Q d) (h : Yields p Q) : Yields (takeOr d p) Q := by
  intro bs a rest e
  cases bs with
  | nil => cases e; exact hd
  | cons b bs => exact h _ _ _ e

/-- The trailing operands of `ADD` fit, and where the read timeout is omitted so is everything after it. -/
theorem yields_takeAddTail (build : Nat → Option Nat → Option Nat → Handle → AddOperands) :
    Yields (takeAddTail build) fun a => ∃ r t e h, a = build r t e h ∧ wfTime r = true ∧ wfOptTime t = true ∧
      wfOptTime e = true ∧ wfHandle h = true ∧ (t.isSome = true ∨ (e = none ∧ h = .ext 0)) := by
  have h1 : Yields (takeOr 0 takeTime) fun t => wfTime t = true := yields_takeOr (by decide) yields_takeTime
  have h2 : Yields (takeOr none (mapP takeTime some)) fun t => wfOptTime t = true :=
    yields_takeOr rfl (yields_mapP yields_takeTime fun _ h => h)
  have h3 : Yields (takeOr none (takeOption takeTime)) fun t => wfOptTime t = true :=
    yields_takeOr rfl yields_takeOptTime
  have h4 : Yields (takeOr (Handle.ext 0) takeHandle) fun t => wfHandle t = true :=
    yields_takeOr (by decide) yields_takeHandle
  intro bs a rest e
  simp only [takeAddTail, thenP, mapP] at e
  split at e
  · cases e
  · rename_i r b1 e1
    split at e
    · cases e
    · rename_i t b2 e2
      split at e
      · cases e
      · rename_i en b3 e3
        split at e
        · cases e
        · rename_i h b4 e4
          cases e
          refine ⟨r, t, en, h, rfl, h1 _ _ _ e1, h2 _ _ _ e2, h3 _ _ _ e3, h4 _ _ _ e4, ?_⟩
          cases t with
          | some t => exact .inl rfl
          | none =>
            right
            cases b1 with
            | nil => cases e2; cases e3; cases e4; exact ⟨rfl, rfl⟩
            | cons x xs =>
              simp only [takeOr, mapP] at e2
              split at e2 <;> cases e2

theorem wfAddOperands_of_tail {pr : Prio} {st : Nat} {er : Bool} {ws : Nat} {a : AddOperands} (h1 : wfTime st = true)
    (h2 : wfCount ws = true)
    (h : ∃ r t e h, a = AddOperands.mk pr st er ws r t e h ∧ wfTime r = true ∧ wfOptTime t = true ∧
      wfOptTime e = true ∧ wfHandle h = true ∧ (t.isSome = true ∨ (e = none ∧ h = .ext 0))) :
    wfAddOperands a = true := by
  obtain ⟨r, t, e, x, rfl, h3, h4, h5, h6, h7⟩ := h
  simp only [wfAddOperands, h1, h2, h3, h4, h5, h6, Bool.and_self, Bool.true_and, Bool.or_eq_true, Bool.and_eq_true,
    Option.isNone_iff_eq_none, beq_iff_eq]
  exact h7

theorem yields_takeAdd : Yields takeAdd fun x => wfPacket x.1 = true ∧ wfAddOperands x.2 = true :=
  yields_thenP (yields_true _) fun _ _ => yields_thenP yields_takeTime fun _ h1 =>
  yields_thenP yields_takePacket fun _ h2 => yields_thenP (yields_true _) fun _ _ =>
  yields_thenP yields_takeCount fun _ h3 => yields_mapP (yields_takeAddTail _) fun _ h =>
    ⟨h2, wfAddOperands_of_tail h1 h3 h⟩

theorem yields_takeAddOperands : Yields takeAddOperands fun a => wfAddOperands a = true :=
  yields_thenP (yields_true _) fun _ _ => yields_thenP yields_takeTime fun _ h1 =>
  yields_thenP (yields_true _) fun _ _ => yields_thenP yields_takeCount fun _ h3 => fun _ _ _ e =>
    wfAddOperands_of_tail h1 h3 (yields_takeAddTail _ _ _ _ e)

theorem yields_takePassage : Yields takePassage fun v => wfPassage v = true :=
  yields_thenP (yields_true _) fun tag _ => by
    split
    · exact yields_thenP yields_takeTime fun _ h => yields_mapP (yields_true _) fun _ _ => h
    · exact yields_mapP yields_takeTime fun _ h => h
    · exact yields_mapP yields_takeTime fun _ h => h
    · exact yields_thenP (yields_true _) fun _ _ => yields_mapP yields_takeTransmission fun _ h => h
    · exact yields_mapP yields_takeAddOperands fun _ h => h
    · exact yields_mapP yields_takeWriteOperands fun _ h => h
    · exact yields_failP _

theorem yields_takeFrame :
    Yields takeFrame fun x => wfFrame x.2.2.2.1 x.2.2.2.2.1 x.2.2.2.2.2 = true :=
  yields_thenP (yields_true _) fun _ _ => yields_thenP (yields_true _) fun _ _ => yields_thenP (yields_true _) fun _ _ =>
  yields_thenP (yields_true _) fun _ _ => yields_thenP (yields_takeList _ _) fun _ h1 =>
  yields_mapP yields_takePassage fun _ h2 => by simp [wfFrame, h1, h2]

/-- Every instruction that the reader of a select code reads is well formed. -/
theorem yields_operandsOf (c : Nat) (p : Parser Instr) (h : operandsOf c = some p) : Yields p fun i => i.wf = true := by
  unfold operandsOf at h
  split at h <;> cases h
  all_goals first
    | exact yields_takeNone rfl
    | exact yields_mapP (yields_true _) fun _ _ => rfl
    | exact yields_thenP (yields_true _) fun _ _ => yields_mapP (yields_true _) fun _ _ => rfl
    | exact yields_mapP yields_takeBytes fun _ h => h
    | exact yields_mapP yields_takePacket fun _ h => h
    | exact yields_mapP yields_takeTime fun _ h => h
    | exact yields_mapP yields_takeId fun _ h => h
    | exact yields_mapP yields_takeAdd fun _ h => by simp [Instr.wf, h]
    | exact yields_thenP (yields_true _) fun _ _ => yields_thenP (yields_true _) fun _ _ =>
        yields_thenP (yields_true _) fun _ _ => yields_mapP yields_takeWords fun _ h => h
    | exact yields_thenP yields_takePacket fun _ h => yields_mapP (yields_true _) fun _ _ => h
    | exact yields_thenP yields_takePacket fun _ h => yields_mapP yields_takeWriteOperands fun _ h2 => by
        simp [Instr.wf, h, h2]
    | exact yields_thenP yields_takeId fun _ h => yields_mapP yields_takeTime fun _ h2 => by
        simp [Instr.wf, h, h2]
    | exact yields_thenP yields_takeTime fun _ h => yields_mapP yields_takeEvents fun _ h2 => by
        simp [Instr.wf, h, h2]
    | exact yields_thenP yields_takeTime fun _ h => yields_mapP (yields_true _) fun _ _ => by simp [Instr.wf, h]
    | exact yields_thenP yields_takeTime fun _ h => yields_thenP yields_takeEvents fun _ h2 =>
        yields_mapP (yields_true _) fun _ _ => by simp [Instr.wf, h, h2]
    | exact yields_thenP (yields_true _) fun _ _ => yields_mapP yields_takeTransmission fun _ h => h
    | exact yields_thenP (yields_true _) fun _ _ => yields_thenP (yields_true _) fun _ _ =>
        yields_thenP (yields_true _) fun _ _ => yields_mapP yields_takeTransmission fun _ h => h
    | exact yields_thenP (yields_true _) fun _ _ => yields_thenP (yields_takeOption yields_takePacket) fun o h1 =>
        yields_mapP yields_takeTransmission fun _ h => by
        cases o
        · simp [Instr.wf, h]
        · simp [Instr.wf, h, h1 _ rfl]

end Sys2Proof
end

