-- ==== Sys2Proof/Laws/Schedule.lean ====
section
/-! SUPPORT. The scheduler's shared operations: insertion by key (rule R142), the eligible entries and the one that is
peeked (rules R145 to R148), the schedule after a pop (rule R150) and after a cancellation (rules R151, R152). -/

namespace Sys2Proof.Machine

/-! ### Keys (rules R141, R142) -/

theorem keyLt_iff (x y : Transmission) : keyLt x y = true ↔
    x.nextTimeUs < y.nextTimeUs ∨ (x.nextTimeUs = y.nextTimeUs ∧ x.priority.toNat < y.priority.toNat) := by
  simp [keyLt]

theorem keyLt_false_iff (x y : Transmission) : keyLt x y = false ↔
    y.nextTimeUs < x.nextTimeUs ∨ (y.nextTimeUs = x.nextTimeUs ∧ y.priority.toNat ≤ x.priority.toNat) := by
  rw [← Bool.not_eq_true, keyLt_iff]; omega

theorem keyLt_asymm {x y : Transmission} (h : keyLt x y = true) : keyLt y x = false := by
  rw [keyLt_false_iff]; rw [keyLt_iff] at h; omega

/-- `Key(X) <= Key(Y)` is transitive (`keyLt y x = false` says it). -/
theorem keyLe_trans {x y z : Transmission} (h1 : keyLt y x = false) (h2 : keyLt z y = false) : keyLt z x = false := by
  rw [keyLt_false_iff] at *; omega

/-! ### Insert (rule R142) -/

/-- Insertion puts the entry behind every entry whose key is less than or equal to its own. -/
theorem insertTx_insertedAt (t : Transmission) (l : List Transmission) : InsertedAt t l (insertTx t l) := by
  induction l with
  | nil => exact ⟨0, by simp, rfl, by simp, by simp⟩
  | cons x xs ih =>
    simp only [insertTx]
    split
    · rename_i h
      exact ⟨0, by simp, rfl, by simp, fun y e => by simp only [List.getElem?_cons_zero, Option.some.injEq] at e; rwa [← e]⟩
    · rename_i h
      obtain ⟨k, hk, e, h1, h2⟩ := ih
      refine ⟨k + 1, by simpa using hk, by simp [e], ?_, fun y e => h2 y (by simpa using e)⟩
      intro y hy
      simp only [List.take_succ_cons, List.mem_cons] at hy
      rcases hy with rfl | hy
      · simpa using h
      · exact h1 y hy

/-- Insertion adds the one entry and keeps the others. -/
theorem insertTx_perm (t : Transmission) (l : List Transmission) : (insertTx t l).Perm (t :: l) := by
  induction l with
  | nil => exact List.Perm.refl _
  | cons x xs ih =>
    simp only [insertTx]
    split
    · exact List.Perm.refl _
    · exact (List.Perm.cons x ih).trans (List.Perm.swap t x xs)

@[simp] theorem mem_insertTx (x t : Transmission) (l : List Transmission) : x ∈ insertTx t l ↔ x = t ∨ x ∈ l := by
  rw [(insertTx_perm t l).mem_iff, List.mem_cons]

@[simp] theorem length_insertTx (t : Transmission) (l : List Transmission) : (insertTx t l).length = l.length + 1 :=
  (insertTx_perm t l).length_eq

/-- Insertion keeps the schedule sorted. -/
theorem insertTx_sorted (t : Transmission) (l : List Transmission) (h : l.Pairwise fun x y => keyLt y x = false) :
    (insertTx t l).Pairwise fun x y => keyLt y x = false := by
  induction l with
  | nil => simp [insertTx]
  | cons x xs ih =>
    rw [List.pairwise_cons] at h
    simp only [insertTx]
    split
    · rename_i hlt
      rw [List.pairwise_cons, List.pairwise_cons]
      refine ⟨fun y hy => ?_, h⟩
      rcases List.mem_cons.mp hy with rfl | hy
      · exact keyLt_asymm hlt
      · exact keyLe_trans (keyLt_asymm hlt) (h.1 y hy)
    · rename_i hlt
      rw [List.pairwise_cons]
      refine ⟨fun y hy => ?_, ih h.2⟩
      rcases (mem_insertTx _ _ _).mp hy with rfl | hy
      · simpa using hlt
      · exact h.1 y hy

/-! ### Eligibility and PEEKNEXT (rules R145 to R147) -/

theorem mayPass_iff (a b : Transmission) (now : Nat) : mayPass a b now = true ↔
    (now + a.durationUs < b.nextTimeUs ∨ (b.nextTimeUs ≤ now ∧ a.priority.toNat < b.priority.toNat)) := by
  simp [mayPass]

theorem eligible_iff (ahead : List Transmission) (a : Transmission) (now : Nat) : eligible ahead a now = true ↔
    a.nextTimeUs ≤ now ∧ ∀ b ∈ ahead, b.recipient ≠ a.recipient ∧
      (now + a.durationUs < b.nextTimeUs ∨ (b.nextTimeUs ≤ now ∧ a.priority.toNat < b.priority.toNat)) := by
  simp only [eligible, due, Bool.and_eq_true, decide_eq_true_eq, List.all_eq_true, bne_iff_ne, mayPass_iff]
  constructor
  · rintro ⟨⟨h1, h2⟩, h3⟩; exact ⟨h1, fun b hb => ⟨h2 b hb, h3 b hb⟩⟩
  · rintro ⟨h1, h2⟩; exact ⟨⟨h1, fun b hb => (h2 b hb).1⟩, fun b hb => (h2 b hb).2⟩

/-- Eligibility of a position is eligibility behind the entries before it. -/
theorem eligibleAt_iff (l : List Transmission) (now k : Nat) :
    EligibleAt l now k ↔ ∃ a, l[k]? = some a ∧ eligible (l.take k) a now = true := by
  simp only [EligibleAt, eligible_iff]
  constructor
  · rintro ⟨a, h1, h2, h3⟩
    refine ⟨a, h1, h2, fun b hb => ?_⟩
    obtain ⟨j, hj⟩ := List.mem_iff_getElem?.mp hb
    have hjk : j < k := by
      rcases Nat.lt_or_ge j k with h | h
      · exact h
      · simp [Nat.not_lt.mpr h] at hj
    rw [List.getElem?_take_of_lt hjk] at hj
    exact h3 j b hjk hj
  · rintro ⟨a, h1, h2, h3⟩
    refine ⟨a, h1, h2, fun j b hj hb => h3 b (List.mem_iff_getElem?.mpr ⟨j, ?_⟩)⟩
    rw [List.getElem?_take_of_lt hj]; exact hb

/-- The list of eligible entries is what the positions say, in their order: each stands at an eligible position. -/
theorem mem_eligibleEntries (now : Nat) (ahead l : List Transmission) (x : Transmission) :
    x ∈ eligibleEntries now ahead l ↔ ∃ k, l[k]? = some x ∧ eligible (ahead ++ l.take k) x now = true := by
  induction l generalizing ahead with
  | nil => simp [eligibleEntries]
  | cons a rest ih =>
    have step : (∃ k, (a :: rest)[k]? = some x ∧ eligible (ahead ++ (a :: rest).take k) x now = true) ↔
        (a = x ∧ eligible ahead x now = true) ∨
          ∃ k, rest[k]? = some x ∧ eligible (ahead ++ [a] ++ rest.take k) x now = true := by
      constructor
      · rintro ⟨k, h1, h2⟩
        cases k with
        | zero => left; exact ⟨by simpa using h1, by simpa using h2⟩
        | succ k => right; exact ⟨k, by simpa using h1, by simpa using h2⟩
      · rintro (⟨h1, h2⟩ | ⟨k, h1, h2⟩)
        · exact ⟨0, by simp [h1], by simpa using h2⟩
        · exact ⟨k + 1, by simpa using h1, by simpa using h2⟩
    rw [step, ← ih (ahead ++ [a])]
    simp only [eligibleEntries]
    split
    · rename_i h
      rw [List.mem_cons]
      constructor
      · rintro (rfl | h')
        · exact .inl ⟨rfl, h⟩
        · exact .inr h'
      · rintro (⟨rfl, -⟩ | h')
        · exact .inl rfl
        · exact .inr h'
    · rename_i h
      constructor
      · exact .inr
      · rintro (⟨rfl, h'⟩ | h')
        · exact absurd h' h
        · exact h'

/-- Every eligible position's entry is listed. -/
theorem mem_eligibleEntries_nil (now : Nat) (l : List Transmission) (x : Transmission) :
    x ∈ eligibleEntries now [] l ↔ ∃ k, l[k]? = some x ∧ EligibleAt l now k := by
  rw [mem_eligibleEntries]
  simp only [eligibleAt_iff, List.nil_append]
  constructor
  · rintro ⟨k, h1, h2⟩; exact ⟨k, h1, x, h1, h2⟩
  · rintro ⟨k, h1, a, h3, h4⟩
    rw [h1] at h3; cases h3; exact ⟨k, h1, h4⟩

theorem leastPriority_eq_none (l : List Transmission) : leastPriority l = none ↔ l = [] := by
  cases l with
  | nil => simp [leastPriority]
  | cons a rest => simp only [leastPriority]; split <;> simp; split <;> simp

theorem leastPriority_mem {l : List Transmission} {x : Transmission} (h : leastPriority l = some x) : x ∈ l := by
  induction l generalizing x with
  | nil => cases h
  | cons a rest ih =>
    simp only [leastPriority] at h
    split at h
    · cases h; exact List.mem_cons_self
    · rename_i b hb
      split at h <;> cases h
      · exact List.mem_cons_of_mem _ (ih hb)
      · exact List.mem_cons_self

/-- The least priority, and the first entry that has it. -/
theorem leastPriority_least {l : List Transmission} {x : Transmission} (h : leastPriority l = some x) :
    ∃ k, l[k]? = some x ∧ (∀ y ∈ l, x.priority.toNat ≤ y.priority.toNat) ∧
      ∀ (j : Nat) (y : Transmission), j < k → l[j]? = some y → x.priority.toNat < y.priority.toNat := by
  induction l generalizing x with
  | nil => cases h
  | cons a rest ih =>
    simp only [leastPriority] at h
    split at h
    · rename_i hn
      rw [leastPriority_eq_none] at hn
      cases h; subst hn
      exact ⟨0, rfl, by simp, by simp⟩
    · rename_i b hb
      obtain ⟨k, h1, h2, h3⟩ := ih hb
      split at h <;> rename_i hlt <;> cases h
      · refine ⟨k + 1, by simpa using h1, fun y hy => ?_, fun j y hj hy => ?_⟩
        · rcases List.mem_cons.mp hy with rfl | hy
          · omega
          · exact h2 y hy
        · cases j with
          | zero => simp at hy; subst hy; exact hlt
          | succ j => exact h3 j y (by omega) (by simpa using hy)
      · refine ⟨0, rfl, fun y hy => ?_, by simp⟩
        rcases List.mem_cons.mp hy with rfl | hy
        · omega
        · have := h2 y hy; omega

/-- `PEEKNEXT` answers nothing exactly when no position is eligible. -/
theorem peekNext_eq_none (l : List Transmission) (now : Nat) : peekNext l now = none ↔ ∀ k, ¬ EligibleAt l now k := by
  rw [peekNext, leastPriority_eq_none]
  constructor
  · intro h k hk
    obtain ⟨a, h1, -⟩ := id hk
    have := (mem_eligibleEntries_nil now l a).mpr ⟨k, h1, hk⟩
    rw [h] at this; cases this
  · intro h
    by_contra hne
    obtain ⟨x, hx⟩ := List.exists_mem_of_ne_nil _ hne
    obtain ⟨k, -, hk⟩ := (mem_eligibleEntries_nil now l x).mp hx
    exact h k hk

/-- What `PEEKNEXT` answers stands at an eligible position, and no eligible entry has a lower priority number. -/
theorem peekNext_eq_some {l : List Transmission} {now : Nat} {t : Transmission} (h : peekNext l now = some t) :
    (∃ k, l[k]? = some t ∧ EligibleAt l now k) ∧
      ∀ k x, l[k]? = some x → EligibleAt l now k → t.priority.toNat ≤ x.priority.toNat := by
  obtain ⟨-, -, h2, -⟩ := leastPriority_least h
  exact ⟨(mem_eligibleEntries_nil now l t).mp (leastPriority_mem h),
    fun k x hk he => h2 x ((mem_eligibleEntries_nil now l x).mpr ⟨k, hk, he⟩)⟩

theorem peekNext_mem {l : List Transmission} {now : Nat} {t : Transmission} (h : peekNext l now = some t) : t ∈ l := by
  obtain ⟨⟨k, hk, -⟩, -⟩ := peekNext_eq_some h
  exact List.mem_of_getElem? hk

/-- What `PEEKNEXT` answers is due. -/
theorem peekNext_due {l : List Transmission} {now : Nat} {t : Transmission} (h : peekNext l now = some t) :
    t.nextTimeUs ≤ now := by
  obtain ⟨⟨k, hk, a, ha, hd, -⟩, -⟩ := peekNext_eq_some h
  rw [hk] at ha; cases ha; exact hd

/-! ### POPITEM (rule R150) -/

/-- What a pop leaves: nothing happens without the id; else the first entry with it is taken out and, if it repeats, put
back at its next time. -/
theorem popSchedule_cases (id now : Nat) (l : List Transmission) :
    ((∀ x ∈ l, x.id ≠ id) ∧ popSchedule id now l = none) ∨
    ∃ x ∈ l, x.id = id ∧ ∃ rest, rest = l.eraseP (fun y => y.id == id) ∧ l.Perm (x :: rest) ∧ rest.Sublist l ∧
      popSchedule id now l =
        some (if repeats x now then insertTx { x with nextTimeUs := repeatTime x now } rest else rest) := by
  rcases hf : l.find? (fun x => x.id == id) with _ | x
  · left
    refine ⟨fun x hx => ?_, by simp [popSchedule, hf]⟩
    have := List.find?_eq_none.mp hf x hx
    simpa using this
  · right
    have hx := List.mem_of_find?_eq_some hf
    have hid : x.id = id := by simpa using List.find?_some hf
    refine ⟨x, hx, hid, _, rfl, ?_, List.eraseP_sublist, by simp [popSchedule, hf]⟩
    clear hx hid
    induction l with
    | nil => simp at hf
    | cons y ys ih =>
      rw [List.find?_cons] at hf
      rw [List.eraseP_cons]
      split at hf
      · rename_i h; cases hf; simp [h]
      · rename_i h
        simp only [h, cond_false]
        exact (List.Perm.cons y (ih hf)).trans (List.Perm.swap x y _)

/-- The next time of a repeating entry: a whole number of periods on, later than `now`, and the first such (C3). -/
theorem repeatTime_spec (x : Transmission) (now : Nat) (h : 0 < x.autoRepeatUs) :
    ∃ k, 1 ≤ k ∧ repeatTime x now = x.nextTimeUs + k * x.autoRepeatUs ∧ now < repeatTime x now ∧
      ∀ j, 1 ≤ j → now < x.nextTimeUs + j * x.autoRepeatUs → repeatTime x now ≤ x.nextTimeUs + j * x.autoRepeatUs := by
  refine ⟨repeatSteps x now, ?_, rfl, ?_, ?_⟩
  · unfold repeatSteps
    split
    · exact Nat.le_refl 1
    · exact Nat.le_add_left 1 _
  · unfold repeatTime repeatSteps
    split
    · omega
    · have h2 := Nat.lt_mul_div_succ (now - x.nextTimeUs) h
      rw [Nat.mul_comm x.autoRepeatUs] at h2; omega
  · intro j hj hlt
    apply Nat.add_le_add_left
    apply Nat.mul_le_mul_right
    unfold repeatSteps
    split
    · exact hj
    · have : (now - x.nextTimeUs) / x.autoRepeatUs < j := by rw [Nat.div_lt_iff_lt_mul h]; omega
      omega

/-! ### Cancellation (rules R151, R152) -/

@[simp] theorem cancelWhere_fst (p : Transmission → Bool) (s : State) :
    (cancelWhere p s).1 = s.sch.schedule.countP p := rfl

@[simp] theorem cancelWhere_snd (p : Transmission → Bool) (s : State) :
    (cancelWhere p s).2 = s.setSchedule (s.sch.schedule.filter fun t => !p t) := rfl

end Sys2Proof.Machine
end

