-- ==== Sys2Proof/Laws/Topology.lean ====
section
/-! SUPPORT. The timeliner's and the topology's shared operations: what each can do (rules R201, R202, R219 to R236), and
what none of the topology's reactions touches. -/

namespace Sys2Proof.Machine

/-! ### What the topology's reactions leave alone

They write node records, remove entries of the schedule and append to `OUT`; nothing else. -/

/-- Is the event bytes on the wire, which only an accepted `WRITE` appends (rule R174)? -/
def Event.isWire : Event → Bool
  | .wire _ => true
  | .callback _ => false
  | .dropped _ => false
  | .functionCreated _ _ => false
  | .functionDestroyed _ _ => false
  | .log _ => false

/-- From `s` to `t` only node records changed, entries left the schedule, and events other than bytes on the wire were
appended. -/
structure Calm (s t : State) : Prop where
  pkt        : t.pkt = s.pkt
  bus        : t.bus = s.bus
  nextId     : t.sch.nextId = s.sch.nextId
  schedule   : t.sch.schedule.Sublist s.sch.schedule
  tl         : t.tl = s.tl
  out        : s.out <+: t.out
  quiet      : t.out.filter Event.isWire = s.out.filter Event.isWire
  mutexOwner : t.mutexOwner = s.mutexOwner
  cfg        : t.cfg = s.cfg
  port       : t.port = s.port
  result     : t.result = s.result

theorem Calm.refl (s : State) : Calm s s := ⟨rfl, rfl, rfl, .refl _, rfl, List.prefix_rfl, rfl, rfl, rfl, rfl, rfl⟩

theorem Calm.trans {s t u : State} (h : Calm s t) (h' : Calm t u) : Calm s u where
  pkt := h'.pkt.trans h.pkt
  bus := h'.bus.trans h.bus
  nextId := h'.nextId.trans h.nextId
  schedule := h'.schedule.trans h.schedule
  tl := h'.tl.trans h.tl
  out := h.out.trans h'.out
  quiet := h'.quiet.trans h.quiet
  mutexOwner := h'.mutexOwner.trans h.mutexOwner
  cfg := h'.cfg.trans h.cfg
  port := h'.port.trans h.port
  result := h'.result.trans h.result

theorem calm_emitAll (es : List Event) (s : State) (h : ∀ e ∈ es, e.isWire = false) : Calm s (s.emitAll es) :=
  ⟨rfl, rfl, rfl, .refl _, rfl, List.prefix_append _ _, by simpa [State.emitAll] using h, rfl, rfl, rfl, rfl⟩

theorem calm_emit (e : Event) (s : State) (h : e.isWire = false := by rfl) : Calm s (s.emit e) :=
  calm_emitAll [e] s (by simpa using h)

theorem calm_setNode (k : Fin 6) (n : Node) (s : State) : Calm s (s.setNode k n) :=
  ⟨rfl, rfl, rfl, .refl _, rfl, List.prefix_rfl, rfl, rfl, rfl, rfl, rfl⟩

theorem calm_deliver (h : Handle) (c : Callback) (s : State) : Calm s (deliver h c s) :=
  calm_emit _ s (by split <;> rfl)

theorem calm_cancelWhere (p : Transmission → Bool) (s : State) : Calm s (cancelWhere p s).2 :=
  ⟨rfl, rfl, rfl, List.filter_sublist, rfl, List.prefix_rfl, rfl, rfl, rfl, rfl, rfl⟩

theorem calm_foldl {f : State → α → State} (h : ∀ s a, Calm s (f s a)) (l : List α) (s : State) :
    Calm s (l.foldl f s) := by
  induction l generalizing s with
  | nil => exact .refl s
  | cons a l ih => exact (h s a).trans (ih _)

theorem destroyedEvents_quiet (k : Fin 6) (codes : List Word) : ∀ e ∈ destroyedEvents k codes, e.isWire = false := by
  simp [destroyedEvents, Event.isWire]

theorem unknownBitsEvents_quiet (cfg : Config) (k : Fin 6) (mask : Word) :
    ∀ e ∈ unknownBitsEvents cfg k mask, e.isWire = false := by
  unfold unknownBitsEvents
  split <;> simp [Event.isWire]

theorem functionEvents_quiet (k : Fin 6) (old selected : List Word) (mask : Word) :
    ∀ e ∈ functionEvents k old selected mask, e.isWire = false := by
  intro e he
  simp only [functionEvents, createdEvents, List.mem_append, List.mem_map] at he
  rcases he with h | h | ⟨c, -, rfl⟩
  · exact destroyedEvents_quiet k old e h
  · split at h
    · rw [List.mem_singleton.mp h]; rfl
    · cases h
  · rfl

theorem calm_tearDown (k : Fin 6) (s : State) : Calm s (tearDown k s) :=
  ((calm_emitAll _ s (destroyedEvents_quiet _ _)).trans (calm_cancelWhere _ _)).trans (calm_setNode _ _ _)

theorem calm_markPresent (k : Fin 6) (b : Bool) (s : State) : Calm s (markPresent k b s) := calm_setNode _ _ s

theorem calm_dropSubNode (s : State) (j : Fin 6) : Calm s (dropSubNode s j) :=
  (calm_tearDown j s).trans (calm_markPresent _ _ _)

theorem calm_disconnect (k : Fin 6) (s : State) : Calm s (disconnect k s) := by
  unfold disconnect
  have h := (calm_emit (.log (.disconnect k)) s).trans (calm_tearDown k _)
  simp only
  split
  · exact h.trans (calm_foldl calm_dropSubNode _ _)
  · exact h

theorem calm_countFailure (k : Fin 6) (s : State) : Calm s (countFailure k s) := by
  unfold countFailure
  split
  · exact .refl s
  · split
    · exact .refl s
    · simp only
      split
      · exact (calm_setNode _ _ s).trans (calm_disconnect _ _)
      · exact calm_setNode _ _ s

theorem calm_handleFailed (t : Transmission) (s : State) : Calm s (handleFailed t s) := by
  unfold handleFailed; split
  · exact .refl s
  · exact calm_countFailure _ s

theorem calm_setPresent (k : Fin 6) (b : Bool) (s : State) : Calm s (setPresent k b s) := by
  unfold setPresent; split
  · split
    · exact .refl s
    · exact (calm_markPresent _ _ s).trans (calm_emit _ _)
  · split
    · exact ((calm_tearDown _ s).trans (calm_markPresent _ _ _)).trans (calm_emit _ _)
    · exact .refl s

theorem calm_inferPresence (sender : Byte) (s : State) : Calm s (inferPresence sender s) :=
  calm_foldl (fun s k => calm_setPresent k _ s) _ s

theorem calm_cancelDiscovery (o : Option Nat) (s : State) : Calm s (cancelDiscovery o s) := by
  cases o with
  | none => exact .refl s
  | some i => exact calm_cancelWhere _ s

theorem calm_processDeviceInfo (k : Fin 6) (p : Packet) (s : State) : Calm s (processDeviceInfo k p s) := by
  unfold processDeviceInfo
  simp only
  split
  · exact calm_emitAll _ s (unknownBitsEvents_quiet _ _ _)
  · exact (((calm_emitAll _ s (unknownBitsEvents_quiet _ _ _)).trans
      (calm_emitAll _ _ (functionEvents_quiet _ _ _ _))).trans (calm_cancelDiscovery _ _)).trans (calm_setNode _ _ _)

theorem calm_resetFailCount (k : Fin 6) (s : State) : Calm s (resetFailCount k s) := by
  unfold resetFailCount; split
  · exact calm_setNode _ _ s
  · exact .refl s

theorem calm_observe (k : Fin 6) (p : Packet) (s : State) : Calm s (observe k p s) := by
  unfold observe
  split
  · exact .refl s
  · have h : Calm s (if k = 0 then inferPresence p.sender (resetFailCount k s) else resetFailCount k s) := by
      split
      · exact (calm_resetFailCount k s).trans (calm_inferPresence _ _)
      · exact calm_resetFailCount k s
    simp only
    split
    · exact h.trans (calm_processDeviceInfo _ _ _)
    · exact h

theorem calm_handleCompleted (p : Packet) (s : State) : Calm s (handleCompleted p s) := by
  unfold handleCompleted; split
  · exact .refl s
  · exact calm_observe _ _ s

theorem calm_reactTo (r : TlResult) (s : State) : Calm s (reactTo r s) := by
  unfold reactTo; split
  · exact calm_handleCompleted _ s
  · exact .refl s
  · exact calm_handleFailed _ s
  · exact .refl s

/-! ### ADD (rule R144) and the discovery request (rule R220) -/

/-- `ADD` refuses and does nothing, or inserts the new transmission and takes its id. -/
theorem addTx_cases (p : Packet) (a : AddOperands) (s : State) :
    (addRefuses p a s = true ∧ addTx p a s = none) ∨
    (addRefuses p a s = false ∧ addTx p a s = some (s.sch.nextId,
      (s.setNextId (s.sch.nextId + 1)).setSchedule (insertTx (newTransmission p a s) s.sch.schedule))) := by
  unfold addTx
  cases h : addRefuses p a s
  · exact .inr ⟨rfl, rfl⟩
  · exact .inl ⟨rfl, rfl⟩

theorem addRefuses_false_iff (p : Packet) (a : AddOperands) (s : State) : addRefuses p a s = false ↔
    isValid s.cfg p = true ∧ a.expectedResponseWords ≤ 255 ∧ scheduleFull s = false ∧ s.sch.nextId ≤ lastId := by
  simp [addRefuses, and_assoc]

/-- `EnsureDiscovery` does nothing, logs a refused request, or adds the request and remembers its id. -/
theorem ensureDiscovery_cases (now : Nat) (s : State) (k : Fin 6) :
    (wantsDiscovery k s = false ∧ ensureDiscovery now s k = s) ∨
    (wantsDiscovery k s = true ∧ addRefuses (discoveryPacket s.cfg k) (discoveryOperands s.cfg k now) s = true ∧
      ensureDiscovery now s k = s.emit (.log .discoveryRefused)) ∨
    (wantsDiscovery k s = true ∧ addRefuses (discoveryPacket s.cfg k) (discoveryOperands s.cfg k now) s = false ∧
      ensureDiscovery now s k =
        ((s.setNextId (s.sch.nextId + 1)).setSchedule (insertTx
          (newTransmission (discoveryPacket s.cfg k) (discoveryOperands s.cfg k now) s) s.sch.schedule)).setNode k
            { s.node k with discoveryId := some s.sch.nextId }) := by
  unfold ensureDiscovery
  cases hw : wantsDiscovery k s
  · exact .inl ⟨rfl, rfl⟩
  · right
    rcases addTx_cases (discoveryPacket s.cfg k) (discoveryOperands s.cfg k now) s with ⟨h, e⟩ | ⟨h, e⟩
    · exact .inl ⟨rfl, h, by simp [e]⟩
    · exact .inr ⟨rfl, h, by simp [e]⟩

theorem wantsDiscovery_iff (k : Fin 6) (s : State) : wantsDiscovery k s = true ↔
    s.isPresent k = true ∧ (s.node k).state = .searching ∧ (s.node k).discoveryId = none := by
  simp [wantsDiscovery, and_assoc]

/-! ### The timeliner's halves (rules R201, R202) -/

/-- The read half: the poll, and, at a terminal phase, the one remembered transmission delivered and forgotten. -/
theorem readTask_cases (now : Nat) (ev : LineEvents) (s : State) :
    let b := polledBus s.cfg now ev s.bus
    let s1 := s.setBus (freeBus b)
    (b.phase.isTerminal = false ∧ readTask now ev s = (.nothing, s1)) ∨
    (b.phase.isTerminal = true ∧ s.tl.inFlight = none ∧
      readTask now ev s = (.nothing, s1.emit (.log .resultWithoutInFlight))) ∨
    (∃ t, b.phase.isTerminal = true ∧ s.tl.inFlight = some t ∧
      readTask now ev s = (tlResultOf (statusOf b) t, deliverResult (tlResultOf (statusOf b) t) (s1.setInFlight none))) := by
  simp only [readTask, processEvents_fst, processEvents_snd, statusOf_phase, State.setBus_tl]
  by_cases h : (polledBus s.cfg now ev s.bus).phase.isTerminal = true
  · right
    rcases ht : s.tl.inFlight with _ | t
    · exact .inl ⟨h, rfl, if_pos h⟩
    · exact .inr ⟨t, h, rfl, if_pos h⟩
  · exact .inl ⟨by simpa using h, if_neg h⟩

theorem calm_deliverResult (r : TlResult) (s : State) : Calm s (deliverResult r s) := by
  unfold deliverResult; split
  · exact .refl s
  · exact calm_deliver _ _ s
  · exact calm_deliver _ _ s

/-- Delivering a result writes no node. -/
@[simp] theorem deliverResult_topo (r : TlResult) (s : State) : (deliverResult r s).topo = s.topo := by
  unfold deliverResult; split <;> rfl

@[simp] theorem deliverResult_sch (r : TlResult) (s : State) : (deliverResult r s).sch = s.sch := by
  unfold deliverResult; split <;> rfl

/-- The write half does nothing, or starts exactly what `PEEKNEXT` answers: the bus is started, the entry popped, the
transmission remembered, `txStarted` delivered. -/
theorem writeTask_cases (now : Nat) (lineOpen : Bool) (s : State) :
    writeTask now lineOpen s = (none, s) ∨
    ∃ t l, s.bus.phase = .idle ∧ s.tl.inFlight = none ∧ peekNext s.sch.schedule now = some t ∧
      writeAccepts t.packet (writeOperandsOf t now lineOpen) s = true ∧ popSchedule t.id now s.sch.schedule = some l ∧
      writeTask now lineOpen s = (some t, deliver t.transmitter (.txStarted t.transmitter t)
        (((((s.setBus (startedBus t.packet (writeOperandsOf t now lineOpen) s)).emit
          (.wire (startedBus t.packet (writeOperandsOf t now lineOpen) s).txBytes))).setSchedule l).setInFlight (some t))) := by
  unfold writeTask
  split
  · exact .inl rfl
  · rename_i h
    simp only [Bool.or_eq_true, bne_iff_ne, ne_eq, not_or, not_not, Bool.not_eq_true, Option.isSome_eq_false_iff,
      Option.isNone_iff_eq_none] at h
    rcases hp : peekNext s.sch.schedule now with _ | t
    · exact .inl rfl
    · rcases busWrite_cases t.packet (writeOperandsOf t now lineOpen) s with ⟨ha, e⟩ | ⟨ha, e⟩
      · right
        rcases popSchedule_cases t.id now s.sch.schedule with ⟨hn, -⟩ | ⟨x, -, -, rest, -, -, -, e'⟩
        · exact absurd rfl (hn t (peekNext_mem hp))
        · exact ⟨t, _, h.1, h.2, rfl, ha, e', by simp [e, popItem, e']⟩
      · exact .inl (by simp [e])

/-! ### Node records -/

theorem markPresent_node (k j : Fin 6) (b : Bool) (s : State) :
    (markPresent k b s).node j = if j = k then { s.node k with present := b } else s.node j := by
  rw [markPresent, State.setNode_node]

theorem mem_subIndices : ∀ j : Fin 6, j ≠ 0 → j ∈ subIndices := by decide

/-- Everything `TearDown` does (rule R231). -/
theorem tearDown_node (k j : Fin 6) (s : State) :
    (tearDown k s).node j = if j = k then clearedNode (s.node k) else s.node j := by
  simp only [tearDown, State.setNode_node, cancelByRecipient, cancelWhere, State.setSchedule_node, State.emitAll_node]

theorem tearDown_schedule (k : Fin 6) (s : State) : (tearDown k s).sch.schedule =
    s.sch.schedule.filter fun t => !(t.recipient == nodeAddr s.cfg k) := rfl

theorem tearDown_out (k : Fin 6) (s : State) :
    (tearDown k s).out = s.out ++ destroyedEvents k (s.node k).functions := rfl

theorem dropSubNode_node (k j : Fin 6) (s : State) :
    (dropSubNode s k).node j = if j = k then { clearedNode (s.node k) with present := false } else s.node j := by
  simp only [dropSubNode, markPresent_node, tearDown_node]
  by_cases h : j = k <;> simp [h]

/-- Dropping a list of Sub Nodes clears exactly those. -/
theorem foldl_dropSubNode_node (l : List (Fin 6)) (j : Fin 6) (s : State) (hl : l.Nodup) :
    (l.foldl dropSubNode s).node j =
      if j ∈ l then { clearedNode (s.node j) with present := false } else s.node j := by
  induction l generalizing s with
  | nil => simp
  | cons k l ih =>
    rw [List.nodup_cons] at hl
    rw [List.foldl_cons, ih _ hl.2, dropSubNode_node]
    by_cases hk : j = k
    · subst hk; simp [hl.1]
    · simp [hk]

/-- The nodes after a disconnect (rules R231, R232). -/
theorem disconnect_node (k j : Fin 6) (s : State) : (disconnect k s).node j =
    if j = k then clearedNode (s.node k)
    else if k = 0 then { clearedNode (s.node j) with present := false }
    else s.node j := by
  have h0 : (tearDown k (s.emit (.log (.disconnect k)))).node j = if j = k then clearedNode (s.node k) else s.node j := by
    rw [tearDown_node]; rfl
  unfold disconnect
  simp only
  split
  · rename_i hk
    rw [foldl_dropSubNode_node _ _ _ (by decide), h0, hk]
    by_cases hj : j = 0
    · subst hj; simp [subIndices]
    · have : j ∈ subIndices := mem_subIndices j hj
      simp [hj, this]
  · exact h0

theorem foldl_dropSubNode_schedule (l : List (Fin 6)) (s : State) : (l.foldl dropSubNode s).sch.schedule =
    s.sch.schedule.filter fun t => l.all fun j => t.recipient != nodeAddr s.cfg j := by
  induction l generalizing s with
  | nil => simp
  | cons k l ih =>
    have e1 : (dropSubNode s k).sch.schedule = s.sch.schedule.filter fun t => !(t.recipient == nodeAddr s.cfg k) := rfl
    have e2 : (dropSubNode s k).cfg = s.cfg := rfl
    rw [List.foldl_cons, ih, e1, e2, List.filter_filter]
    congr 1; funext t
    simp only [List.all_cons, bne, Bool.and_comm]

/-- The schedule after a disconnect: every entry to the node, and for the Main Node to any node, is gone. -/
theorem disconnect_schedule (k : Fin 6) (s : State) : (disconnect k s).sch.schedule =
    s.sch.schedule.filter fun t =>
      t.recipient != nodeAddr s.cfg k && (k != 0 || subIndices.all fun j => t.recipient != nodeAddr s.cfg j) := by
  have e : (tearDown k (s.emit (.log (.disconnect k)))).sch.schedule =
      s.sch.schedule.filter fun t => !(t.recipient == nodeAddr s.cfg k) := rfl
  unfold disconnect
  simp only
  split
  · rename_i hk
    subst hk
    have e2 : (tearDown 0 (s.emit (.log (.disconnect 0)))).cfg = s.cfg := rfl
    rw [foldl_dropSubNode_schedule, e, e2, List.filter_filter]
    congr 1; funext t
    simp [bne, Bool.and_comm]
  · rename_i hk
    rw [e]; congr 1; funext t
    simp [hk, bne]

theorem foldl_dropSubNode_out (l : List (Fin 6)) (s : State) (hl : l.Nodup) : (l.foldl dropSubNode s).out =
    s.out ++ l.flatMap fun j => destroyedEvents j (s.node j).functions := by
  induction l generalizing s with
  | nil => simp
  | cons k l ih =>
    rw [List.nodup_cons] at hl
    have e1 : (dropSubNode s k).out = s.out ++ destroyedEvents k (s.node k).functions := rfl
    have e2 : (l.flatMap fun j => destroyedEvents j ((dropSubNode s k).node j).functions) =
        l.flatMap fun j => destroyedEvents j (s.node j).functions := by
      rw [List.flatMap_congr]
      intro j hj
      have : j ≠ k := fun e => hl.1 (e ▸ hj)
      simp [dropSubNode_node, this]
    rw [List.foldl_cons, ih _ hl.2, e1, e2, List.flatMap_cons, List.append_assoc]

/-- The events of a disconnect: the log entry, then the destroyed functions. -/
theorem disconnect_out (k : Fin 6) (s : State) : (disconnect k s).out =
    s.out ++ (Event.log (.disconnect k) :: destroyedEvents k (s.node k).functions) ++
      (if k = 0 then subIndices.flatMap fun j => destroyedEvents j (s.node j).functions else []) := by
  have e : (tearDown k (s.emit (.log (.disconnect k)))).out =
      s.out ++ (Event.log (.disconnect k) :: destroyedEvents k (s.node k).functions) := by
    simp [tearDown_out]
  unfold disconnect
  simp only
  split
  · rename_i hk
    rw [foldl_dropSubNode_out _ _ (by decide), e]
    congr 1
    apply List.flatMap_congr
    intro j hj
    have : j ≠ k := by rintro rfl; rw [hk] at hj; exact absurd hj (by decide)
    simp [tearDown_node, this]
  · rw [e, List.append_nil]

/-- Presence inference of one node, on the node records (rules R234 to R236). -/
theorem setPresent_node (k j : Fin 6) (b : Bool) (s : State) : (setPresent k b s).node j =
    if j = k then
      (if b then { s.node k with present := true }
       else if (s.node k).present then { clearedNode (s.node k) with present := false } else s.node k)
    else s.node j := by
  unfold setPresent
  cases b <;> cases hp : (s.node k).present
  · by_cases h : j = k <;> simp [h]
  · simp only [Bool.false_eq_true, if_false, if_true, State.emit_node, markPresent_node, tearDown_node]
    by_cases h : j = k <;> simp [h]
  · simp only [Bool.false_eq_true, if_false, if_true, State.emit_node, markPresent_node]
  · by_cases h : j = k
    · subst h
      simp only [if_true]
      rw [show ({ s.node j with present := true } : Node) = s.node j from by rw [← hp]]
    · simp [h]

theorem foldl_setPresent_node (sender : Byte) (l : List (Fin 6)) (j : Fin 6) (s : State) (hl : l.Nodup) :
    (l.foldl (fun st k => setPresent k (sender.getLsbD (k.val - 1)) st) s).node j =
      if j ∈ l then (setPresent j (sender.getLsbD (j.val - 1)) s).node j else s.node j := by
  induction l generalizing s with
  | nil => simp
  | cons k l ih =>
    rw [List.nodup_cons] at hl
    rw [List.foldl_cons, ih _ hl.2]
    by_cases hk : j = k
    · subst hk; simp [hl.1]
    · have e : (setPresent k (sender.getLsbD (k.val - 1)) s).node j = s.node j := by simp [setPresent_node, hk]
      by_cases hj : j ∈ l
      · simp only [hj, if_true, List.mem_cons, or_true]
        rw [setPresent_node j j _ (setPresent k _ s), setPresent_node j j _ s, e]
      · simp [hj, hk, e]

/-- Presence inference on the node records: each Sub Node follows its own bit, the Main Node is untouched. -/
theorem inferPresence_node (sender : Byte) (j : Fin 6) (s : State) : (inferPresence sender s).node j =
    if j = 0 then s.node 0
    else if sender.getLsbD (j.val - 1) then { s.node j with present := true }
    else if (s.node j).present then { clearedNode (s.node j) with present := false } else s.node j := by
  rw [inferPresence, foldl_setPresent_node _ _ _ _ (by decide)]
  by_cases hj : j = 0
  · subst hj; simp [subIndices]
  · have : j ∈ subIndices := mem_subIndices j hj
    simp [this, hj, setPresent_node]

theorem setPresent_schedule (k : Fin 6) (b : Bool) (s : State) : (setPresent k b s).sch.schedule =
    s.sch.schedule.filter (fun x => !((s.node k).present && !b && x.recipient == nodeAddr s.cfg k)) := by
  unfold setPresent
  cases b <;> cases hp : (s.node k).present <;> simp [markPresent, tearDown_schedule]

theorem setPresent_out (k : Fin 6) (b : Bool) (s : State) : (setPresent k b s).out = s.out ++
    (if (s.node k).present && !b then destroyedEvents k (s.node k).functions ++ [.log (.subNodeGone k)]
     else if b && !(s.node k).present then [.log (.subNodePresent k)] else []) := by
  unfold setPresent
  cases b <;> cases hp : (s.node k).present <;> simp [State.emit, markPresent, tearDown_out]

theorem foldl_setPresent_schedule (sender : Byte) (l : List (Fin 6)) (s : State) (hl : l.Nodup) :
    (l.foldl (fun st k => setPresent k (sender.getLsbD (k.val - 1)) st) s).sch.schedule =
      s.sch.schedule.filter (fun x => l.all (fun j =>
        !((s.node j).present && !sender.getLsbD (j.val - 1) && x.recipient == nodeAddr s.cfg j))) := by
  induction l generalizing s with
  | nil => simp
  | cons k l ih =>
    rw [List.nodup_cons] at hl
    rw [List.foldl_cons, ih _ hl.2, setPresent_schedule, List.filter_filter, (calm_setPresent k _ s).cfg]
    refine List.filter_congr fun x _ => ?_
    rw [List.all_cons, Bool.and_comm]
    congr 1
    rw [Bool.eq_iff_iff]
    simp only [List.all_eq_true]
    refine forall₂_congr fun j hj => ?_
    rw [setPresent_node, if_neg (show j ≠ k from fun h => hl.1 (h ▸ hj))]

theorem foldl_setPresent_out (sender : Byte) (l : List (Fin 6)) (s : State) (hl : l.Nodup) :
    (l.foldl (fun st k => setPresent k (sender.getLsbD (k.val - 1)) st) s).out = s.out ++ l.flatMap (fun j =>
      if (s.node j).present && !sender.getLsbD (j.val - 1) then
        destroyedEvents j (s.node j).functions ++ [.log (.subNodeGone j)]
      else if sender.getLsbD (j.val - 1) && !(s.node j).present then [.log (.subNodePresent j)] else []) := by
  induction l generalizing s with
  | nil => simp
  | cons k l ih =>
    rw [List.nodup_cons] at hl
    rw [List.foldl_cons, ih _ hl.2, setPresent_out, List.flatMap_cons, List.append_assoc]
    congr 2
    simp only [List.flatMap_def]
    congr 1
    refine List.map_congr_left fun j hj => ?_
    rw [setPresent_node, if_neg (show j ≠ k from fun h => hl.1 (h ▸ hj))]

/-- Presence inference on the schedule (rules R231, R234): a Sub Node that goes loses its pending transmissions. -/
theorem inferPresence_schedule (sender : Byte) (s : State) : (inferPresence sender s).sch.schedule =
    s.sch.schedule.filter (fun x => subIndices.all (fun j =>
      !((s.node j).present && !sender.getLsbD (j.val - 1) && x.recipient == nodeAddr s.cfg j))) :=
  foldl_setPresent_schedule sender subIndices s (by decide)

/-- Presence inference on the trace (rules R231, R234), Sub Node by Sub Node. -/
theorem inferPresence_out (sender : Byte) (s : State) : (inferPresence sender s).out = s.out ++ subIndices.flatMap (fun j =>
      if (s.node j).present && !sender.getLsbD (j.val - 1) then
        destroyedEvents j (s.node j).functions ++ [.log (.subNodeGone j)]
      else if sender.getLsbD (j.val - 1) && !(s.node j).present then [.log (.subNodePresent j)] else []) :=
  foldl_setPresent_out sender subIndices s (by decide)

/-- Presence inference changes nothing where every Sub Node already is as its bit says. -/
theorem inferPresence_eq_self (b : Byte) (s : State)
    (h : ∀ j : Fin 6, j ≠ 0 → (s.node j).present = b.getLsbD (j.val - 1)) : inferPresence b s = s := by
  have hs : ∀ l : List (Fin 6), (∀ j ∈ l, j ≠ 0) → l.foldl (fun st k => setPresent k (b.getLsbD (k.val - 1)) st) s = s := by
    intro l
    induction l with
    | nil => intro _; rfl
    | cons a l ih =>
      intro hl
      have e : setPresent a (b.getLsbD (a.val - 1)) s = s := by
        unfold setPresent
        rw [← h a (hl a List.mem_cons_self)]
        split <;> rfl
      rw [List.foldl_cons, e]
      exact ih fun j hj => hl j (List.mem_cons_of_mem _ hj)
  exact hs subIndices (by decide)
/-- Device information on the node records (rules R226, R227). -/
theorem processDeviceInfo_node (k j : Fin 6) (p : Packet) (s : State) : (processDeviceInfo k p s).node j =
    if j = k ∧ selectedCodes s.cfg (deviceMask p) ≠ [] then
      connectedNode (s.node k) ((selectedCodes s.cfg (deviceMask p)).take maxFunctions)
    else s.node j := by
  unfold processDeviceInfo
  simp only
  split
  · rename_i h; simp [h]
  · rename_i h
    have e : ∀ o : Option Nat, ∀ u : State, (cancelDiscovery o u).node j = u.node j := fun o u => by cases o <;> rfl
    rw [State.setNode_node, e]
    by_cases hj : j = k <;> simp [hj, h]

theorem resetFailCount_node (k j : Fin 6) (s : State) : (resetFailCount k s).node j =
    if j = k ∧ (s.node k).state = .connected then { s.node k with failCount := 0 } else s.node j := by
  unfold resetFailCount
  split
  · rename_i h; rw [State.setNode_node]; by_cases hj : j = k <;> simp [hj, h]
  · rename_i h; simp [h]

/-! ### The function codes a mask selects (rules R226, R228) -/

theorem insertDesc_perm (c : Word) (l : List Word) : (insertDesc c l).Perm (c :: l) := by
  induction l with
  | nil => exact List.Perm.refl _
  | cons d ds ih =>
    simp only [insertDesc]
    split
    · exact List.Perm.refl _
    · exact (List.Perm.cons d ih).trans (List.Perm.swap c d ds)

theorem foldr_insertDesc_perm (l : List Word) : (l.foldr insertDesc []).Perm l := by
  induction l with
  | nil => exact List.Perm.refl _
  | cons c l ih => exact (insertDesc_perm c _).trans (List.Perm.cons c ih)

theorem insertDesc_desc (c : Word) (l : List Word) (h : l.Pairwise fun a b => b.toNat < a.toNat) (hc : c ∉ l) :
    (insertDesc c l).Pairwise fun a b => b.toNat < a.toNat := by
  induction l with
  | nil => simp [insertDesc]
  | cons d ds ih =>
    rw [List.pairwise_cons] at h
    have hcd : c.toNat ≠ d.toNat := fun e => hc (by rw [BitVec.eq_of_toNat_eq e]; exact List.mem_cons_self)
    simp only [insertDesc]
    split
    · rename_i hle
      rw [List.pairwise_cons, List.pairwise_cons]
      refine ⟨fun y hy => ?_, h⟩
      rcases List.mem_cons.mp hy with rfl | hy
      · omega
      · have := h.1 y hy; omega
    · rename_i hle
      rw [List.pairwise_cons]
      refine ⟨fun y hy => ?_, ih h.2 fun hm => hc (List.mem_cons_of_mem _ hm)⟩
      rcases List.mem_cons.mp ((insertDesc_perm c ds).mem_iff.mp hy) with rfl | hy
      · omega
      · exact h.1 y hy

theorem mem_selectedCodes (cfg : Config) (mask c : Word) : c ∈ selectedCodes cfg mask ↔
    c ∈ cfg.functionTable.map (·.code) ∧ mask &&& c ≠ 0 := by
  rw [selectedCodes, (foldr_insertDesc_perm _).mem_iff, List.mem_filter]
  simp

/-- The selected codes stand highest first, none twice, when the table's codes are distinct (rule R225). -/
theorem selectedCodes_desc (cfg : Config) (mask : Word) (h : (cfg.functionTable.map (·.code)).Nodup) :
    (selectedCodes cfg mask).Pairwise fun a b => b.toNat < a.toNat := by
  unfold selectedCodes
  have hn := h.filter (fun c => mask &&& c != 0)
  revert hn
  generalize List.filter (fun c => mask &&& c != 0) (cfg.functionTable.map (·.code)) = l
  intro hn
  induction l with
  | nil => simp
  | cons c l ih =>
    rw [List.nodup_cons] at hn
    exact insertDesc_desc c _ (ih hn.2) fun hm => hn.1 ((foldr_insertDesc_perm l).mem_iff.mp hm)

/-! ### The recognized functions of a mask (rules R225 to R228) -/

/-- Bit i of `RecognizedMask` is set exactly when a code of the table has it. -/
theorem recognizedMask_getLsbD (cfg : Config) (i : Nat) : (recognizedMask cfg).getLsbD i = true ↔
    ∃ c ∈ cfg.functionTable.map (·.code), c.getLsbD i = true := by
  unfold recognizedMask
  have h : ∀ (l : List FunctionEntry) (m : Word), (l.foldl (fun m e => m ||| e.code) m).getLsbD i = true ↔
      m.getLsbD i = true ∨ ∃ c ∈ l.map (·.code), c.getLsbD i = true := by
    intro l
    induction l with
    | nil => simp
    | cons a l ih => intro m; simp only [List.foldl_cons, ih]; simp [or_assoc]
  rw [h]; simp

/-- The unrecognized bits of a mask are its bits that no code of the table has. -/
theorem unknownBits_getLsbD (cfg : Config) (mask : Word) (i : Nat) :
    (mask &&& ~~~(recognizedMask cfg)).getLsbD i = true ↔
      mask.getLsbD i = true ∧ ∀ c ∈ cfg.functionTable.map (·.code), c.getLsbD i = false := by
  rw [BitVec.getLsbD_and, BitVec.getLsbD_not, Bool.and_eq_true, Bool.and_eq_true]
  have h := recognizedMask_getLsbD cfg i
  constructor
  · rintro ⟨h1, -, h3⟩
    refine ⟨h1, fun c hc => ?_⟩
    by_contra hn
    simp only [Bool.not_eq_false] at hn
    rw [h.mpr ⟨c, hc, hn⟩] at h3; cases h3
  · rintro ⟨h1, h2⟩
    refine ⟨h1, by simpa using BitVec.lt_of_getLsbD h1, ?_⟩
    rw [Bool.not_eq_true', ← Bool.not_eq_true, h]
    rintro ⟨c, hc, hi⟩
    rw [h2 c hc] at hi; cases hi

/-- No bit of a mask is unrecognized. -/
theorem unknownBits_eq_zero_iff (cfg : Config) (mask : Word) : mask &&& ~~~(recognizedMask cfg) = 0 ↔
    ∀ i, mask.getLsbD i = true → ∃ c ∈ cfg.functionTable.map (·.code), c.getLsbD i = true := by
  constructor
  · intro h i hi
    by_contra hn
    have := (unknownBits_getLsbD cfg mask i).mpr ⟨hi, fun c hc => by by_contra hc'; exact hn ⟨c, hc, by simpa using hc'⟩⟩
    rw [h] at this; simp at this
  · intro h
    apply BitVec.eq_of_getLsbD_eq
    intro i _
    rw [show (0 : Word).getLsbD i = false by simp]
    by_contra hn
    obtain ⟨h1, h2⟩ := (unknownBits_getLsbD cfg mask i).mp (by simpa using hn)
    obtain ⟨c, hc, hi⟩ := h i h1
    rw [h2 c hc] at hi; cases hi

/-- The first three of a falling list: every other entry is below all three. -/
theorem mem_take_three {l : List Word} (hd : l.Pairwise fun a b => b.toNat < a.toNat) {c : Word} (hc : c ∈ l) :
    c ∈ l.take 3 ∨ ((l.take 3).length = 3 ∧ ∀ d ∈ l.take 3, c.toNat < d.toNat) := by
  have e := List.take_append_drop 3 l
  rw [← e] at hc hd
  rcases List.mem_append.mp hc with h | h
  · exact .inl h
  · have hl : 3 < l.length := by
      by_contra hn
      rw [List.drop_eq_nil_of_le (by omega)] at h; cases h
    exact .inr ⟨by rw [List.length_take]; omega, fun d hd' => (List.pairwise_append.mp hd).2.2 d hd' c h⟩

/-- More than three entries: some entry is not among the first three. -/
theorem three_lt_length_iff {l : List Word} (hd : l.Pairwise fun a b => b.toNat < a.toNat) :
    3 < l.length ↔ ∃ c ∈ l, c ∉ l.take 3 := by
  have hn : l.Nodup := hd.imp fun h e => by subst e; omega
  constructor
  · intro h
    refine ⟨l[3], List.getElem_mem _, fun hm => ?_⟩
    obtain ⟨i, hi, e⟩ := List.mem_iff_getElem.mp hm
    rw [List.getElem_take] at e
    have := hn.getElem_inj_iff.mp e
    simp at hi; omega
  · rintro ⟨c, hc, h⟩
    by_contra hn
    rw [List.take_of_length_le (by omega)] at h; exact h hc

/-- Cancelling a discovery request removes the entries with its id, and nothing where there is none. -/
theorem cancelDiscovery_eq (o : Option Nat) (s : State) :
    cancelDiscovery o s = s.setSchedule (s.sch.schedule.filter fun x => some x.id != o) := by
  rcases o with _ | i
  · rw [List.filter_eq_self.mpr (by simp)]; rfl
  · simp only [cancelDiscovery, cancelById, cancelWhere_snd]
    congr 1

/-- A node-index operand in range names its node. -/
theorem nodeOfByte_eq {b : Byte} {k : Fin 6} (h : b.toNat = k.val) : nodeOfByte b = some k := by
  unfold nodeOfByte; rw [dif_pos (by omega)]; congr 1; exact Fin.ext h

end Sys2Proof.Machine
end

