-- ==== Sys2Proof/Laws/Machine.lean ====
section
/-! SUPPORT. What every instruction keeps, from what the shared operations keep: the one case split over `exec`. -/

namespace Sys2Proof.Machine

/-- The shared operations keep a property of the state. -/
structure Kept (P : State → Prop) : Prop where
  respond : ∀ r s, P s → P (s.respond r)
  emit : ∀ e s, P s → P (s.emit e)
  add : ∀ p a s, addRefuses p a s = false → P s →
    P ((s.setNextId (s.sch.nextId + 1)).setSchedule (insertTx (newTransmission p a s) s.sch.schedule))
  pop : ∀ id now l s, popSchedule id now s.sch.schedule = some l → P s → P (s.setSchedule l)
  cancel : ∀ p s, P s → P (cancelWhere p s).2
  readTask : ∀ now ev s, P s → P (readTask now ev s).2
  writeTask : ∀ now lineOpen s, P s → P (writeTask now lineOpen s).2
  ensureDiscovery : ∀ now k s, P s → P (ensureDiscovery now s k)
  observe : ∀ k p s, P s → P (observe k p s)
  countFailure : ∀ k s, P s → P (countFailure k s)

section
variable {P : State → Prop}

theorem foldl_keeps {f : State → α → State} (h : ∀ s a, P s → P (f s a)) (l : List α) (s : State) (hs : P s) :
    P (l.foldl f s) := by
  induction l generalizing s with
  | nil => exact hs
  | cons a l ih => exact ih _ (h s a hs)

theorem Kept.opAdd (h : Kept P) (p : Packet) (a : AddOperands) (s : State) (hs : P s) : P (opAdd p a s) := by
  rcases addTx_cases p a s with ⟨-, e⟩ | ⟨hr, e⟩ <;> simp only [Machine.opAdd, e]
  · exact h.respond _ _ hs
  · exact h.respond _ _ (h.add _ _ _ hr hs)

theorem Kept.reactTo (h : Kept P) (r : TlResult) (s : State) (hs : P s) : P (reactTo r s) := by
  unfold Machine.reactTo
  split
  · unfold handleCompleted; split
    · exact hs
    · exact h.observe _ _ _ hs
  · exact hs
  · unfold handleFailed; split
    · exact hs
    · exact h.countFailure _ _ hs
  · exact hs

theorem Kept.opReadTask (h : Kept P) (now : Nat) (ev : LineEvents) (s : State) (hs : P s) : P (opReadTask now ev s) :=
  h.respond _ _ (h.readTask _ _ _ hs)

theorem Kept.opNodeTask (h : Kept P) (now : Nat) (ev : LineEvents) (lineOpen : Bool) (s : State) (hs : P s) :
    P (opNodeTask now ev lineOpen s) := by
  simp only [Machine.opNodeTask, nodeTask]
  exact h.respond _ _ (h.writeTask _ _ _ (foldl_keeps (fun s k => h.ensureDiscovery now k s) nodeIndices _
    (h.reactTo _ _ (h.readTask _ _ _ hs))))

theorem Kept.opNodeTxComplete (h : Kept P) (k : Byte) (p : Option Packet) (t : Transmission) (s : State) (hs : P s) :
    P (opNodeTxComplete k p t s) := by
  unfold Machine.opNodeTxComplete refuse
  split
  · exact h.respond _ _ hs
  · cases p with
    | none => exact h.respond _ _ (h.emit _ _ hs)
    | some p =>
      refine h.respond _ _ ?_
      split
      · exact h.observe _ _ _ (h.emit _ _ hs)
      · exact h.emit _ _ hs

/-- A packet's passage keeps what the operation it passes through keeps. -/
theorem Kept.passPacket (h : Kept P) (p : Packet) (via : Passage) (s : State) (hs : P s)
    (hpoll : ∀ now, via = .processEvents now → ∀ ev, P (processEvents now ev s).2)
    (hwrite : ∀ w, via = .write w → P (busWrite p w s).2) : P (passPacket p via s) := by
  cases via with
  | nodeTask now lineOpen => exact h.opNodeTask _ _ _ _ hs
  | readTask now => exact h.opReadTask _ _ _ hs
  | processEvents now => exact h.respond _ _ (hpoll now rfl _)
  | txComplete k t => exact h.opNodeTxComplete k (some p) t s hs
  | add a => exact h.opAdd _ _ _ hs
  | write w => exact h.respond _ _ (hwrite w rfl)

/-- Every instruction keeps what the shared operations keep. The four premises are the instructions that write what no
shared operation does: the check accumulator, the mutex's owner, everything (`RESET`), and the bus past the timeliner. -/
theorem exec_keeps (h : Kept P) {i : Instr} {s t : State}
    (hcrc : (i = .crcInit ∨ ∃ b, i = .crcUpdate b) → ∀ c s, P s → P (s.setCrc c))
    (howner : (∃ ctx, i = .lock ctx ∨ i = .unlock ctx ∨ i = .tryLock ctx) → ∀ o s, P s → P (s.setOwner o))
    (hreset : i = .reset → ∀ s, P s → P (resetState s))
    (hpoll : bypassesTimeliner i = true → ∀ now ev s, P s → P (processEvents now ev s).2)
    (hwrite : bypassesTimeliner i = true → ∀ p w s, P s → P (busWrite p w s).2)
    (hs : P s) (he : exec i s = .next t) : P t := by
  have hr := fun r => h.respond r s hs
  have frame : ∀ p via,
      ((∃ now, via = .processEvents now) ∨ (∃ w, via = .write w) → bypassesTimeliner i = true) → P (passPacket p via s) := by
    intro p via hb
    exact h.passPacket p via s hs (fun now hv ev => hpoll (hb (.inl ⟨now, hv⟩)) now ev s hs)
      (fun w hv => hwrite (hb (.inr ⟨w, hv⟩)) p w s hs)
  cases i <;> simp only [exec] at he
  case crcInit => cases he; exact h.respond _ _ (hcrc (.inl rfl) _ _ hs)
  case crcUpdate b => cases he; exact h.respond _ _ (hcrc (.inr ⟨b, rfl⟩) _ _ hs)
  case crcRead => cases he; exact hr _
  case crc8 => cases he; exact hr _
  case mkAddr => unfold execMkAddr refuse at he; split at he <;> (cases he; exact hr _)
  case encode => unfold execEncode refuse at he; split at he <;> (cases he; exact hr _)
  case decode => unfold execDecode at he; split at he <;> (cases he; exact hr _)
  case isValid => cases he; exact hr _
  case setSender => cases he; exact hr _
  case add => cases he; exact h.opAdd _ _ _ hs
  case peekNext => cases he; exact hr _
  case popItem id now =>
    cases he; refine h.respond _ _ ?_
    unfold popItem; split
    · exact hs
    · exact h.pop _ _ _ _ ‹_› hs
  case cancelById id => cases he; exact h.respond _ _ (h.cancel (fun t => t.id == id) s hs)
  case cancelByRecipient a => cases he; exact h.respond _ _ (h.cancel (fun t => t.recipient == a) s hs)
  case cancelAll =>
    cases he
    have := h.cancel (fun _ => true) s hs
    rw [cancelWhere_snd, List.filter_eq_nil_iff.mpr (by simp)] at this
    exact h.respond _ _ this
  case countRecipients => cases he; exact hr _
  case write => cases he; exact h.respond _ _ (hwrite rfl _ _ _ hs)
  case processEvents => cases he; exact h.respond _ _ (hpoll rfl _ _ _ hs)
  case isBusy => cases he; exact hr _
  case getReadData => cases he; exact hr _
  case tlReadTask => cases he; exact h.opReadTask _ _ _ hs
  case tlWriteTask => cases he; exact h.respond _ _ (h.writeTask _ _ _ hs)
  case nodeTask now ev lineOpen =>
    rw [execNodeTask, Host.Outcome.next.injEq] at he
    rw [← he]; exact h.opNodeTask now ev lineOpen s hs
  case nodeTxStarted =>
    unfold execNodeTxStarted refuse at he; split at he <;> cases he
    · exact hr _
    · exact h.respond _ _ (h.emit _ _ hs)
  case nodeTxFailed =>
    unfold execNodeTxFailed refuse at he; split at he <;> cases he
    · exact hr _
    · exact h.respond _ _ (h.countFailure _ _ (h.emit _ _ hs))
  case nodeTxComplete => cases he; exact h.opNodeTxComplete _ _ _ _ hs
  case reset => cases he; exact hreset rfl _ hs
  case lock ctx =>
    unfold execLock at he; split at he
    · cases he; exact h.respond _ _ (howner ⟨ctx, .inl rfl⟩ _ _ hs)
    · split at he <;> (cases he; exact hr _)
  case unlock ctx =>
    unfold execUnlock at he; split at he <;> cases he
    · exact h.respond _ _ (howner ⟨ctx, .inr (.inl rfl)⟩ _ _ hs)
    · exact h.respond _ _ (h.emit _ _ hs)
  case tryLock ctx =>
    unfold execTryLock at he; split at he
    · cases he; exact h.respond _ _ (howner ⟨ctx, .inr (.inr rfl)⟩ _ _ hs)
    · split at he <;> (cases he; exact hr _)
  case deviceInfoRequest => cases he; exact frame _ _ (by rintro (⟨_, rfl⟩ | ⟨_, rfl⟩) <;> rfl)
  case responseDeviceInfo => cases he; exact frame _ _ (by rintro (⟨_, rfl⟩ | ⟨_, rfl⟩) <;> rfl)
  case responseDataXfer => cases he; exact frame _ _ (by rintro (⟨_, rfl⟩ | ⟨_, rfl⟩) <;> rfl)
  case getCondition => cases he; exact frame _ _ (by rintro (⟨_, rfl⟩ | ⟨_, rfl⟩) <;> rfl)
  case getMemoryInformation => cases he; exact frame _ _ (by rintro (⟨_, rfl⟩ | ⟨_, rfl⟩) <;> rfl)
  case blockRead => cases he; exact frame _ _ (by rintro (⟨_, rfl⟩ | ⟨_, rfl⟩) <;> rfl)
  case blockWrite => cases he; exact frame _ _ (by rintro (⟨_, rfl⟩ | ⟨_, rfl⟩) <;> rfl)
  case setCondition => cases he; exact frame _ _ (by rintro (⟨_, rfl⟩ | ⟨_, rfl⟩) <;> rfl)
  case responseFileError => cases he; exact frame _ _ (by rintro (⟨_, rfl⟩ | ⟨_, rfl⟩) <;> rfl)
  case responseRequestResend => cases he; exact frame _ _ (by rintro (⟨_, rfl⟩ | ⟨_, rfl⟩) <;> rfl)
  case responseUnknownCommand => cases he; exact frame _ _ (by rintro (⟨_, rfl⟩ | ⟨_, rfl⟩) <;> rfl)
  case responseFunctionCodeNotSupported => cases he; exact frame _ _ (by rintro (⟨_, rfl⟩ | ⟨_, rfl⟩) <;> rfl)

end

/-! ### What `exec` answers, for the instructions whose meanings are long -/

theorem exec_tlReadTask (now : Nat) (ev : LineEvents) (s : State) : exec (.tlReadTask now ev) s =
    .next ((readTask now ev s).2.respond (.tl (readTask now ev s).1)) := by simp only [exec, execTlReadTask, opReadTask]

theorem exec_tlWriteTask (now : Nat) (lineOpen : Bool) (s : State) : exec (.tlWriteTask now lineOpen) s =
    .next ((writeTask now lineOpen s).2.respond (.transmission (writeTask now lineOpen s).1)) := by
  simp only [exec, execTlWriteTask]

theorem exec_nodeTask (now : Nat) (ev : LineEvents) (lineOpen : Bool) (s : State) : exec (.nodeTask now ev lineOpen) s =
    .next ((writeTask now lineOpen (nodeIndices.foldl (ensureDiscovery now)
      (reactTo (readTask now ev s).1 (readTask now ev s).2))).2.respond (.tl (readTask now ev s).1)) := by
  simp only [exec, execNodeTask, opNodeTask, nodeTask]

theorem exec_nodeTxFailed {b : Byte} {k : Fin 6} (h : b.toNat = k.val) (w r : Bool) (t : Transmission) (s : State) :
    exec (.nodeTxFailed b w r t) s =
      .next ((countFailure k (s.emit (.callback (.txFailed (.node k) w r t)))).respond .done) := by
  simp only [exec, execNodeTxFailed, nodeOfByte_eq h]

theorem exec_nodeTxComplete {b : Byte} {k : Fin 6} (h : b.toNat = k.val) (p : Packet) (t : Transmission) (s : State) :
    exec (.nodeTxComplete b (some p) t) s =
      .next ((if isValid s.cfg p then observe k p (s.emit (.callback (.txComplete (.node k) (some p) t)))
        else s.emit (.callback (.txComplete (.node k) (some p) t))).respond .done) := by
  simp only [exec, execNodeTxComplete, opNodeTxComplete, nodeOfByte_eq h]

/-- Each of the twelve command codes passes its packet through the block. -/
theorem exec_command {x : Byte × (Byte → Byte → Byte → List Word → Passage → Instr)} (hx : x ∈ commandInstrs)
    (r a n : Byte) (ws : List Word) (v : Passage) (s : State) :
    exec (x.2 r a n ws v) s = .next (passPacket (framePacket x.1 r a n ws) v s) := by
  simp only [commandInstrs, List.mem_cons, List.not_mem_nil, or_false] at hx
  rcases hx with rfl | rfl | rfl | rfl | rfl | rfl | rfl | rfl | rfl | rfl | rfl | rfl <;> rfl

/-- `takeEnabled`, when the first request can be taken. -/
theorem takeEnabled_cons_free {s : State} {stalled : List Context} {r : Request} (rest : List Request)
    (h : requestHeld s stalled r = false) : takeEnabled s stalled (r :: rest) = some (r, rest) := by
  simp [takeEnabled, h]

/-- `takeEnabled`, when the first request is held: it stays, and its context is stalled for the rest. -/
theorem takeEnabled_cons_held {s : State} {stalled : List Context} {r : Request} (rest : List Request)
    (h : requestHeld s stalled r = true) : takeEnabled s stalled (r :: rest) =
      (takeEnabled s ((requestIssuer r).toList ++ stalled) rest).map (fun x => (x.1, r :: x.2)) := by
  simp only [takeEnabled, h, if_true]
  cases takeEnabled s ((requestIssuer r).toList ++ stalled) rest <;> rfl

/-- A stalled context's requests all stay. -/
theorem requestHeld_of_stalled {s : State} {stalled : List Context} {r : Request} {ctx : Context}
    (hr : requestIssuer r = some ctx) (hc : ctx ∈ stalled) : requestHeld s stalled r = true := by
  simp [requestHeld, hr, hc]

/-- What `takeEnabled` takes is a request of the list that does not wait. -/
theorem takeEnabled_mem {s : State} {stalled : List Context} {l others : List Request} {r : Request}
    (h : takeEnabled s stalled l = some (r, others)) : r ∈ l ∧ requestWaits s r = false := by
  induction l generalizing others stalled with
  | nil => cases h
  | cons q l ih =>
    rcases hq : requestHeld s stalled q with _ | _
    · rw [takeEnabled_cons_free _ hq] at h
      cases h
      exact ⟨.head _, by simp_all [requestHeld]⟩
    · rw [takeEnabled_cons_held _ hq, Option.map_eq_some_iff] at h
      obtain ⟨⟨q', o⟩, e, h⟩ := h
      cases h
      exact ⟨.tail _ (ih e).1, (ih e).2⟩

/-- A step does nothing, runs the instruction it decoded, or rejects a request that is none. -/
theorem step_cases (s : State) :
    (takeEnabled s [] s.port = none ∧ step s = .next s) ∨
    (∃ r others i, takeEnabled s [] s.port = some (r, others) ∧ decode r = .ok i ∧ step s = exec i (s.setPort others)) ∨
    ∃ r others e, takeEnabled s [] s.port = some (r, others) ∧ decode r = .error e ∧
      step s = .next (rejectRequest e (s.setPort others)) := by
  unfold step
  rcases h : takeEnabled s [] s.port with _ | ⟨r, others⟩
  · exact .inl ⟨rfl, rfl⟩
  · right
    rcases h' : decode r with e | i
    · exact .inr ⟨r, others, e, rfl, h', by simp [h']⟩
    · exact .inl ⟨r, others, i, rfl, h', by simp [h']⟩

/-- Every step keeps what the shared operations keep, if the writes past them keep it too; `RESET` need keep it only where
the port holds one. -/
theorem step_keeps {P : State → Prop} (h : Kept P) {s t : State} (hport : ∀ p s, P s → P (s.setPort p))
    (hcrc : ∀ c s, P s → P (s.setCrc c)) (howner : ∀ o s, P s → P (s.setOwner o))
    (hreset : (∃ r ∈ s.port, decode r = .ok .reset) → ∀ s, P s → P (resetState s))
    (hpoll : ∀ now ev s, P s → P (processEvents now ev s).2) (hwrite : ∀ p w s, P s → P (busWrite p w s).2)
    (hs : P s) (he : step s = .next t) : P t := by
  rcases step_cases s with ⟨-, e⟩ | ⟨r, o, i, ht, hd, e⟩ | ⟨r, o, e', -, -, e⟩ <;> rw [e] at he
  · cases he; exact hs
  · refine exec_keeps h (fun _ => hcrc) (fun _ => howner) (fun hi => hreset ⟨r, (takeEnabled_mem ht).1, ?_⟩)
      (fun _ => hpoll) (fun _ => hwrite) (hport _ _ hs) he
    rw [hd, hi]
  · rw [Host.Outcome.next.injEq] at he
    rw [← he]
    have hs' := hport o s hs
    cases e' with
    | unknownCommand p via => exact h.passPacket _ _ _ hs' (fun _ _ _ => hpoll _ _ _ hs') (fun _ _ => hwrite _ _ _ hs')
    | emptyRequest => exact h.respond _ _ hs'
    | reservedOpsel code => exact h.respond _ _ hs'
    | malformedOperands code => exact h.respond _ _ hs'
    | malformedFrame => exact h.respond _ _ hs'

end Sys2Proof.Machine
end

