-- ==== Sys2Proof/Laws/PerInstr.lean ====
section
/-! SUPPORT. Per-instruction laws. `Opcode`: the request that carries an instruction begins with its code of the opcode
table (rules R96, R100). -/

namespace Sys2Proof.Laws.Opcode

/-- Is the instruction of format `FRAME`, and its code: an operation select code or a command code. -/
def code : Instr → Bool × Byte
  | .crcInit => (false, 0x00)
  | .crcUpdate _ => (false, 0x01)
  | .crcRead => (false, 0x02)
  | .crc8 _ => (false, 0x03)
  | .mkAddr _ _ => (false, 0x04)
  | .encode _ _ _ _ => (false, 0x05)
  | .decode _ => (false, 0x06)
  | .isValid _ => (false, 0x07)
  | .setSender _ _ => (false, 0x08)
  | .add _ _ => (false, 0x10)
  | .peekNext _ => (false, 0x11)
  | .popItem _ _ => (false, 0x12)
  | .cancelById _ => (false, 0x13)
  | .cancelByRecipient _ => (false, 0x14)
  | .cancelAll => (false, 0x15)
  | .countRecipients _ => (false, 0x16)
  | .write _ _ => (false, 0x20)
  | .processEvents _ _ => (false, 0x21)
  | .isBusy => (false, 0x22)
  | .getReadData => (false, 0x23)
  | .tlReadTask _ _ => (false, 0x30)
  | .tlWriteTask _ _ => (false, 0x31)
  | .nodeTask _ _ _ => (false, 0x40)
  | .nodeTxStarted _ _ => (false, 0x41)
  | .nodeTxFailed _ _ _ _ => (false, 0x42)
  | .nodeTxComplete _ _ _ => (false, 0x43)
  | .reset => (false, 0x50)
  | .lock _ => (false, 0x60)
  | .unlock _ => (false, 0x61)
  | .tryLock _ => (false, 0x62)
  | .deviceInfoRequest _ _ _ _ _ => (true, 0x01)
  | .responseDeviceInfo _ _ _ _ _ => (true, 0x05)
  | .responseDataXfer _ _ _ _ _ => (true, 0x08)
  | .getCondition _ _ _ _ _ => (true, 0x09)
  | .getMemoryInformation _ _ _ _ _ => (true, 0x0A)
  | .blockRead _ _ _ _ _ => (true, 0x0B)
  | .blockWrite _ _ _ _ _ => (true, 0x0C)
  | .setCondition _ _ _ _ _ => (true, 0x0E)
  | .responseFileError _ _ _ _ _ => (true, 0xFB)
  | .responseRequestResend _ _ _ _ _ => (true, 0xFC)
  | .responseUnknownCommand _ _ _ _ _ => (true, 0xFD)
  | .responseFunctionCodeNotSupported _ _ _ _ _ => (true, 0xFE)

/-- The code that a request begins with: the first byte of an operation request, the command byte of a frame word. -/
def codeOf : Request → Option (Bool × Byte)
  | .op bytes => bytes[0]?.map (Prod.mk false)
  | .frame bytes => bytes[3]?.map (Prod.mk true)

/-- The encoder writes the table's code. -/
def Statement (i : Instr) : Prop := codeOf (encode i) = some (code i)

theorem crcInit : Statement (.crcInit) := rfl

theorem crcUpdate (b : Byte) : Statement (.crcUpdate b) := rfl

theorem crcRead : Statement (.crcRead) := rfl

theorem crc8 (bytes : List Byte) : Statement (.crc8 bytes) := rfl

theorem mkAddr (playerIndex mask : Byte) : Statement (.mkAddr playerIndex mask) := rfl

theorem encode (command recipientAddr senderAddr : Byte) (payload : List Word) :
    Statement (.encode command recipientAddr senderAddr payload) := rfl

theorem decode (bytes : List Byte) : Statement (.decode bytes) := rfl

theorem isValid (packet : Packet) : Statement (.isValid packet) := rfl

theorem setSender (packet : Packet) (addr : Byte) : Statement (.setSender packet addr) := rfl

theorem add (packet : Packet) (ops : AddOperands) : Statement (.add packet ops) := rfl

theorem peekNext (now : Nat) : Statement (.peekNext now) := rfl

theorem popItem (id now : Nat) : Statement (.popItem id now) := rfl

theorem cancelById (id : Nat) : Statement (.cancelById id) := rfl

theorem cancelByRecipient (addr : Byte) : Statement (.cancelByRecipient addr) := rfl

theorem cancelAll : Statement (.cancelAll) := rfl

theorem countRecipients (addr : Byte) : Statement (.countRecipients addr) := rfl

theorem write (packet : Packet) (ops : WriteOperands) : Statement (.write packet ops) := rfl

theorem processEvents (now : Nat) (ev : LineEvents) : Statement (.processEvents now ev) := rfl

theorem isBusy : Statement (.isBusy) := rfl

theorem getReadData : Statement (.getReadData) := rfl

theorem tlReadTask (now : Nat) (ev : LineEvents) : Statement (.tlReadTask now ev) := rfl

theorem tlWriteTask (now : Nat) (lineOpen : Bool) : Statement (.tlWriteTask now lineOpen) := rfl

theorem nodeTask (now : Nat) (ev : LineEvents) (lineOpen : Bool) : Statement (.nodeTask now ev lineOpen) := rfl

theorem nodeTxStarted (k : Byte) (t : Transmission) : Statement (.nodeTxStarted k t) := rfl

theorem nodeTxFailed (k : Byte) (writeFailed readFailed : Bool) (t : Transmission) :
    Statement (.nodeTxFailed k writeFailed readFailed t) := rfl

theorem nodeTxComplete (k : Byte) (packet : Option Packet) (t : Transmission) :
    Statement (.nodeTxComplete k packet t) := rfl

theorem reset : Statement (.reset) := rfl

theorem lock (ctx : Context) : Statement (.lock ctx) := rfl

theorem unlock (ctx : Context) : Statement (.unlock ctx) := rfl

theorem tryLock (ctx : Context) : Statement (.tryLock ctx) := rfl

theorem deviceInfoRequest (recipient sender count : Byte) (payload : List Word) (via : Passage) :
    Statement (.deviceInfoRequest recipient sender count payload via) := rfl

theorem responseDeviceInfo (recipient sender count : Byte) (payload : List Word) (via : Passage) :
    Statement (.responseDeviceInfo recipient sender count payload via) := rfl

theorem responseDataXfer (recipient sender count : Byte) (payload : List Word) (via : Passage) :
    Statement (.responseDataXfer recipient sender count payload via) := rfl

theorem getCondition (recipient sender count : Byte) (payload : List Word) (via : Passage) :
    Statement (.getCondition recipient sender count payload via) := rfl

theorem getMemoryInformation (recipient sender count : Byte) (payload : List Word) (via : Passage) :
    Statement (.getMemoryInformation recipient sender count payload via) := rfl

theorem blockRead (recipient sender count : Byte) (payload : List Word) (via : Passage) :
    Statement (.blockRead recipient sender count payload via) := rfl

theorem blockWrite (recipient sender count : Byte) (payload : List Word) (via : Passage) :
    Statement (.blockWrite recipient sender count payload via) := rfl

theorem setCondition (recipient sender count : Byte) (payload : List Word) (via : Passage) :
    Statement (.setCondition recipient sender count payload via) := rfl

theorem responseFileError (recipient sender count : Byte) (payload : List Word) (via : Passage) :
    Statement (.responseFileError recipient sender count payload via) := rfl

theorem responseRequestResend (recipient sender count : Byte) (payload : List Word) (via : Passage) :
    Statement (.responseRequestResend recipient sender count payload via) := rfl

theorem responseUnknownCommand (recipient sender count : Byte) (payload : List Word) (via : Passage) :
    Statement (.responseUnknownCommand recipient sender count payload via) := rfl

theorem responseFunctionCodeNotSupported (recipient sender count : Byte) (payload : List Word) (via : Passage) :
    Statement (.responseFunctionCodeNotSupported recipient sender count payload via) := rfl

end Sys2Proof.Laws.Opcode
end

