-- ==== Sys2Proof/Laws/Respond.lean ====
section
/-! SUPPORT. No operation reads the trace before it or the result of the operation before it: putting events in front of
the trace and setting another result commutes with each (`_rebase`), and so does setting a result alone (`_respond`). -/

namespace Sys2Proof.Machine

/-- The same state behind another past: events before its trace, and another result. -/
def State.rebase (past : List Event) (r : Result) (s : State) : State := { s with out := past ++ s.out, result := r }

section
variable (past : List Event) (r : Result) (s : State)

@[simp] theorem State.rebase_cfg : (s.rebase past r).cfg = s.cfg := rfl
@[simp] theorem State.rebase_bus : (s.rebase past r).bus = s.bus := rfl
@[simp] theorem State.rebase_sch : (s.rebase past r).sch = s.sch := rfl
@[simp] theorem State.rebase_tl : (s.rebase past r).tl = s.tl := rfl
@[simp] theorem State.rebase_topo : (s.rebase past r).topo = s.topo := rfl
@[simp] theorem State.rebase_out : (s.rebase past r).out = past ++ s.out := rfl
@[simp] theorem State.rebase_node (k : Fin 6) : (s.rebase past r).node k = s.node k := rfl
@[simp] theorem State.rebase_isPresent (k : Fin 6) : (s.rebase past r).isPresent k = s.isPresent k := rfl

theorem respond_eq_rebase : s.respond r = s.rebase [] r := rfl

theorem emitAll_rebase (es : List Event) : (s.rebase past r).emitAll es = (s.emitAll es).rebase past r := by
  simp [State.emitAll, State.rebase]

theorem emit_rebase (e : Event) : (s.rebase past r).emit e = (s.emit e).rebase past r := emitAll_rebase past r s [e]

theorem setNode_rebase (k : Fin 6) (n : Node) : (s.rebase past r).setNode k n = (s.setNode k n).rebase past r := rfl

theorem cancelWhere_rebase (p : Transmission → Bool) :
    (cancelWhere p (s.rebase past r)).2 = (cancelWhere p s).2.rebase past r := rfl

theorem foldl_rebase {f : State → α → State} (h : ∀ s a, f (s.rebase past r) a = (f s a).rebase past r) (l : List α)
    (s : State) : l.foldl f (s.rebase past r) = (l.foldl f s).rebase past r := by
  induction l generalizing s with
  | nil => rfl
  | cons a l ih => simp only [List.foldl_cons, h, ih]

theorem tearDown_rebase (k : Fin 6) : tearDown k (s.rebase past r) = (tearDown k s).rebase past r := by
  simp only [tearDown, cancelByRecipient, State.rebase_node, emitAll_rebase, cancelWhere_rebase, setNode_rebase,
    State.rebase_cfg]

theorem markPresent_rebase (k : Fin 6) (b : Bool) :
    markPresent k b (s.rebase past r) = (markPresent k b s).rebase past r := rfl

theorem disconnect_rebase (k : Fin 6) : disconnect k (s.rebase past r) = (disconnect k s).rebase past r := by
  simp only [disconnect, emit_rebase, tearDown_rebase]
  split
  · exact foldl_rebase past r (fun s j => by simp only [dropSubNode, tearDown_rebase, markPresent_rebase]) _ _
  · rfl

theorem countFailure_rebase (k : Fin 6) : countFailure k (s.rebase past r) = (countFailure k s).rebase past r := by
  simp only [countFailure, State.rebase_isPresent, State.rebase_node, State.rebase_cfg, setNode_rebase, disconnect_rebase]
  split
  · rfl
  · split
    · rfl
    · split <;> rfl

theorem handleFailed_rebase (t : Transmission) : handleFailed t (s.rebase past r) = (handleFailed t s).rebase past r := by
  simp only [handleFailed, State.rebase_cfg]
  split
  · rfl
  · exact countFailure_rebase past r s _

theorem setPresent_rebase (k : Fin 6) (b : Bool) : setPresent k b (s.rebase past r) = (setPresent k b s).rebase past r := by
  simp only [setPresent, State.rebase_node, tearDown_rebase, markPresent_rebase, emit_rebase]
  split <;> split <;> rfl

theorem inferPresence_rebase (a : Byte) : inferPresence a (s.rebase past r) = (inferPresence a s).rebase past r :=
  foldl_rebase past r (fun s k => setPresent_rebase past r s k _) _ _

theorem resetFailCount_rebase (k : Fin 6) : resetFailCount k (s.rebase past r) = (resetFailCount k s).rebase past r := by
  simp only [resetFailCount, State.rebase_node, setNode_rebase]
  exact (apply_ite (State.rebase past r) _ _ _).symm

theorem cancelDiscovery_rebase (o : Option Nat) :
    cancelDiscovery o (s.rebase past r) = (cancelDiscovery o s).rebase past r := by
  cases o <;> rfl

theorem processDeviceInfo_rebase (k : Fin 6) (p : Packet) :
    processDeviceInfo k p (s.rebase past r) = (processDeviceInfo k p s).rebase past r := by
  simp only [processDeviceInfo, State.rebase_node, State.rebase_cfg, emitAll_rebase, cancelDiscovery_rebase, setNode_rebase]
  split <;> rfl

theorem observe_rebase (k : Fin 6) (p : Packet) : observe k p (s.rebase past r) = (observe k p s).rebase past r := by
  simp only [observe, State.rebase_isPresent, resetFailCount_rebase, inferPresence_rebase]
  split
  · rfl
  · have e : (if k = 0 then (inferPresence p.sender (resetFailCount k s)).rebase past r
          else (resetFailCount k s).rebase past r) =
        (if k = 0 then inferPresence p.sender (resetFailCount k s) else resetFailCount k s).rebase past r := by split <;> rfl
    rw [e, processDeviceInfo_rebase]
    split <;> rfl

theorem reactTo_rebase (q : TlResult) : reactTo q (s.rebase past r) = (reactTo q s).rebase past r := by
  unfold reactTo
  split
  · simp only [handleCompleted, State.rebase_cfg]
    split
    · rfl
    · exact observe_rebase past r s _ _
  · rfl
  · exact handleFailed_rebase past r s _
  · rfl

theorem addTx_rebase (p : Packet) (a : AddOperands) :
    addTx p a (s.rebase past r) = (addTx p a s).map fun x => (x.1, x.2.rebase past r) := by
  have e : addRefuses p a (s.rebase past r) = addRefuses p a s := rfl
  simp only [addTx, e]
  split <;> rfl

theorem ensureDiscovery_rebase (now : Nat) (k : Fin 6) :
    ensureDiscovery now (s.rebase past r) k = (ensureDiscovery now s k).rebase past r := by
  have e : wantsDiscovery k (s.rebase past r) = wantsDiscovery k s := rfl
  simp only [ensureDiscovery, e, addTx_rebase, State.rebase_cfg, emit_rebase]
  split
  · cases addTx (discoveryPacket s.cfg k) (discoveryOperands s.cfg k now) s <;> rfl
  · rfl

theorem busWrite_rebase (p : Packet) (w : WriteOperands) :
    busWrite p w (s.rebase past r) = ((busWrite p w s).1, (busWrite p w s).2.rebase past r) := by
  have e : writeAccepts p w (s.rebase past r) = writeAccepts p w s := rfl
  have e2 : startedBus p w (s.rebase past r) = startedBus p w s := rfl
  have e3 : ∀ b, (s.rebase past r).setBus b = (s.setBus b).rebase past r := fun _ => rfl
  simp only [busWrite, e, e2, e3, emit_rebase]
  split <;> rfl

theorem popItem_rebase (id now : Nat) :
    popItem id now (s.rebase past r) = ((popItem id now s).1, (popItem id now s).2.rebase past r) := by
  simp only [popItem, State.rebase_sch]
  split <;> rfl

theorem deliver_rebase (h : Handle) (c : Callback) : deliver h c (s.rebase past r) = (deliver h c s).rebase past r := by
  have e : resolves (s.rebase past r) h = resolves s h := by cases h <;> rfl
  simp only [deliver, e, emit_rebase]

theorem writeTask_rebase (now : Nat) (lineOpen : Bool) : writeTask now lineOpen (s.rebase past r) =
    ((writeTask now lineOpen s).1, (writeTask now lineOpen s).2.rebase past r) := by
  simp only [writeTask, State.rebase_bus, State.rebase_tl, State.rebase_sch, busWrite_rebase]
  split
  · rfl
  · split
    · rfl
    · rename_i t _
      rcases busWrite t.packet (writeOperandsOf t now lineOpen) s with ⟨b, u⟩
      cases b
      · rfl
      · have e : ∀ (v : State) o, (v.rebase past r).setInFlight o = (v.setInFlight o).rebase past r := fun _ _ => rfl
        simp only [popItem_rebase, e, deliver_rebase]

/-! ### Setting a result -/

theorem countFailure_respond (k : Fin 6) : countFailure k (s.respond r) = (countFailure k s).respond r :=
  countFailure_rebase [] r s k

theorem handleFailed_respond (t : Transmission) : handleFailed t (s.respond r) = (handleFailed t s).respond r :=
  handleFailed_rebase [] r s t

theorem observe_respond (k : Fin 6) (p : Packet) : observe k p (s.respond r) = (observe k p s).respond r :=
  observe_rebase [] r s k p

theorem reactTo_respond (q : TlResult) : reactTo q (s.respond r) = (reactTo q s).respond r := reactTo_rebase [] r s q

theorem ensureDiscovery_respond (now : Nat) (k : Fin 6) :
    ensureDiscovery now (s.respond r) k = (ensureDiscovery now s k).respond r := ensureDiscovery_rebase [] r s now k

theorem writeTask_respond (now : Nat) (lineOpen : Bool) : writeTask now lineOpen (s.respond r) =
    ((writeTask now lineOpen s).1, (writeTask now lineOpen s).2.respond r) := writeTask_rebase [] r s now lineOpen

/-! ### What an operation appends -/

/-- The result of an operation that commutes with `rebase` is its result on the empty trace, behind the trace as it was. -/
theorem eq_rebase_of_commutes {f : State → State} (h : ∀ past r s, f (s.rebase past r) = (f s).rebase past r) :
    f s = (f { s with out := [] }).rebase s.out s.result := by
  rw [← h]
  congr 1
  simp [State.rebase]

/-- What `observe` does does not depend on the trace or on the result that it finds. -/
theorem observe_eq_rebase (k : Fin 6) (p : Packet) : observe k p s =
    (observe k p { s with out := [] }).rebase s.out s.result :=
  eq_rebase_of_commutes s fun past r s => observe_rebase past r s k p

/-- What `countFailure` does does not depend on the trace or on the result that it finds. -/
theorem countFailure_eq_rebase (k : Fin 6) : countFailure k s =
    (countFailure k { s with out := [] }).rebase s.out s.result :=
  eq_rebase_of_commutes s fun past r s => countFailure_rebase past r s k

end

end Sys2Proof.Machine
end

