-- ==== Sys2Proof/Tests/Slice0.lean ====
section
/-! SUPPORT. Tests: ill-formed terms that each check refuses, requests written out from the spec's encodings, one step per
instruction with the values of the spec's test vectors (`95_test_vectors.md`, named V-...), and a witness for the
hypotheses of each obligation that has some. -/

namespace Sys2Proof.Tests

open Sys2Proof.Machine

/-! ### Helpers -/

/-- The next state of an outcome. -/
def nextOf : Host.Outcome State Fault Refusal → Option State
  | .next s => some s
  | .fault _ => none
  | .refused _ => none

/-- What an instruction answers. -/
def resultOf (i : Instr) (s : State) : Option Result := (nextOf (exec i s)).map (·.result)

/-- A field of the state after an instruction. -/
def after (i : Instr) (s : State) (f : State → α) : Option α := (nextOf (exec i s)).map f

/-- The ids of a schedule in their order. -/
def ids (s : State) : List Nat := s.sch.schedule.map (·.id)

/-- The packet `{cmd=c to=r from=a [ws]}`. -/
def pkt (c r a : Byte) (ws : List Word) : Packet := framePacket c r a (BitVec.ofNat 8 ws.length) ws

/-- A transmission `#id(t, p, to)` of the spec's section 2.2, with its repeat period and end. -/
def tx (id t : Nat) (p : Prio) (dst : Byte) (period : Nat := 0) (endTime : Option Nat := none) (h : Handle := .ext 0) :
    Transmission where
  id := id
  priority := p
  expectResponse := true
  expectedResponseWords := 3
  readTimeoutUs := 1000
  autoRepeatUs := period
  autoRepeatEndUs := endTime
  durationUs := 317
  nextTimeUs := t
  packet := pkt 0x09 dst 0x00 [1]
  transmitter := h

/-- After reset with this schedule; the next id is one more than its length. -/
def scheduled (l : List Transmission) : State := { State.reset with sch := ⟨l, l.length + 1⟩ }

/-- After reset with the bus in this phase, with the times of V-BUS-4 and V-BUS-5. -/
def inPhase (ph : Phase) (expect : Bool := true) : State :=
  { State.reset with
    bus := { Bus.reset with
      phase := ph, expectResponse := expect, readTimeoutUs := 1000, writeDeadline := 5032, tArmed := 5026,
      tReadStart := 5500 } }

/-- The same with a transmission in flight. -/
def inFlight (ph : Phase) (t : Transmission) (expect : Bool := true) : State := (inPhase ph expect).setInFlight (some t)

/-- After reset with node k connected. -/
def connectedAt (k : Fin 6) (codes : List Word) (fails : Nat) (s : State) : State :=
  s.setNode k ⟨true, .connected, codes, fails, none⟩

/-- No line event. -/
def quiet : LineEvents := ⟨false, false, false, none, false⟩

/-- Only this frame, well framed. -/
def frameEv (bytes : List Byte) : LineEvents := ⟨false, false, false, some ⟨bytes, true, true⟩, false⟩

/-- `F1` of the spec's section 2.3. -/
def f1 : List Byte := [0x01, 0x20, 0x20, 0x05, 0x01, 0x00, 0x00, 0x00, 0x05]

/-- Operands of `ADD` at a time and a priority. -/
def addOps (p : Prio) (t : Nat) : AddOperands := ⟨p, t, true, 3, 0, none, none, .ext 0⟩

/-! ### WellFormed: what each check refuses -/

theorem test_wf_time : (Instr.peekNext (2 ^ 64)).wf = false := by decide
theorem test_wf_id : (Instr.cancelById (2 ^ 32)).wf = false := by decide
theorem test_wf_count : wfCount (2 ^ 16) = false := by decide
theorem test_wf_optTime : wfOptTime (some (2 ^ 64)) = false := by decide
theorem test_wf_bytes : wfBytes (List.replicate 65536 0) = false := by
  rw [wfBytes, List.length_replicate]; decide
theorem test_wf_crc8 : (Instr.crc8 (List.replicate 65536 0)).wf = false := test_wf_bytes
theorem test_wf_packet : wfPacket ⟨0, List.replicate 65536 0⟩ = false := by
  rw [wfPacket, List.length_replicate]; decide
theorem test_wf_handle : wfHandle (.ext (2 ^ 64)) = false := by decide
theorem test_wf_transmission : wfTransmission (tx (2 ^ 32) 0 0 0x20) = false := by decide
theorem test_wf_rxFrame : wfRxFrame (some ⟨List.replicate 65536 0, true, true⟩) = false := test_wf_bytes
theorem test_wf_events : wfEvents (frameEv (List.replicate 65536 0)) = false := test_wf_bytes
theorem test_wf_addOperands : wfAddOperands { addOps 0 0 with autoRepeatEndUs := some 5 } = false := by decide
theorem test_wf_writeOperands : wfWriteOperands ⟨true, 2 ^ 64, 0, true⟩ = false := by decide
theorem test_wf_passage : wfPassage (.readTask (2 ^ 64)) = false := by decide
theorem test_wf_frame : (Instr.getCondition 0x20 0x00 0x02 [1] (.readTask 0)).wf = false := by decide
theorem test_wf_config : Config.wf { Config.ref with failThreshold := 0 } = false := by decide
theorem test_wf_functionCode : isFunctionCode 0x00000003 = false := by decide
theorem test_wf_configRef : Config.ref.wf = true := by decide

/-! ### Decoding: requests written out from rules R62, R96, R100, R101 and log entries 3 and 4 -/

/-- Eight zero bytes. -/
def z8 : List Byte := [0, 0, 0, 0, 0, 0, 0, 0]

/-- `#1(t=0, p=5, to=0x20)` of no repeat, from `EXT(7)`, carrying `{cmd=0x01 to=0x20 from=0x00 []}`, byte by byte. -/
def txBytes : List Byte :=
  [1, 0, 0, 0, 5, 1, 3, 0, 0xE8, 0x03, 0, 0, 0, 0, 0, 0] ++ z8 ++ [0, 0x3D, 0x01, 0, 0, 0, 0, 0, 0] ++ z8 ++
    [0x00, 0x00, 0x20, 0x01, 0, 0, 2, 7, 0, 0, 0, 0, 0, 0, 0]

/-- The transmission of `txBytes`. -/
def txBytesIs : Transmission := ⟨1, 5, true, 3, 1000, 0, none, 317, 0, ⟨0x01200000, []⟩, .ext 7⟩

theorem test_decode_crcInit : decode (.op [0x00]) = .ok .crcInit := by decide
theorem test_decode_crcUpdate : decode (.op [0x01, 0x5A]) = .ok (.crcUpdate 0x5A) := by decide
theorem test_decode_crcRead : decode (.op [0x02]) = .ok .crcRead := by decide
theorem test_decode_crc8 : decode (.op [0x03, 2, 0, 0x12, 0x34]) = .ok (.crc8 [0x12, 0x34]) := by decide
theorem test_decode_mkAddr : decode (.op [0x04, 1, 0x20]) = .ok (.mkAddr 1 0x20) := by decide
theorem test_decode_encode : decode (.op [0x05, 0x09, 0x60, 0x40, 1, 0, 0x44, 0x33, 0x22, 0x11]) =
    .ok (.encode 0x09 0x60 0x40 [0x11223344]) := by decide
theorem test_decode_decode : decode (.op [0x06, 1, 0, 0xFF]) = .ok (.decode [0xFF]) := by decide
theorem test_decode_isValid : decode (.op [0x07, 0x00, 0x00, 0x20, 0x01, 0, 0]) = .ok (.isValid ⟨0x01200000, []⟩) := by
  decide
theorem test_decode_setSender : decode (.op [0x08, 0x00, 0xFF, 0x20, 0x01, 0, 0, 0x40]) =
    .ok (.setSender ⟨0x0120FF00, []⟩ 0x40) := by decide
/-- The last three operands omitted: their defaults (rule R144). -/
theorem test_decode_add : decode (.op ([0x10, 5, 0x64, 0, 0, 0, 0, 0, 0, 0, 0x00, 0x00, 0x20, 0x01, 0, 0, 1, 28, 0] ++
    [0x80, 0x3E, 0, 0, 0, 0, 0, 0])) =
    .ok (.add ⟨0x01200000, []⟩ ⟨5, 100, true, 28, 16000, none, none, .ext 0⟩) := by decide
theorem test_decode_add_full : decode (.op ([0x10, 5, 0x64, 0, 0, 0, 0, 0, 0, 0, 0x00, 0x00, 0x20, 0x01, 0, 0, 0, 0, 0] ++
    z8 ++ z8 ++ [1, 0xFA, 0, 0, 0, 0, 0, 0, 0] ++ [1, 3, 0x02, 0, 0, 0])) =
    .ok (.add ⟨0x01200000, []⟩ ⟨5, 100, false, 0, 0, some 0, some 250, .func 3 0x00000002⟩) := by decide
theorem test_decode_peekNext : decode (.op [0x11, 0xE8, 0x03, 0, 0, 0, 0, 0, 0]) = .ok (.peekNext 1000) := by decide
theorem test_decode_popItem : decode (.op [0x12, 2, 1, 0, 0, 0xE8, 0x03, 0, 0, 0, 0, 0, 0]) = .ok (.popItem 258 1000) := by
  decide
theorem test_decode_cancelById : decode (.op [0x13, 2, 1, 0, 0]) = .ok (.cancelById 258) := by decide
theorem test_decode_cancelByRecipient : decode (.op [0x14, 0x20]) = .ok (.cancelByRecipient 0x20) := by decide
theorem test_decode_cancelAll : decode (.op [0x15]) = .ok .cancelAll := by decide
theorem test_decode_countRecipients : decode (.op [0x16, 0x04]) = .ok (.countRecipients 0x04) := by decide
theorem test_decode_write : decode (.op ([0x20, 0x00, 0x55, 0x20, 0x01, 0, 0, 1, 0xE8, 0x03, 0, 0, 0, 0, 0, 0] ++
    [0x88, 0x13, 0, 0, 0, 0, 0, 0, 1])) = .ok (.write ⟨0x01205500, []⟩ ⟨true, 1000, 5000, true⟩) := by decide
theorem test_decode_processEvents : decode (.op ([0x21, 0x0A, 0, 0, 0, 0, 0, 0, 0] ++ [1, 0, 1, 1, 1, 0, 0x7E, 0, 1, 0])) =
    .ok (.processEvents 10 ⟨true, false, true, some ⟨[0x7E], false, true⟩, false⟩) := by decide
theorem test_decode_isBusy : decode (.op [0x22]) = .ok .isBusy := by decide
theorem test_decode_getReadData : decode (.op [0x23]) = .ok .getReadData := by decide
theorem test_decode_tlReadTask : decode (.op [0x30, 0x0A, 0, 0, 0, 0, 0, 0, 0, 0, 1, 0, 0, 1]) =
    .ok (.tlReadTask 10 ⟨false, true, false, none, true⟩) := by decide
theorem test_decode_tlWriteTask : decode (.op [0x31, 0x64, 0, 0, 0, 0, 0, 0, 0, 1]) = .ok (.tlWriteTask 100 true) := by decide
theorem test_decode_nodeTask : decode (.op [0x40, 0x1A, 0, 0, 0, 0, 0, 0, 0, 1, 0, 0, 0, 0, 1]) =
    .ok (.nodeTask 26 ⟨true, false, false, none, false⟩ true) := by decide
theorem test_decode_nodeTxStarted : decode (.op ([0x41, 5] ++ txBytes)) = .ok (.nodeTxStarted 5 txBytesIs) := by decide
theorem test_decode_nodeTxFailed : decode (.op ([0x42, 1, 1, 0] ++ txBytes)) =
    .ok (.nodeTxFailed 1 true false txBytesIs) := by decide
theorem test_decode_nodeTxComplete : decode (.op ([0x43, 0, 1, 0x01, 0x20, 0x20, 0x05, 1, 0, 1, 0, 0, 0] ++ txBytes)) =
    .ok (.nodeTxComplete 0 (some ⟨0x05202001, [1]⟩) txBytesIs) := by decide
theorem test_decode_reset : decode (.op [0x50]) = .ok .reset := by decide
theorem test_decode_lock : decode (.op [0x60, 1]) = .ok (.lock .dev) := by decide
theorem test_decode_unlock : decode (.op [0x61, 0]) = .ok (.unlock .bus) := by decide
theorem test_decode_tryLock : decode (.op [0x62, 1]) = .ok (.tryLock .dev) := by decide
theorem test_decode_deviceInfoRequest : decode (.frame ([0x00, 0x80, 0xA0, 0x01] ++ (0 :: z8) ++ [1])) =
    .ok (.deviceInfoRequest 0xA0 0x80 0 [] (.nodeTask 0 true)) := by decide
theorem test_decode_responseDeviceInfo :
    decode (.frame ([0x02, 0x21, 0x20, 0x05, 0x01, 0, 0, 0, 0x00, 0x0F, 0x06, 0xFE] ++ (1 :: z8))) =
    .ok (.responseDeviceInfo 0x20 0x21 2 [0x00000001, 0xFE060F00] (.readTask 0)) := by decide
theorem test_decode_responseDataXfer : decode (.frame ([0x01, 0x21, 0x20, 0x08, 0x80, 0x80, 0x80, 0x7F] ++ (2 :: z8))) =
    .ok (.responseDataXfer 0x20 0x21 1 [0x7F808080] (.processEvents 0)) := by decide
theorem test_decode_getCondition : decode (.frame ([0x01, 0x40, 0x60, 0x09, 0x01, 0, 0, 0] ++ [3, 4] ++ txBytes)) =
    .ok (.getCondition 0x60 0x40 1 [1] (.txComplete 4 txBytesIs)) := by decide
theorem test_decode_getMemoryInformation : decode (.frame ([0x00, 0x00, 0x01, 0x0A] ++ (4 :: 7 :: z8) ++ [1, 3, 0])) =
    .ok (.getMemoryInformation 0x01 0x00 0 [] (.add ⟨7, 0, true, 3, 0, none, none, .ext 0⟩)) := by decide
theorem test_decode_blockRead : decode (.frame ([0x00, 0x00, 0x01, 0x0B] ++ (5 :: 0 :: z8) ++ z8 ++ [1])) =
    .ok (.blockRead 0x01 0x00 0 [] (.write ⟨false, 0, 0, true⟩)) := by decide
theorem test_decode_blockWrite : decode (.frame ([0x01, 0x00, 0x01, 0x0C, 0xEF, 0xBE, 0xAD, 0xDE] ++ (1 :: z8))) =
    .ok (.blockWrite 0x01 0x00 1 [0xDEADBEEF] (.readTask 0)) := by decide
theorem test_decode_setCondition : decode (.frame ([0x00, 0x00, 0x02, 0x0E] ++ (1 :: z8))) =
    .ok (.setCondition 0x02 0x00 0 [] (.readTask 0)) := by decide
theorem test_decode_responseFileError : decode (.frame ([0x00, 0x21, 0x20, 0xFB] ++ (1 :: z8))) =
    .ok (.responseFileError 0x20 0x21 0 [] (.readTask 0)) := by decide
theorem test_decode_responseRequestResend : decode (.frame ([0x00, 0x20, 0x20, 0xFC] ++ (1 :: z8))) =
    .ok (.responseRequestResend 0x20 0x20 0 [] (.readTask 0)) := by decide
theorem test_decode_responseUnknownCommand : decode (.frame ([0x00, 0x20, 0x20, 0xFD] ++ (1 :: z8))) =
    .ok (.responseUnknownCommand 0x20 0x20 0 [] (.readTask 0)) := by decide
theorem test_decode_responseFunctionCodeNotSupported : decode (.frame ([0x00, 0x22, 0x20, 0xFE] ++ (1 :: z8))) =
    .ok (.responseFunctionCodeNotSupported 0x20 0x22 0 [] (.readTask 0)) := by decide
/-- A reserved select code, an operand cut short, a bool that is neither 0 nor 1, another command code. -/
theorem test_decode_reserved : decode (.op [0x09]) = .error (.reservedOpsel 0x09) := by decide
theorem test_decode_short : decode (.op [0x11, 0, 0]) = .error (.malformedOperands 0x11) := by decide
theorem test_decode_bool : decode (.op ([0x31] ++ z8 ++ [2])) = .error (.malformedOperands 0x31) := by decide
theorem test_decode_unknownCommand : decode (.frame ([0x00, 0x20, 0x20, 0x07] ++ (1 :: z8))) =
    .error (.unknownCommand ⟨0x07202000, []⟩ (.readTask 0)) := by decide
/-- The opcode table's words. -/
theorem test_table_op : decodeTableWord 8 0x50 = some .reset := by decide
theorem test_table_frame : decodeTableWord 32 0x09000000 = some (.getCondition 0 0 0 [] (.nodeTask 0 false)) := by decide

/-! ### One step per instruction -/

/-! PKT: V-CRC, V-PKT, program D. -/

theorem test_crcInit : after .crcInit (State.reset.setCrc 0xFF) (·.pkt.crcAcc) = some 0x00 := by decide
theorem test_crcUpdate : after (.crcUpdate 0x60) (State.reset.setCrc 0x41) (·.pkt.crcAcc) = some 0x21 := by decide
theorem test_crcRead : resultOf .crcRead (State.reset.setCrc 0x29) = some (.byte 0x29) := by decide
theorem test_crc8_5 : resultOf (.crc8 [0x01, 0x40, 0x60, 0x09, 0x01, 0, 0, 0]) State.reset = some (.byte 0x29) := by decide
theorem test_crc8_8 : resultOf (.crc8 [0x12, 0x34, 0x56, 0x78, 0x9A]) State.reset = some (.byte 0x92) := by decide
theorem test_mkAddr : resultOf (.mkAddr 3 0x10) State.reset = some (.byte 0xD0) := by decide
theorem test_mkAddr_refused : resultOf (.mkAddr 4 0x20) State.reset = some .constructionError := by decide
theorem test_encode_10 :
    resultOf (.encode 0x0C 0x01 0x00 [0x00000002, 0x00100000, 0xDEADBEEF, 0x01020304]) State.reset =
      some (.bytes [0x04, 0x00, 0x01, 0x0C, 0x02, 0, 0, 0, 0, 0, 0x10, 0, 0xEF, 0xBE, 0xAD, 0xDE, 0x04, 0x03, 0x02, 0x01, 0x3D]) := by
  decide
theorem test_encode_31 : resultOf (.encode 0x0C 0x20 0x00 (List.replicate 256 0)) State.reset = some .constructionError := by
  simp only [resultOf, exec, execEncode, encodePacket, List.length_replicate]; rfl
theorem test_decode_7 : resultOf (.decode [0x01, 0x40, 0x60, 0x09, 0x01, 0, 0, 0, 0x29]) State.reset =
    some (.packet ⟨0x09604001, [1]⟩) := by decide
theorem test_decode_59 : resultOf (.decode [0x00, 0x00, 0x20, 0x02, 0x23]) State.reset = some (.framingError .badCrc) := by
  decide
theorem test_isValid_count : resultOf (.isValid ⟨0x01200001, []⟩) State.reset = some (.bool false) := by decide
theorem test_isValid_FE : resultOf (.isValid ⟨0xFE000000, []⟩) State.reset = some (.bool true) := by decide
theorem test_setSender_22 : resultOf (.setSender ⟨0x09200001, [1]⟩ 0x40) State.reset = some (.packet ⟨0x09204001, [1]⟩) := by
  decide

/-! SCH: V-SCH. -/

/-- V-SCH-2, its third `ADD`: behind the entries of lesser and of equal key. -/
theorem test_add_2 : after (.add (pkt 0x09 0x20 0x00 [1]) (addOps 5 0))
    { scheduled [tx 2 0 0 0x01, tx 1 0 5 0x20] with result := .done } (fun s => (ids s, s.sch.nextId, s.result)) =
      some ([2, 1, 3], 4, .id 3) := by decide
theorem test_add_11 : resultOf (.add (pkt 0x01 0x20 0x00 []) { addOps 0 0 with expectedResponseWords := 256 }) State.reset =
    some .constructionError := by decide
theorem test_peekNext_3 : resultOf (.peekNext 0) (scheduled [tx 2 0 1 0x01, tx 3 0 1 0x02, tx 1 0 2 0x01]) =
    some (.transmission (some (tx 2 0 1 0x01))) := by decide
theorem test_peekNext_3b : resultOf (.peekNext 7) (scheduled [tx 1 0 2 0x01, tx 2 5 1 0x01, tx 3 7 0 0x02]) =
    some (.transmission (some (tx 3 7 0 0x02))) := by decide
theorem test_popItem_4 : after (.popItem 1 65000) (scheduled [tx 1 17000 0 0x20 16000])
    (fun s => s.sch.schedule.map (·.nextTimeUs)) = some [81000] := by decide
theorem test_popItem_5 : after (.popItem 1 200) (scheduled [tx 1 200 0 0x20 100 (some 250)]) (fun s => (ids s, s.result)) =
    some ([], .bool true) := by decide
theorem test_cancelById_8 : after (.cancelById 2) (scheduled [tx 2 0 1 0x01, tx 1 3 1 0x20]) (fun s => (ids s, s.result)) =
    some ([1], .count 1) := by decide
theorem test_cancelByRecipient_8 : after (.cancelByRecipient 0x20)
    (scheduled [tx 1 0 1 0x20, tx 2 0 1 0x01, tx 3 5 1 0x20]) (fun s => (ids s, s.result)) = some ([2], .count 2) := by decide
theorem test_cancelByRecipient_whole : after (.cancelByRecipient 0x60) (scheduled [tx 1 0 1 0x20])
    (fun s => (ids s, s.result)) = some ([1], .count 0) := by decide
theorem test_cancelAll_12 : after .cancelAll (scheduled [tx 2 0 0 0x20, tx 1 0 5 0x01])
    (fun s => (ids s, s.sch.nextId, s.result)) = some ([], 3, .count 2) := by decide
theorem test_countRecipients_8 : resultOf (.countRecipients 0x20) (scheduled [tx 1 0 1 0x20, tx 2 0 1 0x01, tx 3 5 1 0x20]) =
    some (.count 2) := by decide

/-! BUS: V-BUS, and the time budgets that the vectors' header lists. -/

theorem test_writeTimeout : [0, 1, 2, 4, 255].map (writeTimeoutUs Config.ref) = [32, 50, 68, 105, 4732] := by decide
theorem test_readTime : [0, 1, 3, 28].map (readTimeUs Config.ref) = [131, 179, 275, 1475] := by decide
theorem test_write : after (.write (pkt 0x01 0x20 0x55 []) ⟨true, 1000, 5000, true⟩) State.reset
    (fun s => (s.out, s.bus.writeDeadline, s.bus.phase, s.result)) =
      some ([.wire [0x00, 0x00, 0x20, 0x01, 0x21]], 5032, .writeInProgress, .bool true) := by decide
theorem test_write_2 : after (.write (pkt 0x01 0x20 0x55 []) ⟨true, 1000, 0, false⟩) State.reset
    (fun s => (s.out, s.bus.phase, s.result)) = some ([], .idle, .bool false) := by decide
theorem test_processEvents_8 : after (.processEvents 5300 { frameEv f1 with txDone := true }) (inPhase .writeInProgress)
    (fun s => (s.result, s.bus.phase)) =
      some (.status ⟨.readComplete, some ⟨0x05202001, [1]⟩, .none⟩, .idle) := by decide
theorem test_processEvents_7 : resultOf (.processEvents 5010 ⟨true, true, false, none, false⟩) (inPhase .writeInProgress) =
    some (.status ⟨.writeFailed, none, .contention⟩) := by decide
theorem test_isBusy : resultOf .isBusy (inPhase .writeInProgress) = some (.bool true) := by decide
theorem test_getReadData : resultOf .getReadData (State.reset.setBus { Bus.reset with readBuffer := some ⟨0x05202001, [1]⟩ }) =
    some (.readData (some ⟨0x05202001, [1]⟩)) := by decide
theorem test_statusWord_16 :
    [statusWord ⟨.idle, none, .none⟩, statusWord ⟨.readArmed, none, .none⟩, statusWord ⟨.readComplete, some ⟨0, []⟩, .none⟩,
      statusWord ⟨.readFailed, none, .crcInvalid⟩, statusWord ⟨.writeFailed, none, .contention⟩,
      statusWord ⟨.writeFailed, none, .timeout⟩] =
    [0x00000000, 0x00000003, 0x00000045, 0x00000016, 0x0000002F, 0x0000000F] := by decide

/-! TL: V-TL, program C. -/

theorem test_tlReadTask_2 : after (.tlReadTask 10 { quiet with txDone := true }) (inPhase .writeInProgress false)
    (fun s => (s.result, s.out, s.bus.phase)) = some (.tl .nothing, [.log .resultWithoutInFlight], .idle) := by decide
theorem test_tlReadTask_C12 : after (.tlReadTask 760 { quiet with txDone := true })
    (inFlight .writeInProgress (tx 3 0 5 0x01) false) (fun s => (s.result, s.out, s.tl.inFlight)) =
      some (.tl (.completed none (tx 3 0 5 0x01)), [.callback (.txComplete (.ext 0) none (tx 3 0 5 0x01))], none) := by decide
theorem test_tlWriteTask_C13 : after (.tlWriteTask 1000 true) (scheduled [tx 2 1000 0 0x20 1000 (some 2500)])
    (fun s => (s.result, s.tl.inFlight, s.sch.schedule.map (·.nextTimeUs), s.out)) =
      some (.transmission (some (tx 2 1000 0 0x20 1000 (some 2500))), some (tx 2 1000 0 0x20 1000 (some 2500)), [2000],
        [.wire [0x01, 0x00, 0x20, 0x09, 0x01, 0, 0, 0, 0x29],
         .callback (.txStarted (.ext 0) (tx 2 1000 0 0x20 1000 (some 2500)))]) := by decide
/-- V-TL-4's dropped callback: the function is no longer there. -/
theorem test_tlReadTask_4 : after (.tlReadTask 760 { quiet with txDone := true })
    (inFlight .writeInProgress (tx 2 0 0 0x20 0 none (.func 0 1)) false) (·.out) =
      some [.dropped (.txComplete (.func 0 1) none (tx 2 0 0 0x20 0 none (.func 0 1)))] := by decide

/-! TOPO: V-TOPO, program A. -/

/-- A1: the discovery request is added and started at once. -/
theorem test_nodeTask_A1 : after (.nodeTask 0 quiet true) State.reset
    (fun s => (s.out.head?, s.bus.writeDeadline, s.sch.nextId, s.sch.schedule.map (·.nextTimeUs), (s.node 0).discoveryId)) =
      some (some (.wire [0x00, 0x00, 0x20, 0x01, 0x21]), 32, 2, [16000], some 1) := by decide
/-- A10: the third failure disconnects, the new discovery request starts. -/
theorem test_nodeTask_A10 : after (.nodeTask 3040 { quiet with contention := true } true)
    (connectedAt 0 [1] 2 ((inFlight .writeInProgress (tx 2 3000 0 0x20 1000 none (.func 0 1))).setNextId 3))
    (fun s => ((s.node 0).state, (s.node 0).failCount, s.bus.writeDeadline, s.sch.schedule.map (·.nextTimeUs), s.out.length)) =
      some (.searching, 0, 3072, [19040], 5) := by decide
theorem test_nodeTxStarted : after (.nodeTxStarted 3 (tx 1 0 0 0x04)) State.reset (·.out) =
    some [.callback (.txStarted (.node 3) (tx 1 0 0 0x04))] := by decide
theorem test_nodeTxStarted_17 : resultOf (.nodeTxStarted 6 (tx 1 0 0 0x04)) State.reset = some .constructionError := by decide
theorem test_nodeTxFailed_12 : after (.nodeTxFailed 1 false true (tx 9 0 0 0x01))
    (connectedAt 1 [0x100] 2 (connectedAt 0 [1] 0 State.reset)) (fun s => (s.node 1, (s.node 0).state, s.out.tail)) =
      some (⟨true, .searching, [], 0, none⟩, .connected, [.log (.disconnect 1), .functionDestroyed 1 0x100]) := by decide
theorem test_nodeTxFailed_13 : after (.nodeTxFailed 0 true false (tx 9 0 0 0x20))
    (connectedAt 1 [0x100] 0 (connectedAt 0 [1] 2 (scheduled [tx 2 0 0 0x20, tx 3 0 0 0x01, tx 4 0 0 0x60])))
    (fun s => (s.node 1, ids s, s.out.tail)) =
      some (⟨false, .searching, [], 0, none⟩, [4],
        [.log (.disconnect 0), .functionDestroyed 0 1, .functionDestroyed 1 0x100]) := by decide
theorem test_nodeTxComplete_4 : after (.nodeTxComplete 0 (some (pkt 0x05 0x20 0x20 [0x0000010E])) (tx 9 0 0 0x20)) State.reset
    (fun s => (s.node 0, s.out.tail)) =
      some (⟨true, .connected, [0x100, 0x8, 0x4], 0, none⟩, [.log (.moreThanThreeFunctions 0 0x10E),
        .functionCreated 0 0x100, .functionCreated 0 0x8, .functionCreated 0 0x4]) := by decide
theorem test_nodeTxComplete_10 : after (.nodeTxComplete 0 (some (pkt 0x08 0x20 0x20 [1, 0, 0])) (tx 9 0 0 0x20))
    (connectedAt 3 [2] 0 (connectedAt 0 [1] 2 (scheduled [tx 3 600 4 0x04])))
    (fun s => (s.node 3, (s.node 0).failCount, ids s, s.out.tail)) =
      some (⟨false, .searching, [], 0, none⟩, 0, [], [.functionDestroyed 3 2, .log (.subNodeGone 3)]) := by decide
/-- V-TOPO-15: the router. -/
theorem test_route_15 : [0x20, 0x04, 0x10, 0x60, 0xA0, 0x41, 0x00, 0x06, 0x21, 0x3F].map
    (fun a => route Config.ref (pkt 0x08 a 0x00 [])) =
      [some 0, some 3, some 5, some 0, some 0, some 1, none, none, none, none] := by decide
/-- V-TOPO-16: the node of an address. -/
theorem test_nodeOfAddr_16 : [0x20, 0x01, 0x10, 0x60, 0x00, 0x21, 0x03].map (nodeOfAddr Config.ref) =
    [some 0, some 1, some 5, none, none, none, none] := by decide

/-! RESET and MUTEX: V-RST-1, V-MTX-1. -/

theorem test_reset : after .reset (connectedAt 0 [1] 2 (inFlight .readArmed (tx 1 0 0 0x20)))
    (fun s => (s.bus.phase, s.tl.inFlight, s.node 0, s.sch.nextId)) =
      some (.idle, none, ⟨true, .searching, [], 0, none⟩, 1) := by decide
theorem test_lock : resultOf (.lock .bus) (State.reset.setOwner (some .bus)) = some (.lock .wouldDeadlock) := by decide
theorem test_unlock : after (.unlock .dev) (State.reset.setOwner (some .bus)) (fun s => (s.mutexOwner, s.out)) =
    some (some .bus, [.log .unlockByNonOwner]) := by decide
theorem test_unlock_frees : after (.unlock .bus) (State.reset.setOwner (some .bus)) (·.mutexOwner) = some none := by decide
theorem test_tryLock : after (.tryLock .bus) State.reset (fun s => (s.mutexOwner, s.result)) =
    some (some .bus, .lock .locked) := by decide
theorem test_tryLock_blocked : resultOf (.tryLock .dev) (State.reset.setOwner (some .bus)) = some (.lock .wouldBlock) := by
  decide

/-! Command codes: V-CMD-1 for each code, then V-CMD-2 and what `ADD` and `WRITE` do with a command's packet. -/

/-- The Main Node after a packet for it, from a connected Main Node with two failures. -/
def mainAfter (i : Instr) : Option Node := after i (connectedAt 0 [1] 2 State.reset) (·.node 0)

/-- `NODE.TXCOMPLETE` of node 0. -/
def toMain : Passage := .txComplete 0 (tx 9 0 0 0x20)

theorem test_deviceInfoRequest : mainAfter (.deviceInfoRequest 0x20 0x20 1 [1] toMain) =
    some ⟨true, .connected, [1], 0, none⟩ := by decide
theorem test_responseDeviceInfo : mainAfter (.responseDeviceInfo 0x20 0x20 1 [2] toMain) =
    some ⟨true, .connected, [2], 0, none⟩ := by decide
theorem test_responseDataXfer : mainAfter (.responseDataXfer 0x20 0x20 1 [1] toMain) =
    some ⟨true, .connected, [1], 0, none⟩ := by decide
theorem test_getCondition : mainAfter (.getCondition 0x20 0x20 1 [1] toMain) = some ⟨true, .connected, [1], 0, none⟩ := by
  decide
theorem test_getMemoryInformation : mainAfter (.getMemoryInformation 0x20 0x20 1 [1] toMain) =
    some ⟨true, .connected, [1], 0, none⟩ := by decide
theorem test_blockRead : mainAfter (.blockRead 0x20 0x20 1 [1] toMain) = some ⟨true, .connected, [1], 0, none⟩ := by decide
theorem test_blockWrite : mainAfter (.blockWrite 0x20 0x20 1 [1] toMain) = some ⟨true, .connected, [1], 0, none⟩ := by decide
theorem test_setCondition : mainAfter (.setCondition 0x20 0x20 1 [1] toMain) = some ⟨true, .connected, [1], 0, none⟩ := by
  decide
theorem test_responseFileError : mainAfter (.responseFileError 0x20 0x20 1 [1] toMain) =
    some ⟨true, .connected, [1], 0, none⟩ := by decide
theorem test_responseRequestResend : mainAfter (.responseRequestResend 0x20 0x20 1 [1] toMain) =
    some ⟨true, .connected, [1], 0, none⟩ := by decide
theorem test_responseUnknownCommand : mainAfter (.responseUnknownCommand 0x20 0x20 1 [1] toMain) =
    some ⟨true, .connected, [1], 0, none⟩ := by decide
theorem test_responseFunctionCodeNotSupported : mainAfter (.responseFunctionCodeNotSupported 0x20 0x20 1 [1] toMain) =
    some ⟨true, .connected, [1], 0, none⟩ := by decide
theorem test_responseRequestResend_2 : resultOf (.responseRequestResend 0x20 0x20 0 [] (.readTask 300))
    (inFlight .readArmed (tx 2 0 0 0x20)) = some (.tl (.completed (some ⟨0xFC202000, []⟩) (tx 2 0 0 0x20))) := by decide
theorem test_deviceInfoRequest_add : resultOf (.deviceInfoRequest 0x20 0x00 0 [] (.add (addOps 0 0))) State.reset =
    some (.id 1) := by decide
theorem test_getCondition_write : after (.getCondition 0x20 0x55 1 [1] (.write ⟨true, 1000, 1000, true⟩)) State.reset (·.out) =
    some [.wire [0x01, 0x00, 0x20, 0x09, 0x01, 0, 0, 0, 0x29]] := by decide

/-! The request port. -/

/-- A field of the state after one step. -/
def afterStep (s : State) (f : State → α) : Option α := (nextOf (step s)).map f

theorem test_step_reserved : afterStep (State.reset.setPort [.op [0x63]]) (fun s => (s.result, s.port)) =
    some (.constructionError, []) := by decide
/-- V-CMD-3: a response with an unknown command. -/
theorem test_step_unknownCommand : afterStep
    ((inFlight .readArmed (tx 2 0 0 0x20)).setPort [.frame ([0x00, 0x20, 0x20, 0x07] ++ (1 :: z8))]) (·.result) =
      some (.tl (.failed false true .framingInvalid (tx 2 0 0 0x20))) := by decide
/-- V-MTX-1: the `LOCK` that must wait stays in its place, the request behind it is taken. -/
theorem test_step_lock_waits : afterStep
    ((State.reset.setOwner (some .dev)).setPort [.op [0x60, 0], .op [0x61, 1]]) (fun s => (s.mutexOwner, s.port)) =
      some (none, [.op [0x60, 0]]) := by decide
/-- Rule R328: behind `LOCK(CTX_BUS)` the calls of the bus-facing loop stall, and `UNLOCK(CTX_DEV)` passes them. -/
theorem test_step_lock_stalls : afterStep
    ((State.reset.setOwner (some .dev)).setPort [.op [0x60, 0], encode (.nodeTask 0 quiet true), .op [0x63], .op [0x61, 1]])
      (fun s => (s.mutexOwner, s.port)) =
      some (none, [.op [0x60, 0], encode (.nodeTask 0 quiet true), .op [0x63]]) := by decide
theorem test_step_fetchWord : afterStep (State.reset.withFetchWord 8 0x23) (·.result) = some (.readData none) := by decide

/-! ### Witnesses: a state and operands that meet the hypotheses of each obligation that has some

A statement with several clauses has a witness for each. -/

/-- A known command. -/
theorem known_of_mem {c : Byte} (h : c ∈ baseCommands) : Known Config.ref c := .inl h

/-- Command 0x07 is not known to the reference configuration. -/
theorem unknown_07 : ¬ Known Config.ref 0x07 := by
  rintro (h | h)
  · exact absurd h (by decide)
  · exact absurd h (by decide)

/-- Valid packets, and one whose declared count is wrong. -/
theorem valid_pkt : Valid Config.ref (pkt 0x09 0x20 0x00 [1]) := ⟨known_of_mem (by decide), by decide⟩
theorem valid_infoMain : Valid Config.ref (pkt 0x05 0x20 0x21 [0x0000010E]) := ⟨known_of_mem (by decide), by decide⟩
theorem valid_infoSub : Valid Config.ref (pkt 0x05 0x04 0x04 [0x00000111]) := ⟨known_of_mem (by decide), by decide⟩
theorem valid_unknownBits : Valid Config.ref (pkt 0x05 0x04 0x04 [0x00000010]) := ⟨known_of_mem (by decide), by decide⟩
theorem valid_data : Valid Config.ref (pkt 0x08 0x20 0x24 [1, 0, 0]) := ⟨known_of_mem (by decide), by decide⟩
theorem invalid_pkt : ¬ Valid Config.ref ⟨0x01200001, []⟩ := fun h => absurd h.2 (by decide)

/-! PKT -/

theorem witness_CheckByteLaws : 0 < [0x5A#8].length ∧ 7 < 8 := by decide
theorem witness_AddressByte : (3#8).toNat ≤ 3 ∧ (0x3F#8).toNat ≤ 0x3F := by decide
theorem witness_AddressByte_player : 3 < (4#8).toNat ∨ 0x3F < (0#8).toNat := by decide
theorem witness_AddressByte_mask : 3 < (0#8).toNat ∨ 0x3F < (0x40#8).toNat := by decide
theorem witness_EncodeLayout : (List.replicate 255 (7 : Word)).length ≤ 255 := by rw [List.length_replicate]
theorem witness_EncodeLayout_word : [0xDEADBEEF#32][0]? = some 0xDEADBEEF#32 ∧ 3 < 4 := by decide
theorem witness_EncodeLayout_long : 255 < (List.replicate 256 (7 : Word)).length := by rw [List.length_replicate]; decide
theorem witness_DecodeChecks_length : ([0x00, 0x00, 0x20, 0x01] : List Byte).length < 5 := by decide
theorem witness_DecodeChecks_count : (([0x01, 0x00, 0x20, 0x01, 0x20] : List Byte).getD 0 0).toNat ≠ (5 - 5) / 4 := by decide
theorem witness_DecodeChecks_crc : (([0x00, 0x00, 0x20, 0x01, 0x20] : List Byte).take 4).foldl (fun acc b => acc ^^^ b) 0x00 ≠
    ([0x00, 0x00, 0x20, 0x01, 0x20] : List Byte).getD 4 0 := by decide
theorem witness_DecodeChecks_unknown : ¬ Known State.reset.cfg (([0x00, 0x20, 0x20, 0x07, 0x07] : List Byte).getD 3 0) :=
  unknown_07
theorem witness_DecodeChecks_known : Known State.reset.cfg (([0x00, 0x00, 0x20, 0x01, 0x21] : List Byte).getD 3 0) :=
  known_of_mem (by decide)
theorem witness_PacketRoundTrip : Known State.reset.cfg 0xFE ∧ (List.replicate 255 (0 : Word)).length ≤ 255 :=
  ⟨known_of_mem (by decide), by rw [List.length_replicate]⟩
theorem witness_PacketRoundTrip_back : exec (.decode [0x00, 0x00, 0x20, 0x01, 0x21]) State.reset =
    .next { State.reset with result := .packet ⟨0x01200000, []⟩ } := rfl
theorem witness_BitFlipRejected : exec (.encode 0x01 0x20 0x00 []) State.reset =
    .next { State.reset with result := .bytes [0x00, 0x00, 0x20, 0x01, 0x21] } ∧
    0 < ([0x00, 0x00, 0x20, 0x01, 0x21] : List Byte).length ∧ 4 < ([0x00, 0x00, 0x20, 0x01, 0x21] : List Byte).length ∧ 7 < 8 :=
  ⟨rfl, by decide, by decide, by decide⟩

/-! SCH -/

/-- After reset, with a schedule of this capacity and this next id. -/
def withCapacity (c : Option Nat) (l : List Transmission) (nextId : Nat) : State :=
  { State.reset with sch := ⟨l, nextId⟩, cfg := { Config.ref with schedCapacity := c } }

/-- The last place of a schedule of capacity 1, the last id, the greatest response size. -/
theorem witness_AddOperation : let s := withCapacity (some 1) [] (2 ^ 32 - 1)
    Valid s.cfg (pkt 0x09 0x20 0x00 [1]) ∧ { addOps 0 0 with expectedResponseWords := 255 }.expectedResponseWords ≤ 255 ∧
      (∀ n, s.cfg.schedCapacity = some n → s.sch.schedule.length < n) ∧ s.sch.nextId ≤ 2 ^ 32 - 1 :=
  ⟨⟨known_of_mem (by decide), by decide⟩, by decide, fun n h => by cases h; decide, by decide⟩
theorem witness_AddOperation_refused_packet : ¬ Valid State.reset.cfg ⟨0x01200001, []⟩ := invalid_pkt
theorem witness_AddOperation_refused_words : 255 < { addOps 0 0 with expectedResponseWords := 256 }.expectedResponseWords := by decide
theorem witness_AddOperation_refused_full : let s := withCapacity (some 1) [tx 1 0 0 0x20] 2
    ∃ n, s.cfg.schedCapacity = some n ∧ n ≤ s.sch.schedule.length := ⟨1, rfl, by decide⟩
theorem witness_AddOperation_refused_ids : 2 ^ 32 - 1 < (withCapacity none [] (2 ^ 32)).sch.nextId := by decide

/-- The two schedules that the witnesses below use. -/
def two : State := scheduled [tx 1 0 2 0x01, tx 2 5 1 0x02]
def repeating : State := scheduled [tx 1 100 0 0x20 100 (some 250)]

theorem inv_two : SchedInv two := ⟨by decide, by decide, by decide, by decide, by decide, nofun, by decide⟩
theorem inv_repeating : SchedInv repeating := ⟨by decide, by decide, by decide, by decide, by decide, nofun, by decide⟩

theorem eligible_two : EligibleAt two.sch.schedule 5 0 := ⟨_, rfl, by decide, fun _ _ h => absurd h (Nat.not_lt_zero _)⟩
theorem eligible_two_second : EligibleAt two.sch.schedule 5 1 := by
  refine ⟨_, rfl, by decide, fun j b hj hb => ?_⟩
  obtain rfl : j = 0 := by omega
  cases hb; decide

theorem witness_PeekNextChooses : exec (.peekNext 5) two =
    .next { two with result := .transmission (some (tx 2 5 1 0x02)) } ∧ EligibleAt two.sch.schedule 5 1 :=
  ⟨rfl, eligible_two_second⟩
theorem witness_PeekNextChooses_none : exec (.peekNext 99) repeating = .next { repeating with result := .transmission none } :=
  rfl
theorem witness_OrderingConsequences : SchedInv two ∧ 0 < 1 ∧ EligibleAt two.sch.schedule 5 0 ∧
    EligibleAt two.sch.schedule 5 1 := ⟨inv_two, by decide, eligible_two, eligible_two_second⟩
theorem witness_PopItem_absent : SchedInv two ∧ ∀ x ∈ two.sch.schedule, x.id ≠ 9 := ⟨inv_two, by decide⟩
theorem witness_PopItem_oneShot : SchedInv two ∧ tx 2 5 1 0x02 ∈ two.sch.schedule ∧ (tx 2 5 1 0x02).autoRepeatUs = 0 :=
  ⟨inv_two, by decide, rfl⟩
/-- Popped at 200 the next time would be 300, past the end; popped at 100 it is 200. -/
theorem witness_PopItem_ends : SchedInv repeating ∧ tx 1 100 0 0x20 100 (some 250) ∈ repeating.sch.schedule ∧
    IsNextTime 100 100 200 300 ∧ ∃ e, (some 250 : Option Nat) = some e ∧ e < 300 :=
  ⟨inv_repeating, by decide, ⟨by decide, ⟨2, by decide⟩, fun k _ h => by omega⟩, 250, rfl, by decide⟩
theorem witness_PopItem_repeats : SchedInv repeating ∧ tx 1 100 0 0x20 100 (some 250) ∈ repeating.sch.schedule ∧
    IsNextTime 100 100 100 200 ∧ ∀ e, (some 250 : Option Nat) = some e → 200 ≤ e :=
  ⟨inv_repeating, by decide, ⟨by decide, ⟨1, by decide⟩, fun k _ h => by omega⟩, fun e h => by cases h; decide⟩
theorem witness_CancelAndCount : SchedInv two := inv_two
theorem witness_CanceledNeverPeeked : SchedInv two ∧ (∃ y ∈ two.sch.schedule, y.recipient = 0x01) ∧
    Instr.reset ∉ [.add (pkt 0x09 0x01 0x00 [1]) (addOps 0 0), .popItem 2 5] := ⟨inv_two, by decide, by simp⟩
theorem witness_AbsentIdStaysAbsent : let s := (scheduled [tx 2 5 1 0x02, tx 3 5 1 0x02]).setPort [.op [0x15], .op [0x63]]
    1 < s.sch.nextId ∧ (∀ x ∈ s.sch.schedule, x.id ≠ 1) ∧ Instr.cancelAll ≠ .reset ∧ ∀ r ∈ s.port, decode r ≠ .ok .reset := by
  refine ⟨by decide, by decide, nofun, fun r hr => ?_⟩
  rcases List.mem_pair.mp hr with rfl | rfl <;> exact nofun

/-! BUS -/

theorem witness_WriteOperation : State.reset.bus.phase = .idle ∧ (WriteOperands.mk true 1000 5000 true).lineOpen = true ∧
    Valid State.reset.cfg (pkt 0x09 0x20 0x00 [1]) := ⟨rfl, rfl, valid_pkt⟩
theorem witness_WriteOperation_rejected_busy : (inPhase .readArmed).bus.phase ≠ .idle := by decide
theorem witness_WriteOperation_rejected_line : (WriteOperands.mk true 1000 5000 false).lineOpen = false := rfl
theorem witness_WriteOperation_rejected_packet : ¬ Valid State.reset.cfg ⟨0x01200001, []⟩ := invalid_pkt
theorem witness_PollWriting_idle : State.reset.bus.phase = .idle := rfl
/-- In each case of the write stage; 5033 is the first time past the deadline. -/
theorem witness_PollWriting : (inPhase .writeInProgress).bus.phase = .writeInProgress ∧ quiet.contention = false ∧
    quiet.txDone = false ∧ (inPhase .writeInProgress).bus.writeDeadline < 5033 ∧
    ¬ (inPhase .writeInProgress).bus.writeDeadline < 5032 := by decide
theorem witness_PollArmed : (inPhase .readArmed).bus.phase = .readArmed ∧
    ¬ (quiet.rxStarted = true ∨ quiet.rxFrame ≠ none ∨ quiet.rxOverflow = true) ∧
    (inPhase .readArmed).bus.tArmed + (inPhase .readArmed).bus.readTimeoutUs < 6027 ∧
    ¬ (inPhase .readArmed).bus.tArmed + (inPhase .readArmed).bus.readTimeoutUs < 6026 := by decide
theorem witness_PollArmed_event : (inPhase .readArmed).bus.phase = .readArmed ∧ (frameEv f1).rxFrame ≠ none := by decide
theorem witness_PollReading_overflow : (inPhase .readInProgress).bus.phase = .readInProgress ∧
    { frameEv f1 with rxOverflow := true }.rxOverflow = true := by decide
theorem witness_PollReading_frame : (inPhase .readInProgress).bus.phase = .readInProgress ∧ (frameEv f1).rxOverflow = false ∧
    (frameEv f1).rxFrame = some ⟨f1, true, true⟩ ∧
    exec (.decode f1) (inPhase .readInProgress) =
      .next { inPhase .readInProgress with result := .packet ⟨0x05202001, [1]⟩ } := ⟨rfl, rfl, rfl, rfl⟩
theorem witness_PollReading_badLength : exec (.decode [0x00, 0x20, 0x20, 0x05]) (inPhase .readInProgress) =
    .next { inPhase .readInProgress with result := .framingError .badLength } := rfl
theorem witness_PollReading_badCrc : exec (.decode [0x00, 0x20, 0x20, 0x05, 0x04]) (inPhase .readInProgress) =
    .next { inPhase .readInProgress with result := .framingError .badCrc } := rfl
theorem witness_PollReading_unknown : exec (.decode [0x00, 0x20, 0x20, 0x02, 0x02]) (inPhase .readInProgress) =
    .next { inPhase .readInProgress with result := .framingError .unknownCommand } := rfl
theorem witness_PollReading_tooLong : (inPhase .readInProgress).cfg.rxBufferBytes < (List.replicate 1026 (0 : Byte)).length := by
  rw [List.length_replicate]; decide
theorem witness_PollReading_quiet : quiet.rxOverflow = false ∧ quiet.rxFrame = none ∧
    (inPhase .readInProgress).bus.tReadStart + (inPhase .readInProgress).cfg.frameReadTimeoutUs < 20501 ∧
    ¬ (inPhase .readInProgress).bus.tReadStart + (inPhase .readInProgress).cfg.frameReadTimeoutUs < 20500 := by decide
theorem witness_StatusShape : PhaseInv (inPhase .writeInProgress) ∧ ∃ p, resultOf (.processEvents 5300
    { frameEv f1 with txDone := true }) (inPhase .writeInProgress) = some (.status ⟨.readComplete, some p, .none⟩) :=
  ⟨rfl, ⟨0x05202001, [1]⟩, by decide⟩
theorem witness_ReadCompleteIsValid : PhaseInv (inPhase .readInProgress) ∧ ∃ t,
    exec (.processEvents 6000 (frameEv f1)) (inPhase .readInProgress) = .next t ∧
      t.result = .status ⟨.readComplete, some ⟨0x05202001, [1]⟩, .none⟩ ∧ Instr.reset ∉ [Instr.processEvents 9000 quiet, .isBusy] ∧
      ∃ u, execAll [.processEvents 9000 quiet, .isBusy] t = .next u ∧ ∀ bs, Event.wire bs ∉ u.out.drop t.out.length :=
  ⟨rfl, _, rfl, by decide, by simp, _, rfl, fun bs h => List.not_mem_nil (show Event.wire bs ∈ [] from h)⟩
/-- An instruction that puts bytes on the wire, one that does not from an idle bus, and a poll that completes a read. -/
theorem witness_ReadBufferKept : Instr.tlWriteTask 5 true ≠ .reset ∧
    after (.tlWriteTask 5 true) two (fun t => (t.out.head? == some (.wire t.bus.txBytes), t.bus.phase)) =
      some (true, .writeInProgress) ∧
    after (.tlWriteTask 5 false) two (fun t => (t.out, t.bus.phase)) = some ([], .idle) ∧
    after (.processEvents 6000 (frameEv f1)) (inPhase .readInProgress) (fun t => (t.out, t.bus.phase, t.bus.readBuffer)) =
      some ([], .idle, some ⟨0x05202001, [1]⟩) := ⟨nofun, by decide, by decide, by decide⟩
theorem witness_OnlyBusOperationsWriteBus : reachesBus .cancelAll = false := rfl
/-- The first times that pass each deadline. -/
theorem witness_ThreeLatePollsFree : let s := inPhase .writeInProgress
    PhaseInv s ∧ s.bus.writeDeadline < 20501 ∧ s.bus.tArmed + s.bus.readTimeoutUs < 20501 ∧
      s.bus.tReadStart + s.cfg.frameReadTimeoutUs < 20501 ∧ 20501 + s.bus.readTimeoutUs < 21502 ∧ 20501 ≤ 21502 ∧
      21502 + s.cfg.frameReadTimeoutUs < 36503 := ⟨rfl, by decide⟩

/-! TL -/

/-- A transmission in flight in each phase that a poll can end: the terminal phases that the polls report. -/
theorem witness_ReadHalf : (inFlight .readArmed (tx 1 0 0 0x20)).tl.inFlight = some (tx 1 0 0 0x20) ∧
    resultOf (.processEvents 5300 (frameEv f1)) (inFlight .readArmed (tx 1 0 0 0x20)) =
      some (.status ⟨.readComplete, some ⟨0x05202001, [1]⟩, .none⟩) ∧
    resultOf (.processEvents 6027 quiet) (inFlight .readArmed (tx 1 0 0 0x20)) =
      some (.status ⟨.readFailed, none, .timeout⟩) ∧
    resultOf (.processEvents 5033 quiet) (inFlight .writeInProgress (tx 1 0 0 0x20)) =
      some (.status ⟨.writeFailed, none, .timeout⟩) ∧
    resultOf (.processEvents 5026 { quiet with txDone := true }) (inFlight .writeInProgress (tx 1 0 0 0x20) false) =
      some (.status ⟨.writeComplete, none, .none⟩) := by decide
theorem witness_ReadHalf_none : (inPhase .writeInProgress).tl.inFlight = none ∧
    resultOf (.processEvents 5033 quiet) (inPhase .writeInProgress) = some (.status ⟨.writeFailed, none, .timeout⟩) ∧
    resultOf (.processEvents 5032 quiet) (inPhase .writeInProgress) = some (.status ⟨.writeInProgress, none, .none⟩) := by
  decide
theorem witness_WriteHalf_nothing : (inPhase .readArmed).bus.phase ≠ .idle ∧
    (State.reset.setInFlight (some (tx 1 0 0 0x20))).tl.inFlight ≠ none ∧ peekNext State.reset.sch.schedule 0 = none := by decide
theorem witness_WriteHalf : peekNext two.sch.schedule 5 = some (tx 2 5 1 0x02) ∧ two.bus.phase = .idle ∧
    two.tl.inFlight = none ∧ Valid two.cfg (tx 2 5 1 0x02).packet := ⟨by decide, rfl, rfl, known_of_mem (by decide), by decide⟩
/-- A state that no run reaches: the schedule holds a packet that is not valid. -/
theorem witness_WriteHalf_invalid : let t : Transmission := { tx 1 0 0 0x20 with packet := ⟨0x01200001, []⟩ }
    peekNext (scheduled [t]).sch.schedule 0 = some t ∧ ¬ Valid (scheduled [t]).cfg t.packet := ⟨by decide, invalid_pkt⟩
theorem witness_TimelinerInvKept : bypassesTimeliner (.tlWriteTask 5 true) = false ∧ TimelinerInv two ∧
    ∃ t, exec (.tlWriteTask 5 true) two = .next t :=
  ⟨rfl, ⟨⟨fun _ => rfl, fun _ => rfl⟩, nofun⟩, _, rfl⟩

/-! TOPO -/

theorem witness_RoutingByAddress : State.reset.cfg.routeKey = .recipient ∧
    route State.reset.cfg (pkt 0x08 0x44 0x00 []) = some 3 ∧ route State.reset.cfg (pkt 0x08 0x06 0x00 []) = none ∧
    (tx 1 0 0 0x04).recipient = nodeAddr State.reset.cfg 3 ∧ ∀ j, (tx 1 0 0 0x60).recipient ≠ nodeAddr State.reset.cfg j := by
  decide
theorem witness_RoutingByAddress_node : (3#8).toNat = (3 : Fin 6).val ∧ Valid State.reset.cfg (pkt 0x05 0x04 0x04 [0x00000111]) :=
  ⟨by decide, valid_infoSub⟩
theorem witness_RoutingByAddress_sender : { Config.ref with routeKey := .sender }.routeKey = .sender := rfl
/-- Nodes 0, 2 and 4 want a discovery request; the schedule has room for two (V-TOPO-11, with a capacity). -/
def searchers : State :=
  ((withCapacity (some 2) [] 1).setNode 2 ⟨true, .searching, [], 0, none⟩).setNode 4 ⟨true, .searching, [], 0, none⟩
theorem test_nodeTask_refused : after (.nodeTask 10 quiet false) searchers
    (fun t => (ids t, t.sch.nextId, [0, 2, 4].map (fun k => (t.node k).discoveryId), t.out)) =
      some ([1, 2], 3, [some 1, some 2, none], [.log .discoveryRefused]) := by decide
theorem witness_DiscoveryRequest : searchers.bus.phase = .idle ∧
    ([0, 1, 2, 3, 4, 5] : List (Fin 6)).filter (fun k =>
      searchers.isPresent k && (searchers.node k).state == .searching && (searchers.node k).discoveryId == none) = [0, 2, 4] ∧
    searchers.cfg.discoveryExpectedWords ≤ 255 ∧ searchers.cfg.schedCapacity = some 2 ∧
    searchers.sch.schedule.length + 1 < 2 ∧ ¬ searchers.sch.schedule.length + 2 < 2 ∧ searchers.sch.nextId + 2 ≤ 2 ^ 32 - 1 := by
  decide
theorem witness_SearchersHaveDiscoveryIds : State.reset.cfg.discoveryExpectedWords ≤ 255 ∧
    State.reset.cfg.schedCapacity = none ∧ State.reset.sch.nextId + 5 ≤ 2 ^ 32 - 1 := by decide
theorem witness_NodeIndexAndStart : (5#8).toNat = (5 : Fin 6).val ∧ 5 < (6#8).toNat := by decide
theorem witness_FailureOperation_nothing : (1#8).toNat = (1 : Fin 6).val ∧ State.reset.isPresent 1 = false ∧
    (State.reset.node 0).state = .searching := by decide
theorem witness_FailureOperation_counted : let s := connectedAt 0 [1] 1 State.reset
    (0#8).toNat = (0 : Fin 6).val ∧ s.isPresent 0 = true ∧ (s.node 0).state = .connected ∧
      (s.node 0).failCount + 1 < s.cfg.failThreshold := by decide
theorem witness_FailureOperation_threshold : let s := connectedAt 0 [1] 2 State.reset
    (0#8).toNat = (0 : Fin 6).val ∧ s.isPresent 0 = true ∧ (s.node 0).state = .connected ∧
      s.cfg.failThreshold ≤ (s.node 0).failCount + 1 := by decide
theorem witness_FailureOperation_threshold_sub : let s := connectedAt 5 [1] 2 State.reset
    (5#8).toNat = (5 : Fin 6).val ∧ s.isPresent 5 = true ∧ (s.node 5).state = .connected ∧
      s.cfg.failThreshold ≤ (s.node 5).failCount + 1 := by decide

/-- A property of every code of the reference table. -/
theorem forall_codes {P : Word → Prop} (h1 : P 0x1) (h2 : P 0x2) (h4 : P 0x4) (h8 : P 0x8) (h100 : P 0x100) :
    ∀ c ∈ Config.ref.functionTable.map (·.code), P c := by
  intro c hc
  have : c = 0x1 ∨ c = 0x2 ∨ c = 0x4 ∨ c = 0x8 ∨ c = 0x100 := by simpa [Config.ref] using hc
  rcases this with rfl | rfl | rfl | rfl | rfl <;> assumption

/-- A present Sub Node (node 3), searching with the discovery request 1. -/
def sub2 : State := State.reset.setNode 3 ⟨true, .searching, [], 0, some 1⟩

/-- The mask 0x111: two recognized bits, and bit 4, which no code has. -/
theorem witness_PacketObserved_connects : (3#8).toNat = (3 : Fin 6).val ∧ (3 : Fin 6) ≠ 0 ∧ sub2.cfg.wf = true ∧
    sub2.isPresent 3 = true ∧ Valid sub2.cfg (pkt 0x05 0x04 0x04 [0x00000111]) ∧
    (pkt 0x05 0x04 0x04 [0x00000111]).command = 0x05 ∧
    (∃ c ∈ sub2.cfg.functionTable.map (·.code), (0x00000111#32) &&& c ≠ 0) ∧
    ∃ i, (0x00000111#32).getLsbD i = true ∧ ∀ c ∈ sub2.cfg.functionTable.map (·.code), c.getLsbD i = false :=
  ⟨by decide, by decide, by decide, by decide, valid_infoSub, by decide, ⟨0x1, by decide,
    by decide⟩, 4, by decide, forall_codes (by decide) (by decide) (by decide) (by decide) (by decide)⟩
/-- The mask 0x10E: four recognized bits and no other. -/
theorem witness_PacketObserved_four : (∃ c ∈ sub2.cfg.functionTable.map (·.code), (0x0000010E#32) &&& c ≠ 0 ∧
    c ∉ [0x100#32, 0x8#32, 0x4#32]) ∧ (0x0000010E#32) &&& ~~~(recognizedMask sub2.cfg) = 0 :=
  ⟨⟨0x2, by decide, by decide, by decide⟩, by decide⟩
theorem witness_PacketObserved : (3#8).toNat = (3 : Fin 6).val ∧ (3 : Fin 6) ≠ 0 ∧ sub2.isPresent 3 = true ∧
    Valid sub2.cfg (pkt 0x08 0x20 0x24 [1, 0, 0]) ∧ (pkt 0x08 0x20 0x24 [1, 0, 0]).command ≠ 0x05 :=
  ⟨by decide, by decide, by decide, valid_data, by decide⟩
theorem witness_PacketObserved_unknown : Valid sub2.cfg (pkt 0x05 0x04 0x04 [0x00000010]) ∧
    (pkt 0x05 0x04 0x04 [0x00000010]).command = 0x05 ∧
    ∀ c ∈ sub2.cfg.functionTable.map (·.code), (0x00000010#32) &&& c = 0 :=
  ⟨valid_unknownBits, by decide, forall_codes (by decide) (by decide) (by decide) (by decide) (by decide)⟩
/-- The Main Node, where Sub Node 3 (bit 2) alone is present and bit 2 of the sender byte alone is set. -/
theorem witness_PacketObserved_main : (0#8).toNat = (0 : Fin 6).val ∧
    (∀ j : Fin 6, j ≠ 0 → (sub2.node j).present = (pkt 0x08 0x20 0x24 [1, 0, 0]).sender.getLsbD (j.val - 1)) ∧
    sub2.isPresent 0 = true ∧ Valid sub2.cfg (pkt 0x08 0x20 0x24 [1, 0, 0]) :=
  ⟨by decide, by decide, by decide, valid_data⟩
theorem witness_PacketIgnored : (1#8).toNat = (1 : Fin 6).val ∧ State.reset.isPresent 1 = false ∧
    ¬ Valid State.reset.cfg ⟨0x01200001, []⟩ := ⟨by decide, by decide, invalid_pkt⟩
/-- Bit 2 of the sender 0x24 is set and bit 1 is not: node 3 comes, a present node 2 goes with its transmission. -/
theorem witness_PresenceFollowsSender : let s := connectedAt 2 [1] 0 (scheduled [tx 1 0 0 0x02])
    let p := pkt 0x08 0x20 0x24 [1, 0, 0]
    (0#8) = 0 ∧ Valid s.cfg p ∧ (2 : Fin 6) ≠ 0 ∧ (s.node 2).present = true ∧ p.sender.getLsbD 1 = false ∧
      p.sender.getLsbD 2 = true ∧ (tx 1 0 0 0x02).recipient = nodeAddr s.cfg 2 :=
  ⟨rfl, valid_data, by decide, by decide, by decide, by decide, by decide⟩
theorem witness_PresenceFollowsSender_unknown : Valid State.reset.cfg (pkt 0x05 0x04 0x04 [0x00000010]) ∧
    ((pkt 0x05 0x04 0x04 [0x00000010]).command = 0x05 →
      ∀ c ∈ State.reset.cfg.functionTable.map (·.code), (0x00000010#32) &&& c = 0) :=
  ⟨valid_unknownBits, fun _ => forall_codes (by decide) (by decide) (by decide) (by decide) (by decide)⟩
/-- Bit 0 of the sender 0x21 is set and bit 1 is not: node 1 comes, a present node 2 goes (step B2 of program B). -/
theorem witness_MainNodeConnects_presence : let s := connectedAt 2 [1] 0 (scheduled [tx 1 0 0 0x02])
    s.cfg.wf = true ∧ (s.node 2).present = true ∧ (pkt 0x05 0x20 0x21 [0x0000010E]).sender.getLsbD 1 = false ∧
      (s.node 1).present = false ∧ (pkt 0x05 0x20 0x21 [0x0000010E]).sender.getLsbD 0 = true ∧
      after (.nodeTxComplete 0 (some (pkt 0x05 0x20 0x21 [0x0000010E])) (tx 9 0 0 0x20)) s (fun t => (ids t, t.out)) =
        some ([], [.callback (.txComplete (.node 0) (some (pkt 0x05 0x20 0x21 [0x0000010E])) (tx 9 0 0 0x20)),
          .log (.subNodePresent 1), .functionDestroyed 2 1, .log (.subNodeGone 2), .log (.moreThanThreeFunctions 0 0x10E),
          .functionCreated 0 0x100, .functionCreated 0 0x8, .functionCreated 0 0x4]) := by
  decide
theorem witness_MainNodeConnects : (0#8) = 0 ∧ State.reset.cfg.wf = true ∧
    Valid State.reset.cfg (pkt 0x05 0x20 0x21 [0x0000010E]) ∧ (pkt 0x05 0x20 0x21 [0x0000010E]).command = 0x05 ∧
    ∃ c ∈ State.reset.cfg.functionTable.map (·.code), (0x0000010E#32) &&& c ≠ 0 :=
  ⟨rfl, by decide, valid_infoMain, by decide, 0x2, by decide, by decide⟩

/-! MUTEX, the command codes, the port, the invariants -/

theorem witness_MutexOperations_free : State.reset.mutexOwner = none := rfl
theorem witness_MutexOperations_own : (State.reset.setOwner (some .bus)).mutexOwner = some .bus := rfl
theorem witness_MutexOperations_other : Context.dev ≠ .bus ∧ (State.reset.setOwner (some .dev)).mutexOwner = some .dev ∧
    (State.reset.setOwner (some .dev)).mutexOwner ≠ some .bus := by decide
theorem witness_CommandsPassThrough : (0x09, Instr.getCondition) ∈ commandInstrs ∧ ([1] : List Word).length = (1 : Byte).toNat :=
  ⟨by simp [commandInstrs], by decide⟩
theorem witness_CommandsOutbound : (0x09, Instr.getCondition) ∈ commandInstrs ∧ ([1] : List Word).length = (1 : Byte).toNat ∧
    (addOps 0 0).expectedResponseWords ≤ 255 ∧
    (∀ c, (withCapacity (some 1) [] 1).cfg.schedCapacity = some c → (withCapacity (some 1) [] 1).sch.schedule.length < c) ∧ State.reset.sch.nextId ≤ 2 ^ 32 - 1 ∧
    State.reset.bus.phase = .idle ∧ (WriteOperands.mk true 1000 0 true).lineOpen = true :=
  ⟨by simp [commandInstrs], by decide, by decide, fun c h => by cases h; decide, by decide, rfl, rfl⟩
theorem witness_CommandsInbound : let s := inFlight .readArmed (tx 1 0 0 0x20)
    (0xFC, Instr.responseRequestResend) ∈ commandInstrs ∧ ([] : List Word).length = (0 : Byte).toNat ∧
      (s.bus.phase = .readArmed ∨ s.bus.phase = .readInProgress) ∧ s.tl.inFlight = some (tx 1 0 0 0x20) ∧
      5 + 4 * ([] : List Word).length ≤ s.cfg.rxBufferBytes :=
  ⟨by simp [commandInstrs], by decide, .inl rfl, rfl, by decide⟩
theorem witness_StepRunsDecoded : let s := State.reset.setPort [.op [0x22]]
    s.port = .op [0x22] :: [] ∧ decode (.op [0x22]) = .ok .isBusy ∧
      ∀ ctx, Instr.isBusy = .lock ctx → s.mutexOwner = none ∨ s.mutexOwner = some ctx := ⟨rfl, rfl, nofun⟩
theorem witness_StepRunsDecoded_empty : State.reset.port = [] := rfl
/-- Behind `LOCK(CTX_BUS)` two calls of the bus-facing loop and an `UNLOCK(CTX_DEV)`. -/
theorem witness_LockWaits :
    let held := [encode (.nodeTask 0 quiet true), .op [0x22]]
    let s := (State.reset.setOwner (some .dev)).setPort (encode (.lock .bus) :: held ++ [.op [0x61, 1]])
    Context.dev ≠ .bus ∧ s.mutexOwner = some .dev ∧
      (∀ r ∈ held, ∃ i, decode r = .ok i ∧ issuer i = some .bus) ∧ decode (.op [0x61, 1]) = .ok (.unlock .dev) ∧
      issuer (.unlock .dev) ≠ some .bus ∧ s.port = encode (.lock .bus) :: held ++ .op [0x61, 1] :: [] := by
  refine ⟨by decide, rfl, fun r hr => ?_, rfl, by decide, rfl⟩
  rcases List.mem_pair.mp hr with rfl | rfl
  exacts [⟨.nodeTask 0 quiet true, by decide, rfl⟩, ⟨.isBusy, rfl, rfl⟩]
theorem witness_LockWaits_alone :
    ((State.reset.setOwner (some .dev)).setPort [encode (.lock .bus)]).port = encode (.lock .bus) :: [] := rfl
theorem witness_LockWaits_nodeTask : decode (encode (.nodeTask 0 quiet true)) = .ok (.nodeTask 0 quiet true) ∧
    ((State.reset.setOwner (some .dev)).setPort [encode (.lock .bus), encode (.nodeTask 0 quiet true)]).port =
      encode (.lock .bus) :: [] ++ [encode (.nodeTask 0 quiet true)] := ⟨by decide, rfl⟩
theorem witness_ReservedCodesRefused : (0x63 : Byte) ∉ opselCodes ∧
    (State.reset.setPort [.op [0x63]]).port = .op (0x63 :: []) :: [] := ⟨by decide, rfl⟩
theorem witness_UnknownCommandsRefused : let s := (inPhase .readInProgress).setPort [putFrame 0x07 0x20 0x20 0 [] (.processEvents 9)]
    ¬ Known s.cfg 0x07 ∧ wfFrame 0 [] (.processEvents 9) = true ∧ wfFrame 0 [] (.add (addOps 0 0)) = true ∧
      wfFrame 0 [] (.write ⟨true, 0, 0, true⟩) = true ∧ s.port = putFrame 0x07 0x20 0x20 0 [] (.processEvents 9) :: [] ∧
      s.bus.phase = .readInProgress ∧ 5 + 4 * ([] : List Word).length ≤ s.cfg.rxBufferBytes :=
  ⟨unknown_07, by decide, by decide, by decide, rfl, rfl, by decide⟩
theorem witness_DecodeEncode : (Instr.peekNext (2 ^ 64 - 1)).wf = true := by decide
theorem witness_DecodedWellFormed : decode (.op [0x22]) = .ok .isBusy := rfl
theorem witness_SchedInvKept : SchedInv (two.setPort [.op [0x15]]) ∧ ∃ t, step (two.setPort [.op [0x15]]) = .next t :=
  ⟨⟨by decide, by decide, by decide, by decide, by decide, nofun, by decide⟩, _, rfl⟩
theorem witness_PhaseInvKept : let s := (inPhase .readArmed).setPort [encode (.processEvents 9000 quiet)]
    PhaseInv s ∧ ∃ t, step s = .next t := ⟨rfl, _, rfl⟩
/-- A connected Sub Node with two functions and two failures. -/
theorem witness_TopoInvKept : let s := (connectedAt 3 [0x100, 0x2] 2 State.reset).setPort [.op [0x15]]
    TopoInv s ∧ ∃ t, step s = .next t := by
  refine ⟨⟨by decide, fun k => ?_⟩, _, rfl⟩
  have hn : ∀ j : Fin 6, ((connectedAt 3 [0x100, 0x2] 2 State.reset).setPort [.op [0x15]]).node j =
      if j = 3 then ⟨true, .connected, [0x100, 0x2], 2, none⟩ else Node.reset (j == 0) := by decide
  have hc : ((connectedAt 3 [0x100, 0x2] 2 State.reset).setPort [.op [0x15]]).cfg = Config.ref := rfl
  have hm : 0x100 ∈ Config.ref.functionTable.map (·.code) ∧ 0x2 ∈ Config.ref.functionTable.map (·.code) := by decide
  have ht : Config.ref.failThreshold = 3 := rfl
  generalize (connectedAt 3 [0x100, 0x2] 2 State.reset).setPort [.op [0x15]] = s at hn hc
  by_cases hk : k = 3
  · constructor <;> simp only [State.isPresent, hn, hc, ht, if_pos hk] <;> simp
    exact ⟨by simpa using hm.1, by simpa using hm.2⟩
  · constructor <;> simp only [State.isPresent, hn, hc, ht, if_neg hk, Node.reset] <;> simp
theorem witness_OwnedState : Instr.isBusy ≠ .reset ∧ Instr.isBusy ≠ .crcInit ∧ (∀ b, Instr.isBusy ≠ .crcUpdate b) ∧
    ∀ ctx, Instr.isBusy ≠ .lock ctx ∧ Instr.isBusy ≠ .unlock ctx ∧ Instr.isBusy ≠ .tryLock ctx :=
  ⟨nofun, nofun, nofun, fun _ => ⟨nofun, nofun, nofun⟩⟩

end Sys2Proof.Tests
end

section
/-! SUPPORT. The state after `RESET` (rules R55, R310), and which node a packet and a failed transmission concern (rules
R42, R217, R218, R222, R237): `nodeOfAddr`, `subIndex` and `route` by the addresses they answer for. -/

namespace Sys2Proof.Machine

/-! ### RESET (rules R55, R310) -/

@[simp] theorem exec_reset (s : State) : exec .reset s = .next (resetState s) := rfl

/-- Every node after reset searches, with nothing; the Main Node alone is present (rule R55). -/
theorem resetState_node (s : State) (k : Fin 6) : (resetState s).node k = Node.reset (k == 0) :=
  (show ∀ j : Fin 6, Topo.reset.nodes[j] = Node.reset (j == 0) by decide) k

/-- Settles O42: `RESET` answers `resetState`, whose fields other than the nodes are literals. -/
theorem resetValues : Obligations.ResetValues := by
  unfold Obligations.ResetValues
  intro s
  exact ⟨resetState s, exec_reset s, rfl, rfl, rfl, rfl, resetState_node s, rfl, rfl, rfl⟩

/-! ### Addresses of nodes (rules R7, R42, R125) -/

/-- The masks of rule R7 as numbers: 0x20 for the Main Node, one low bit for each Sub Node. -/
theorem nodeMask_toNat (k : Fin 6) :
    (nodeMask k).toNat = (#v[0x20, 0x01, 0x02, 0x04, 0x08, 0x10] : Vector Nat 6)[k] :=
  (show ∀ j : Fin 6, (nodeMask j).toNat = (#v[0x20, 0x01, 0x02, 0x04, 0x08, 0x10] : Vector Nat 6)[j] by decide) k

theorem nodeMask_injective : Function.Injective nodeMask := by decide

/-- Bit 5 of a mask marks the Main Node. -/
theorem nodeMask_bit_five (k : Fin 6) : (nodeMask k).getLsbD 5 = true ↔ k = 0 :=
  (show ∀ j : Fin 6, (nodeMask j).getLsbD 5 = true ↔ j = 0 by decide) k

/-- The player index in bits 7:6 and the mask below it share no bit, so the address is their sum (rule R42). -/
theorem nodeAddr_toNat (cfg : Config) (k : Fin 6) :
    (nodeAddr cfg k).toNat = 64 * cfg.playerIndex.val + (nodeMask k).toNat :=
  (show ∀ (i : Fin 4) (j : Fin 6),
    (addrByte (BitVec.ofNat 8 i.val) (nodeMask j)).toNat = 64 * i.val + (nodeMask j).toNat by decide) cfg.playerIndex k

theorem nodeAddr_injective (cfg : Config) : Function.Injective (nodeAddr cfg) := by
  intro j k h
  apply nodeMask_injective
  apply BitVec.eq_of_toNat_eq
  have hsum := congrArg BitVec.toNat h
  rw [nodeAddr_toNat, nodeAddr_toNat] at hsum
  omega

/-- The low six bits of a byte, as a number. -/
theorem low_six_toNat (a : Byte) : (a &&& 0x3F).toNat = a.toNat % 64 := by
  rw [BitVec.toNat_and]
  exact Nat.and_two_pow_sub_one_eq_mod a.toNat 6

theorem low_six_eq_nodeMask_iff (a : Byte) (k : Fin 6) : a &&& 0x3F = nodeMask k ↔ a.toNat % 64 = (nodeMask k).toNat := by
  rw [← low_six_toNat, BitVec.toNat_inj]

/-! ### The node of an address (rules R217, R218, R237) -/

/-- Where at most one element of a list passes, `find?` answers an element iff it is in the list and passes. -/
theorem find?_eq_some_iff_of_unique {α : Type} {l : List α} {p : α → Bool}
    (unique : ∀ x y, p x = true → p y = true → x = y) (k : α) : l.find? p = some k ↔ k ∈ l ∧ p k = true := by
  constructor
  · exact fun h => ⟨List.mem_of_find?_eq_some h, List.find?_some h⟩
  · rintro ⟨hmem, hk⟩
    obtain ⟨x, hx⟩ := Option.isSome_iff_exists.mp (List.find?_isSome.mpr ⟨k, hmem, hk⟩)
    rw [hx, unique x k (List.find?_some hx) hk]

theorem mem_nodeIndices (k : Fin 6) : k ∈ nodeIndices := (show ∀ j : Fin 6, j ∈ nodeIndices by decide) k

theorem mem_subIndices_iff (k : Fin 6) : k ∈ subIndices ↔ k ≠ 0 :=
  (show ∀ j : Fin 6, j ∈ subIndices ↔ j ≠ 0 by decide) k

/-- `NodeOfAddr` compares the whole byte (rule R237). -/
theorem nodeOfAddr_eq_some_iff (cfg : Config) (a : Byte) (k : Fin 6) : nodeOfAddr cfg a = some k ↔ a = nodeAddr cfg k := by
  rw [nodeOfAddr, find?_eq_some_iff_of_unique]
  · rw [and_iff_right (mem_nodeIndices k), beq_iff_eq, eq_comm]
  · intro x y hx hy
    exact nodeAddr_injective cfg ((beq_iff_eq.mp hx).trans (beq_iff_eq.mp hy).symm)

theorem nodeOfAddr_eq_none_iff (cfg : Config) (a : Byte) : nodeOfAddr cfg a = none ↔ ∀ j, a ≠ nodeAddr cfg j := by
  simp only [Option.eq_none_iff_forall_ne_some, ne_eq, nodeOfAddr_eq_some_iff]

/-- `SubIndex` answers the Sub Node of a mask, never the Main Node (rule R218). -/
theorem subIndex_eq_some_iff (a : Byte) (k : Fin 6) : subIndex a = some k ↔ k ≠ 0 ∧ a = nodeMask k := by
  rw [subIndex, find?_eq_some_iff_of_unique]
  · rw [mem_subIndices_iff, beq_iff_eq]
  · intro x y hx hy
    exact nodeMask_injective ((beq_iff_eq.mp hx).symm.trans (beq_iff_eq.mp hy))

/-- By recipient, a packet goes to the node whose mask stands in the low six bits (rule R217). -/
theorem route_recipient_iff {cfg : Config} (h : cfg.routeKey = .recipient) (p : Packet) (k : Fin 6) :
    route cfg p = some k ↔ p.recipient &&& 0x3F = nodeMask k := by
  simp only [route, h]
  split
  next hmain => rw [hmain, Option.some_inj]; exact (nodeMask_injective.eq_iff (a := 0)).symm
  next hsub =>
    rw [subIndex_eq_some_iff, and_iff_right_iff_imp]
    rintro hk rfl
    exact hsub hk

/-- By sender, a packet goes to the Main Node where bit 5 is set, else to the Sub Node of the mask (rule R217). -/
theorem route_sender_iff {cfg : Config} (h : cfg.routeKey = .sender) (p : Packet) (k : Fin 6) :
    route cfg p = some k ↔
      (k = 0 ∧ p.sender.getLsbD 5 = true) ∨ (k ≠ 0 ∧ p.sender &&& 0x3F = nodeMask k) := by
  have hbit : (p.sender &&& 0x3F).getLsbD 5 = p.sender.getLsbD 5 := by simp
  simp only [route, h, hbit]
  split
  next hmain =>
    have hnosub : ¬(k ≠ 0 ∧ p.sender &&& 0x3F = nodeMask k) := fun ⟨hk, e⟩ =>
      hk ((nodeMask_bit_five k).mp (by rw [← e, hbit, hmain]))
    rw [or_iff_left hnosub, and_iff_left hmain, Option.some_inj, eq_comm]
  next hsub => simp only [subIndex_eq_some_iff, hsub, Bool.false_eq_true, and_false, false_or]

/-! ### The reactions to a completed read and to a failure (rules R221, R222) -/

theorem handleCompleted_of_route {s : State} {p : Packet} {k : Fin 6} (h : route s.cfg p = some k) :
    handleCompleted p s = observe k p s := by simp only [handleCompleted, h]

theorem handleCompleted_of_no_route {s : State} {p : Packet} (h : route s.cfg p = none) : handleCompleted p s = s := by
  simp only [handleCompleted, h]

theorem handleFailed_of_nodeAddr {s : State} {t : Transmission} {k : Fin 6} (h : t.recipient = nodeAddr s.cfg k) :
    handleFailed t s = countFailure k s := by
  simp only [handleFailed, (nodeOfAddr_eq_some_iff s.cfg t.recipient k).mpr h]

theorem handleFailed_of_no_node {s : State} {t : Transmission} (h : ∀ j, t.recipient ≠ nodeAddr s.cfg j) :
    handleFailed t s = s := by
  simp only [handleFailed, (nodeOfAddr_eq_none_iff s.cfg t.recipient).mpr h]

/-- An operation that reads neither trace nor result, run behind an event and then answering, does what it does alone but
for that event and for the result. -/
theorem respond_after_emit {f : State → State} (commutes : ∀ past r s, f (s.rebase past r) = (f s).rebase past r)
    (s : State) (e : Event) (r : Result) : ∃ es : List Event,
      ((f (s.emit e)).respond r).out = s.out ++ [e] ++ es ∧
      f s = { (f (s.emit e)).respond r with out := s.out ++ es, result := s.result } := by
  have halone := eq_rebase_of_commutes s commutes
  have hbehind := eq_rebase_of_commutes (s.emit e) commutes
  rw [halone, hbehind]
  exact ⟨(f { s with out := [] }).out, rfl, rfl⟩

/-- `NODE.TXCOMPLETE` of a valid packet is its callback, then `Observe` (rule R243). -/
theorem exec_nodeTxComplete_valid {b : Byte} {k : Fin 6} (hb : b.toNat = k.val) {s : State} {p : Packet}
    (hp : Valid s.cfg p) (t : Transmission) : exec (.nodeTxComplete b (some p) t) s =
      .next ((observe k p (s.emit (.callback (.txComplete (.node k) (some p) t)))).respond .done) := by
  rw [exec_nodeTxComplete hb, if_pos ((isValid_iff_valid s.cfg p).mpr hp)]

/-- Settles O33: the routes and addresses by their `↔`, the two operations by what commutes with an event in front. -/
theorem routingByAddress : Obligations.RoutingByAddress := by
  unfold Obligations.RoutingByAddress
  intro s p t k
  simp only [← nodeMask_toNat, ← low_six_eq_nodeMask_iff]
  refine ⟨nodeAddr_toNat s.cfg k, fun h => route_recipient_iff h p k, fun h => route_sender_iff h p k,
    handleCompleted_of_route, handleCompleted_of_no_route, handleFailed_of_nodeAddr, handleFailed_of_no_node,
    fun b hb => ⟨fun hp => ?_, fun w r => ?_⟩⟩
  · obtain ⟨es, hout, hobserve⟩ := respond_after_emit (f := observe k p)
      (fun past r s => observe_rebase past r s k p) s (.callback (.txComplete (.node k) (some p) t)) .done
    exact ⟨_, es, exec_nodeTxComplete_valid hb hp t, hout, hobserve⟩
  · obtain ⟨es, hout, hcount⟩ := respond_after_emit (f := countFailure k)
      (fun past r s => countFailure_rebase past r s k) s (.callback (.txFailed (.node k) w r t)) .done
    exact ⟨_, es, exec_nodeTxFailed hb w r t s, hout, hcount⟩

end Sys2Proof.Machine
end

section
/-! SUPPORT. What the packet unit's operations answer (rules R121 to R129): the parity of each bit of the check byte, the
address byte as a sum, the bytes of a serialised packet by their places, and the checks of `DECODE` one by one. -/

namespace Sys2Proof.Machine

/-! ### The streaming generator (rules R121 to R123) -/

/-- Settles O1: each operation is one field update and a result. -/
theorem streamOperations : Obligations.StreamOperations := by
  unfold Obligations.StreamOperations
  exact fun _ _ => ⟨rfl, rfl, rfl⟩

/-! ### The check byte (rules R120, R124) -/

theorem exec_crc8 (bs : List Byte) (s : State) : exec (.crc8 bs) s = .next { s with result := .byte (crc8 bs) } := rfl

theorem foldl_xor_zero (bs : List Byte) : bs.foldl (fun acc b => acc ^^^ b) 0x00 = crc8 bs := rfl

/-- XOR adds each bit modulo two (rule R120). -/
theorem getLsbD_crc8_iff (bs : List Byte) (i : Nat) :
    (crc8 bs).getLsbD i = true ↔ bs.countP (fun b => b.getLsbD i) % 2 = 1 := by
  induction bs with
  | nil => simp
  | cons b bs ih =>
    rw [crc8_cons, BitVec.getLsbD_xor, List.countP_cons]
    cases b.getLsbD i with
    | false => simpa using ih
    | true =>
      have hflip : (true ^^ (crc8 bs).getLsbD i) = true ↔ ¬(crc8 bs).getLsbD i = true := by simp
      rw [hflip, ih, if_pos rfl]
      omega

/-- A string followed by its own check byte gives zero (rule R124). -/
theorem crc8_append_crc8 (bs : List Byte) : crc8 (bs ++ [crc8 bs]) = 0x00 := by
  simp [crc8_append]

/-- Settles O2: bit parity by induction, and the corner cases by how `crc8` meets append and a change of one byte. -/
theorem checkByteLaws : Obligations.CheckByteLaws := by
  unfold Obligations.CheckByteLaws
  intro s xs ys
  simp only [foldl_xor_zero]
  refine ⟨exec_crc8 xs s, fun i _ => getLsbD_crc8_iff xs i, exec_crc8 [] s, ?_, ?_, fun i h k _ => ?_⟩
  · rw [exec_crc8, crc8_append_crc8]
  · rw [exec_crc8, crc8_append]
  · rw [exec_crc8, crc8_set]

/-! ### The address byte (rule R125) -/

/-- A player index of at most 3 stands in bits 7:6 and a mask of at most 0x3F below it, so the OR is a sum. -/
theorem addrByte_toNat {player mask : Byte} (hp : player.toNat ≤ 3) (hm : mask.toNat ≤ 0x3F) :
    (addrByte player mask).toNat = 64 * player.toNat + mask.toNat := by
  have hshift : (player <<< 6).toNat = player.toNat <<< 6 := by
    rw [BitVec.toNat_shiftLeft, Nat.shiftLeft_eq, Nat.mod_eq_of_lt (by omega)]
  rw [addrByte, BitVec.toNat_or, hshift, ← Nat.shiftLeft_add_eq_or_of_lt (by omega : mask.toNat < 2 ^ 6),
    Nat.shiftLeft_eq]
  omega

/-- Settles O4: the refusal's condition is the negation of the two bounds. -/
theorem addressByte : Obligations.AddressByte := by
  unfold Obligations.AddressByte
  intro s player mask
  refine ⟨fun ⟨hp, hm⟩ => ⟨addrByte player mask, addrByte_toNat hp hm, ?_⟩, fun hout => if_pos hout⟩
  exact if_neg (by omega)

/-! ### The bytes of a packet (rules R61, R92) -/

/-- Byte b of the string is byte b of the frame word. -/
theorem packetBytes_getElem?_frame (p : Packet) {b : Nat} (hb : b < 4) :
    (packetBytes p)[b]? = some (p.frameWord.extractLsb' (8 * b) 8) := by
  rw [packetBytes, bodyBytes, List.append_assoc, List.getElem?_append_left (by rwa [length_wordBytes]),
    wordBytes_getElem? _ _ hb]

/-- Byte 4 + 4·j + b of the string is byte b of payload word j. -/
theorem packetBytes_getElem?_payload {p : Packet} {j b : Nat} {w : Word} (hw : p.payload[j]? = some w) (hb : b < 4) :
    (packetBytes p)[4 + 4 * j + b]? = some (w.extractLsb' (8 * b) 8) := by
  rw [packetBytes, bodyBytes, List.append_assoc, List.getElem?_append_right (by rw [length_wordBytes]; omega),
    length_wordBytes, show 4 + 4 * j + b - 4 = 4 * j + b by omega, wordsBytes_getElem? _ _ _ _ _ hw hb]

/-- The last byte of the string is the check byte of those before it. -/
theorem packetBytes_getElem?_check (p : Packet) :
    (packetBytes p)[4 + 4 * p.payload.length]? =
      some (crc8 ((packetBytes p).take (4 + 4 * p.payload.length))) := by
  rw [← length_bodyBytes p.frameWord, packetBytes, List.getElem?_concat_length, List.take_left]

/-! ### ENCODE (rule R126) -/

theorem exec_encode_of_length_le {ws : List Word} (h : ws.length ≤ 255) (c r a : Byte) (s : State) :
    exec (.encode c r a ws) s =
      .next { s with result := .bytes (packetBytes (framePacket c r a (BitVec.ofNat 8 ws.length) ws)) } := by
  simp only [exec, execEncode, encodePacket_eq c r a ws h, State.respond]

theorem exec_encode_of_length_gt {ws : List Word} (h : 255 < ws.length) (c r a : Byte) (s : State) :
    exec (.encode c r a ws) s = .next { s with result := .constructionError } := by
  simp only [exec, execEncode, encodePacket, if_pos h, refuse_eq]

/-- Settles O5: `ENCODE` answers `packetBytes` of the packet of its operands, whose bytes are known by their places. -/
theorem encodeLayout : Obligations.EncodeLayout := by
  unfold Obligations.EncodeLayout
  intro s c r a ws
  refine ⟨fun h => ⟨_, exec_encode_of_length_le h c r a s, ?_⟩, fun h => exec_encode_of_length_gt h c r a s⟩
  refine ⟨length_packetBytes _, ?_, ?_, ?_, ?_, fun j w b hw hb => packetBytes_getElem?_payload hw hb,
    packetBytes_getElem?_check _⟩ <;> simp [packetBytes_eq]

/-! ### DECODE (rule R127) -/

section
variable {cfg : Config} {bs : List Byte}

theorem decodeBytes_of_bad_length (h : bs.length < 5 ∨ (bs.length - 1) % 4 ≠ 0) :
    decodeBytes cfg bs = .error .badLength := if_pos h

/-- A declared count that is not the number of words present is the second check's error. -/
theorem decodeBytes_of_wrong_count (h : (byteAt bs 0).toNat ≠ (bs.length - 5) / 4) :
    decodeBytes cfg bs = .error .badLength := by
  rw [decodeBytes, if_pos h, ite_self]

variable (hlength : ¬(bs.length < 5 ∨ (bs.length - 1) % 4 ≠ 0)) (hcount : ¬(byteAt bs 0).toNat ≠ (bs.length - 5) / 4)
include hlength hcount

theorem decodeBytes_of_bad_crc (h : crc8 (bs.take (bs.length - 1)) ≠ byteAt bs (bs.length - 1)) :
    decodeBytes cfg bs = .error .badCrc := by
  rw [decodeBytes, if_neg hlength, if_neg hcount, if_pos h]

variable (hcrc : ¬crc8 (bs.take (bs.length - 1)) ≠ byteAt bs (bs.length - 1))
include hcrc

theorem decodeBytes_of_unknown_command (h : ¬Known cfg (byteAt bs 3)) :
    decodeBytes cfg bs = .error .unknownCommand := by
  rw [← isKnown_iff_known, Bool.not_eq_true] at h
  rw [decodeBytes, if_neg hlength, if_neg hcount, if_neg hcrc, if_pos h]

/-- A string that passes all four checks has a packet. -/
theorem decodeBytes_of_known_command (h : Known cfg (byteAt bs 3)) : ∃ p, decodeBytes cfg bs = .ok p := by
  rw [← isKnown_iff_known] at h
  rw [decodeBytes, if_neg hlength, if_neg hcount, if_neg hcrc, if_neg (by rw [h]; decide)]
  exact ⟨_, rfl⟩

end

theorem exec_decode_of_error {s : State} {bs : List Byte} {e : FramingError} (h : decodeBytes s.cfg bs = .error e) :
    exec (.decode bs) s = .next { s with result := .framingError e } := by
  simp only [exec, execDecode, h, State.respond]

theorem exec_decode_of_ok {s : State} {bs : List Byte} {p : Packet} (h : decodeBytes s.cfg bs = .ok p) :
    exec (.decode bs) s = .next { s with result := .packet p } := by
  simp only [exec, execDecode, h, State.respond]

/-- Settles O6: each check by its lemma. The string that passes them all is the bytes of the packet it decodes to
(rule R130), so the packet's words stand in it where `packetBytes` lays them. -/
theorem decodeChecks : Obligations.DecodeChecks := by
  unfold Obligations.DecodeChecks
  intro s bs
  split
  next hlength => exact exec_decode_of_error (decodeBytes_of_bad_length hlength)
  next hlength =>
  split
  next hcount => exact exec_decode_of_error (decodeBytes_of_wrong_count hcount)
  next hcount =>
  split
  next hcrc => exact exec_decode_of_error (decodeBytes_of_bad_crc hlength hcount hcrc)
  next hcrc =>
  refine ⟨fun hunknown => exec_decode_of_error (decodeBytes_of_unknown_command hlength hcount hcrc hunknown),
    fun hknown => ?_⟩
  obtain ⟨p, hp⟩ := decodeBytes_of_known_command hlength hcount hcrc hknown
  obtain ⟨-, rfl⟩ := decodeBytes_ok hp
  refine ⟨p, exec_decode_of_ok hp, fun b hb => packetBytes_getElem?_frame p hb, ?_,
    fun j w b hw hb => packetBytes_getElem?_payload hw hb⟩
  rw [length_packetBytes]
  omega

/-! ### ISVALID and SETSENDER (rules R128, R129) -/

/-- Settles O7: the answer is `isValid`, which decides `Valid`. -/
theorem validityRule : Obligations.ValidityRule := by
  unfold Obligations.ValidityRule
  exact fun s p => ⟨isValid s.cfg p, rfl, isValid_iff_valid s.cfg p⟩

/-- The sender byte is no part of validity (rule R129). -/
theorem valid_setSender_iff (cfg : Config) (p : Packet) (a : Byte) : Valid cfg (setSender p a) ↔ Valid cfg p := by
  rw [← isValid_iff_valid, isValid_setSender, isValid_iff_valid]

/-- Settles O8: the answer is `setSender`, field by field. -/
theorem senderOverwrite : Obligations.SenderOverwrite := by
  unfold Obligations.SenderOverwrite
  exact fun s p a => ⟨setSender p a, rfl, rfl, rfl, setSender_sender p a, setSender_command p a,
    setSender_recipient p a, setSender_count p a, valid_setSender_iff s.cfg p a⟩

end Sys2Proof.Machine
end

section
/-! SUPPORT. What the scheduler's operations answer and leave (rules R142 to R154): the durations as roundings up, the four
refusals of `ADD`, the first least eligible entry, the popped schedule, and ids that never come back. -/

namespace Sys2Proof.Machine

/-! ### Durations (rules R143, R176) -/

/-- `ceilDiv` is the least quotient that covers the dividend (rule R9). -/
theorem ceilDiv_spec (a : Nat) {b : Nat} (hb : 0 < b) : a ≤ b * ceilDiv a b ∧ b * ceilDiv a b < a + b := by
  have hdiv := Nat.div_add_mod (a + b - 1) b
  have hmod := Nat.mod_lt (a + b - 1) hb
  unfold ceilDiv
  omega

/-- Settles O12: the three times are `ceilDiv`s, of 1000 and of 100000. -/
theorem timeBudgets : Obligations.TimeBudgets := by
  unfold Obligations.TimeBudgets
  intro cfg n m
  exact ⟨writeTimeUs cfg n, ceilDiv (frameBits cfg m * cfg.rxTBitNs) 1000, writeTimeoutUs cfg n, ⟨rfl, rfl⟩, rfl,
    ceilDiv_spec _ (by decide), ceilDiv_spec _ (by decide), ceilDiv_spec _ (by decide)⟩

/-! ### ADD (rules R142, R144) -/

theorem scheduleFull_eq_false_iff (s : State) :
    scheduleFull s = false ↔ ∀ n, s.cfg.schedCapacity = some n → s.sch.schedule.length < n := by
  unfold scheduleFull
  cases s.cfg.schedCapacity with
  | none => simp
  | some n => simp

/-- The four conditions of `ADD`, in the words of rule R144. -/
theorem addRefuses_eq_false_iff (p : Packet) (a : AddOperands) (s : State) : addRefuses p a s = false ↔
    Valid s.cfg p ∧ a.expectedResponseWords ≤ 255 ∧
      (∀ n, s.cfg.schedCapacity = some n → s.sch.schedule.length < n) ∧ s.sch.nextId ≤ 2 ^ 32 - 1 := by
  rw [addRefuses_false_iff, isValid_iff_valid, scheduleFull_eq_false_iff, lastId]

theorem exec_add_of_accepts {p : Packet} {a : AddOperands} {s : State} (h : addRefuses p a s = false) :
    exec (.add p a) s = .next { s with
      sch := ⟨insertTx (newTransmission p a s) s.sch.schedule, s.sch.nextId + 1⟩, result := .id s.sch.nextId } := by
  simp only [exec, execAdd, opAdd, addTx, h]
  rfl

theorem exec_add_of_refuses {p : Packet} {a : AddOperands} {s : State} (h : addRefuses p a s = true) :
    exec (.add p a) s = .next { s with result := .constructionError } := by
  simp only [exec, execAdd, opAdd, addTx, h]
  rfl

/-- Settles O11: the refusal is the negation of the four conditions, the place is `insertTx_insertedAt`. -/
theorem addOperation : Obligations.AddOperation := by
  unfold Obligations.AddOperation
  intro s p a
  refine ⟨fun hvalid hwords hroom hid => ?_, fun hcause => exec_add_of_refuses ?_⟩
  · exact ⟨_, exec_add_of_accepts ((addRefuses_eq_false_iff p a s).mpr ⟨hvalid, hwords, hroom, hid⟩),
      insertTx_insertedAt _ _⟩
  · by_contra haccepts
    rw [Bool.not_eq_true, addRefuses_eq_false_iff] at haccepts
    obtain ⟨hvalid, hwords, hroom, hid⟩ := haccepts
    rcases hcause with hinvalid | hmany | ⟨n, hn, hfull⟩ | hlast
    · exact hinvalid hvalid
    · omega
    · exact absurd (hroom n hn) (by omega)
    · omega

/-! ### PEEKNEXT (rule R147) -/

theorem exec_peekNext (now : Nat) (s : State) :
    exec (.peekNext now) s = .next { s with result := .transmission (peekNext s.sch.schedule now) } := rfl

/-- Entry k of `l` is `x`, and it is eligible where the entries of `ahead` stand before the list. -/
def EligibleBehind (now : Nat) (ahead l : List Transmission) (k : Nat) (x : Transmission) : Prop :=
  l[k]? = some x ∧ eligible (ahead ++ l.take k) x now = true

theorem eligibleBehind_zero_iff {now : Nat} {ahead rest : List Transmission} {a x : Transmission} :
    EligibleBehind now ahead (a :: rest) 0 x ↔ a = x ∧ eligible ahead x now = true := by
  simp [EligibleBehind]

theorem eligibleBehind_succ_iff {now k : Nat} {ahead rest : List Transmission} {a x : Transmission} :
    EligibleBehind now ahead (a :: rest) (k + 1) x ↔ EligibleBehind now (ahead ++ [a]) rest k x := by
  simp [EligibleBehind]

/-- Without entries ahead, this is eligibility of a position. -/
theorem eligibleBehind_nil_iff {l : List Transmission} {now k : Nat} {x : Transmission} :
    EligibleBehind now [] l k x ↔ l[k]? = some x ∧ EligibleAt l now k := by
  rw [EligibleBehind, eligibleAt_iff, List.nil_append]
  constructor
  · exact fun ⟨hx, he⟩ => ⟨hx, x, hx, he⟩
  · rintro ⟨hx, a, ha, he⟩
    obtain rfl : x = a := Option.some.inj (hx.symm.trans ha)
    exact ⟨hx, he⟩

/-- Entry k of `l` is `t`, an eligible entry of least priority number, and no earlier one is of this priority. -/
def FirstLeastAt (now : Nat) (ahead l : List Transmission) (k : Nat) (t : Transmission) : Prop :=
  EligibleBehind now ahead l k t ∧ ∀ j x, EligibleBehind now ahead l j x →
    t.priority.toNat ≤ x.priority.toNat ∧ (x.priority = t.priority → k ≤ j)

/-- An eligible head is chosen where no eligible entry behind it has a lower priority number. -/
theorem firstLeastAt_zero {now : Nat} {ahead rest : List Transmission} {a : Transmission}
    (ha : eligible ahead a now = true)
    (hrest : ∀ j x, EligibleBehind now (ahead ++ [a]) rest j x → a.priority.toNat ≤ x.priority.toNat) :
    FirstLeastAt now ahead (a :: rest) 0 a := by
  refine ⟨eligibleBehind_zero_iff.mpr ⟨rfl, ha⟩, fun j x hx => ⟨?_, fun _ => Nat.zero_le j⟩⟩
  cases j with
  | zero => obtain ⟨rfl, -⟩ := eligibleBehind_zero_iff.mp hx; exact le_rfl
  | succ j => exact hrest j x (eligibleBehind_succ_iff.mp hx)

/-- What is chosen behind the head is chosen with it, where the head, if eligible, has a higher priority number. -/
theorem FirstLeastAt.cons {now k : Nat} {ahead rest : List Transmission} {a t : Transmission}
    (h : FirstLeastAt now (ahead ++ [a]) rest k t)
    (ha : eligible ahead a now = true → t.priority.toNat < a.priority.toNat) :
    FirstLeastAt now ahead (a :: rest) (k + 1) t := by
  obtain ⟨hk, hleast⟩ := h
  refine ⟨eligibleBehind_succ_iff.mpr hk, fun j x hx => ?_⟩
  cases j with
  | zero =>
    obtain ⟨rfl, he⟩ := eligibleBehind_zero_iff.mp hx
    exact ⟨(ha he).le, fun e => absurd (congrArg BitVec.toNat e) (ha he).ne'⟩
  | succ j =>
    obtain ⟨hle, hfirst⟩ := hleast j x (eligibleBehind_succ_iff.mp hx)
    exact ⟨hle, fun e => Nat.succ_le_succ (hfirst e)⟩

/-- `leastPriority` chooses among the eligible entries as rule R147 says. -/
theorem leastPriority_eligibleEntries {now : Nat} {ahead l : List Transmission} {t : Transmission}
    (h : leastPriority (eligibleEntries now ahead l) = some t) : ∃ k, FirstLeastAt now ahead l k t := by
  induction l generalizing ahead t with
  | nil => cases h
  | cons a rest ih =>
    simp only [eligibleEntries] at h
    split at h
    next ha =>
      simp only [leastPriority] at h
      split at h
      next hnone =>
        cases h
        refine ⟨0, firstLeastAt_zero ha fun j x hx => ?_⟩
        have hmem := (mem_eligibleEntries now (ahead ++ [a]) rest x).mpr ⟨j, hx⟩
        rw [(leastPriority_eq_none _).mp hnone] at hmem
        cases hmem
      next b hb =>
        obtain ⟨k, hchosen⟩ := ih hb
        split at h <;> cases h
        next hlt => exact ⟨k + 1, hchosen.cons fun _ => hlt⟩
        next hge => exact ⟨0, firstLeastAt_zero ha fun j x hx => (not_lt.mp hge).trans (hchosen.2 j x hx).1⟩
    next ha =>
      obtain ⟨k, hchosen⟩ := ih h
      exact ⟨k + 1, hchosen.cons fun he => absurd he ha⟩

/-- Settles O13: the answer is `peekNext`, which chooses over positions as rule R147 says. -/
theorem peekNextChooses : Obligations.PeekNextChooses := by
  unfold Obligations.PeekNextChooses
  intro s now
  refine ⟨peekNext s.sch.schedule now, exec_peekNext now s, (peekNext_eq_none _ now).mp, fun t ht => ?_⟩
  obtain ⟨k, hk, hleast⟩ := leastPriority_eligibleEntries ht
  obtain ⟨hkt, hke⟩ := eligibleBehind_nil_iff.mp hk
  exact ⟨k, hkt, hke, fun j x hj hx => hleast j x (eligibleBehind_nil_iff.mpr ⟨hx, hj⟩)⟩

/-! ### POPITEM (rule R150) -/

theorem repeats_iff (x : Transmission) (now : Nat) : repeats x now = true ↔
    0 < x.autoRepeatUs ∧ ∀ e, x.autoRepeatEndUs = some e → repeatTime x now ≤ e := by
  unfold repeats
  cases x.autoRepeatEndUs <;> simp

theorem isNextTime_repeatTime (x : Transmission) (now : Nat) (h : 0 < x.autoRepeatUs) :
    IsNextTime x.nextTimeUs x.autoRepeatUs now (repeatTime x now) := by
  obtain ⟨k, hk, hsum, hlater, hleast⟩ := repeatTime_spec x now h
  exact ⟨hlater, ⟨k, hk, hsum⟩, hleast⟩

/-- Of distinct ids, taking out the first entry with an id takes out all that have it. -/
theorem eraseP_id_eq_filter {l : List Transmission} (h : (l.map (·.id)).Nodup) (id : Nat) :
    l.eraseP (fun y => y.id == id) = l.filter (fun y => y.id != id) := by
  induction l with
  | nil => rfl
  | cons a l ih =>
    rw [List.map_cons, List.nodup_cons] at h
    obtain ⟨hnew, hrest⟩ := h
    by_cases ha : a.id = id
    · have hall : ∀ y ∈ l, (y.id != id) = true := fun y hy =>
        bne_iff_ne.mpr fun e => hnew (List.mem_map.mpr ⟨y, hy, e.trans ha.symm⟩)
      simp [ha, List.filter_eq_self.mpr hall]
    · simp [ha, ih hrest]

/-- Of distinct ids, an id names one entry. -/
theorem eq_of_id_eq {l : List Transmission} (h : (l.map (·.id)).Nodup) {x y : Transmission} (hx : x ∈ l) (hy : y ∈ l)
    (e : x.id = y.id) : x = y := List.inj_on_of_nodup_map h hx hy e

/-- A pop of an entry of distinct ids. -/
theorem popSchedule_of_mem {l : List Transmission} (h : (l.map (·.id)).Nodup) {x : Transmission} (hx : x ∈ l) (now : Nat) :
    popSchedule x.id now l = some
      (if repeats x now then insertTx { x with nextTimeUs := repeatTime x now } (l.filter (fun y => y.id != x.id))
       else l.filter (fun y => y.id != x.id)) := by
  rcases popSchedule_cases x.id now l with ⟨habsent, -⟩ | ⟨y, hy, hid, rest, rfl, -, -, hpop⟩
  · exact absurd rfl (habsent x hx)
  · obtain rfl := eq_of_id_eq h hy hx hid
    rw [hpop, eraseP_id_eq_filter h]

theorem exec_popItem_of_none {s : State} {id now : Nat} (h : popSchedule id now s.sch.schedule = none) :
    exec (.popItem id now) s = .next { s with result := .bool false } := by
  simp only [exec, execPopItem, popItem, h, State.respond]

theorem exec_popItem_of_some {s : State} {id now : Nat} {l : List Transmission}
    (h : popSchedule id now s.sch.schedule = some l) :
    exec (.popItem id now) s = .next { s with sch := ⟨l, s.sch.nextId⟩, result := .bool true } := by
  simp only [exec, execPopItem, popItem, h, State.respond, State.setSchedule]

theorem popSchedule_of_absent {id : Nat} {l : List Transmission} (h : ∀ x ∈ l, x.id ≠ id) (now : Nat) :
    popSchedule id now l = none := by
  rcases popSchedule_cases id now l with ⟨-, hpop⟩ | ⟨x, hx, hid, -⟩
  · exact hpop
  · exact absurd hid (h x hx)

/-- Settles O15: the entry of the id is put back exactly where it `repeats`, at its `repeatTime`. -/
theorem Scheduler.popItem : Obligations.PopItem := by
  unfold Obligations.PopItem
  intro s id now hinv
  refine ⟨fun habsent => exec_popItem_of_none (popSchedule_of_absent habsent now), fun x hx hid => ?_⟩
  subst hid
  have hpop := popSchedule_of_mem hinv.idsDistinct hx now
  refine ⟨fun hshot => exec_popItem_of_some ?_,
    fun hperiod => ⟨repeatTime x now, isNextTime_repeatTime x now hperiod, fun ⟨e, he, hend⟩ => exec_popItem_of_some ?_,
      fun hend => ⟨_, exec_popItem_of_some ?_, insertTx_insertedAt _ _⟩⟩⟩
  · rw [hpop, if_neg]
    rw [repeats_iff]
    exact fun ⟨hpos, _⟩ => absurd hpos (by omega)
  · rw [hpop, if_neg]
    rw [repeats_iff]
    exact fun ⟨_, hbefore⟩ => absurd (hbefore e he) (by omega)
  · rw [hpop, if_pos ((repeats_iff x now).mpr ⟨hperiod, hend⟩)]

/-! ### The cancel operations (rules R151 to R154) -/

theorem exec_cancelById (id : Nat) (s : State) : exec (.cancelById id) s = .next { s with
    sch := ⟨s.sch.schedule.filter (fun x => x.id != id), s.sch.nextId⟩
    result := .count (s.sch.schedule.filter (fun x => x.id == id)).length } := by
  rw [← List.countP_eq_length_filter]
  rfl

theorem exec_cancelByRecipient (addr : Byte) (s : State) : exec (.cancelByRecipient addr) s = .next { s with
    sch := ⟨s.sch.schedule.filter (fun x => x.packet.recipient != addr), s.sch.nextId⟩
    result := .count (s.sch.schedule.filter (fun x => x.packet.recipient == addr)).length } := by
  rw [← List.countP_eq_length_filter]
  rfl

theorem exec_cancelAll (s : State) : exec .cancelAll s =
    .next { s with sch := ⟨[], s.sch.nextId⟩, result := .count s.sch.schedule.length } := rfl

theorem exec_countRecipients (addr : Byte) (s : State) : exec (.countRecipients addr) s = .next { s with
    result := .count (s.sch.schedule.filter (fun x => x.packet.recipient == addr)).length } := by
  rw [← List.countP_eq_length_filter]
  rfl

/-- Of distinct ids, at most one entry has an id. -/
theorem length_filter_id_le_one {l : List Transmission} (h : (l.map (·.id)).Nodup) (id : Nat) :
    (l.filter (fun x => x.id == id)).length ≤ 1 := by
  have hcount := List.nodup_iff_count_le_one.mp h id
  rwa [List.count, List.countP_map, List.countP_eq_length_filter] at hcount

/-- Settles O16: each operation by what it answers; distinct ids bound the count. -/
theorem cancelAndCount : Obligations.CancelAndCount := by
  unfold Obligations.CancelAndCount
  exact fun s id addr => ⟨exec_cancelById id s, exec_cancelByRecipient addr s, exec_cancelAll s,
    exec_countRecipients addr s, fun hinv => length_filter_id_le_one hinv.idsDistinct id⟩

/-! ### Ids that do not come back (rules R28, R79, R152) -/

/-- The id was given, and no entry of the schedule has it. -/
def IdGone (id : Nat) (s : State) : Prop := id < s.sch.nextId ∧ ∀ x ∈ s.sch.schedule, x.id ≠ id

/-- Where the next id is no lower and every scheduled id was scheduled before, a gone id stays gone. -/
theorem IdGone.of_ids {id : Nat} {s t : State} (h : IdGone id s) (hnext : s.sch.nextId ≤ t.sch.nextId)
    (hids : ∀ x ∈ t.sch.schedule, ∃ y ∈ s.sch.schedule, y.id = x.id) : IdGone id t := by
  obtain ⟨hgiven, habsent⟩ := h
  refine ⟨by omega, fun x hx => ?_⟩
  obtain ⟨y, hy, e⟩ := hids x hx
  exact e ▸ habsent y hy

theorem IdGone.of_sch_eq {id : Nat} {s t : State} (h : IdGone id s) (e : t.sch = s.sch) : IdGone id t := by
  rwa [IdGone, e]

theorem IdGone.of_calm {id : Nat} {s t : State} (h : IdGone id s) (hc : Calm s t) : IdGone id t :=
  h.of_ids hc.nextId.ge fun x hx => ⟨x, hc.schedule.subset hx, rfl⟩

/-- `ADD` gives the next id, which no gone id is. -/
theorem IdGone.of_inserted {id : Nat} {s t : State} {x : Transmission} (h : IdGone id s) (hx : x.id = s.sch.nextId)
    (e : t.sch = ⟨insertTx x s.sch.schedule, s.sch.nextId + 1⟩) : IdGone id t := by
  obtain ⟨hgiven, habsent⟩ := h
  rw [IdGone, e]
  refine ⟨by simp only; omega, fun y hy => ?_⟩
  rcases (mem_insertTx y x _).mp hy with rfl | hy
  · omega
  · exact habsent y hy

/-- A pop schedules no id that was not scheduled. -/
theorem exists_id_of_mem_popSchedule {id now : Nat} {l l' : List Transmission} (h : popSchedule id now l = some l')
    {x : Transmission} (hx : x ∈ l') : ∃ y ∈ l, y.id = x.id := by
  rcases popSchedule_cases id now l with ⟨-, hpop⟩ | ⟨y, hy, -, rest, -, -, hrest, hpop⟩
  · cases hpop.symm.trans h
  · obtain rfl := Option.some.inj (hpop.symm.trans h)
    split at hx
    · rcases (mem_insertTx x _ _).mp hx with rfl | hx
      · exact ⟨y, hy, rfl⟩
      · exact ⟨x, hrest.subset hx, rfl⟩
    · exact ⟨x, hrest.subset hx, rfl⟩

theorem readTask_sch (now : Nat) (ev : LineEvents) (s : State) : (readTask now ev s).2.sch = s.sch := by
  rcases readTask_cases now ev s with ⟨-, e⟩ | ⟨-, -, e⟩ | ⟨t, -, -, e⟩ <;> simp [e]

theorem busWrite_sch (p : Packet) (w : WriteOperands) (s : State) : (busWrite p w s).2.sch = s.sch := by
  rcases busWrite_cases p w s with ⟨-, e⟩ | ⟨-, e⟩ <;> simp [e]

theorem IdGone.writeTask {id : Nat} {s : State} (h : IdGone id s) (now : Nat) (lineOpen : Bool) :
    IdGone id (Machine.writeTask now lineOpen s).2 := by
  rcases writeTask_cases now lineOpen s with e | ⟨t, l, -, -, -, -, hpop, e⟩ <;> rw [e]
  · exact h
  · exact h.of_ids le_rfl fun _ hx => exists_id_of_mem_popSchedule hpop hx

theorem IdGone.ensureDiscovery {id : Nat} {s : State} (h : IdGone id s) (now : Nat) (k : Fin 6) :
    IdGone id (Machine.ensureDiscovery now s k) := by
  rcases ensureDiscovery_cases now s k with ⟨-, e⟩ | ⟨-, -, e⟩ | ⟨-, -, e⟩ <;> rw [e]
  · exact h
  · exact h.of_sch_eq rfl
  · exact h.of_inserted rfl rfl

/-- The shared operations keep a gone id gone. -/
theorem kept_idGone (id : Nat) : Kept (IdGone id) where
  respond _ _ h := h.of_sch_eq rfl
  emit _ _ h := h.of_sch_eq rfl
  add _ _ _ _ h := h.of_inserted rfl rfl
  pop _ _ _ _ hpop h := h.of_ids le_rfl fun _ hx => exists_id_of_mem_popSchedule hpop hx
  cancel p s h := h.of_calm (calm_cancelWhere p s)
  readTask now ev s h := h.of_sch_eq (readTask_sch now ev s)
  writeTask now lineOpen _ h := h.writeTask now lineOpen
  ensureDiscovery now k _ h := h.ensureDiscovery now k
  observe k p s h := h.of_calm (calm_observe k p s)
  countFailure k s h := h.of_calm (calm_countFailure k s)

/-- No instruction but `RESET` brings a gone id back. -/
theorem IdGone.exec {id : Nat} {i : Instr} {s t : State} (h : IdGone id s) (hi : i ≠ .reset)
    (he : Machine.exec i s = .next t) : IdGone id t :=
  exec_keeps (kept_idGone id) (fun _ _ _ h => h.of_sch_eq rfl) (fun _ _ _ h => h.of_sch_eq rfl)
    (fun e => absurd e hi) (fun _ _ _ _ h => h.of_sch_eq rfl)
    (fun _ p w u h => h.of_sch_eq (busWrite_sch p w u)) h he

/-- Every instruction answers a next state (rules R12, R270). -/
theorem exists_exec_eq_next (i : Instr) (s : State) : ∃ t, exec i s = .next t := by
  cases i
  case mkAddr => simp only [exec, execMkAddr]; split <;> exact ⟨_, rfl⟩
  case encode => simp only [exec, execEncode]; split <;> exact ⟨_, rfl⟩
  case decode => simp only [exec, execDecode]; split <;> exact ⟨_, rfl⟩
  case nodeTxStarted => simp only [exec, execNodeTxStarted]; split <;> exact ⟨_, rfl⟩
  case nodeTxFailed => simp only [exec, execNodeTxFailed]; split <;> exact ⟨_, rfl⟩
  case unlock => simp only [exec, execUnlock]; split <;> exact ⟨_, rfl⟩
  case lock =>
    simp only [exec, execLock]
    split
    · exact ⟨_, rfl⟩
    · split <;> exact ⟨_, rfl⟩
  case tryLock =>
    simp only [exec, execTryLock]
    split
    · exact ⟨_, rfl⟩
    · split <;> exact ⟨_, rfl⟩
  all_goals exact ⟨_, rfl⟩

/-- Instructions without a `RESET` answer a state in which every id that was gone still is. -/
theorem execAll_keeps_gone {is : List Instr} (h : .reset ∉ is) (s : State) :
    ∃ u, execAll is s = .next u ∧ ∀ id, IdGone id s → IdGone id u := by
  induction is generalizing s with
  | nil => exact ⟨s, rfl, fun _ hgone => hgone⟩
  | cons i is ih =>
    obtain ⟨hi, his⟩ := not_or.mp (mt List.mem_cons.mpr h)
    obtain ⟨t, ht⟩ := exists_exec_eq_next i s
    obtain ⟨u, hu, hkeeps⟩ := ih his t
    exact ⟨u, by rw [execAll, ht]; exact hu, fun id hgone => hkeeps id (hgone.exec (Ne.symm hi) ht)⟩

/-- A canceled id is gone. -/
theorem idGone_of_filter {s t : State} (hinv : SchedInv s) {p : Transmission → Bool}
    (e : t.sch = ⟨s.sch.schedule.filter p, s.sch.nextId⟩) {y : Transmission} (hy : y ∈ s.sch.schedule)
    (hp : p y = false) : IdGone y.id t := by
  rw [IdGone, e]
  refine ⟨(hinv.idsGiven y hy).2, fun x hx hid => ?_⟩
  obtain ⟨hmem, hkept⟩ := List.mem_filter.mp hx
  obtain rfl := eq_of_id_eq hinv.idsDistinct hmem hy hid
  rw [hp] at hkept
  cases hkept

/-- Settles O17: a canceled id is gone, it stays gone, and what is peeked is in the schedule. -/
theorem canceledNeverPeeked : Obligations.CanceledNeverPeeked := by
  unfold Obligations.CanceledNeverPeeked
  intro s addr
  refine ⟨exec_cancelByRecipient addr s, fun hinv is hreset => ?_⟩
  obtain ⟨u, hu, hkeeps⟩ := execAll_keeps_gone hreset _
  refine ⟨u, hu, fun now => ⟨_, exec_peekNext now u, fun x hx => ⟨?_, fun y hy haddr => ?_⟩⟩⟩
  · rintro rfl
    cases hu
    exact (List.mem_filter.mp (peekNext_mem hx)).1
  · have hcanceled : (y.packet.recipient != addr) = false := by simpa using haddr
    exact (hkeeps y.id (idGone_of_filter hinv rfl hy hcanceled)).2 x (peekNext_mem hx)

end Sys2Proof.Machine
end

section
/-! SUPPORT. What the bus operations answer and leave (rules R172 to R185): the bytes of an accepted write, the ways a poll
ends, read validation as `DECODE` answers it, and the two halves of a status. -/

namespace Sys2Proof.Machine

/-! ### WRITE (rules R174, R273) -/

/-- The sender byte of this bus is the player index with no bit of a node (rule R52). -/
theorem busAddr_toNat (cfg : Config) : (busAddr cfg).toNat = 64 * cfg.playerIndex.val := by
  have hplayer : (playerByte cfg).toNat = cfg.playerIndex.val := by
    have hindex := cfg.playerIndex.isLt
    rw [playerByte, BitVec.toNat_ofNat]
    omega
  rw [busAddr, addrByte_toNat (by omega) (by decide), hplayer]
  rfl

/-- `ENCODE` of a valid packet's fields answers that packet's bytes: its count byte is the number of its words. -/
theorem exec_encode_of_valid {p : Packet} {s : State} (h : Valid s.cfg p) :
    exec (.encode p.command p.recipient p.sender p.payload) s = .next { s with result := .bytes (packetBytes p) } := by
  obtain ⟨-, hlength⟩ := h
  have hcount : BitVec.ofNat 8 p.payload.length = p.count := by rw [hlength, BitVec.ofNat_toNat, BitVec.setWidth_eq]
  rw [exec_encode_of_length_le (by have := p.count.isLt; omega), hcount, framePacket_eq]

theorem exec_write_of_accepts {p : Packet} {w : WriteOperands} {s : State} (h : writeAccepts p w s = true) :
    exec (.write p w) s = .next { s with
      bus := startedBus p w s
      out := s.out ++ [.wire (packetBytes (setSender p (busAddr s.cfg)))]
      result := .bool true } := by
  simp only [exec, execWrite, opWrite, busWrite_of_accepts h]
  rfl

theorem exec_write_of_refuses {p : Packet} {w : WriteOperands} {s : State} (h : writeAccepts p w s = false) :
    exec (.write p w) s = .next { s with result := .bool false } := by
  simp only [exec, execWrite, opWrite, busWrite_of_refuses h, State.respond]

/-- Settles O19: the packet is sent with this bus's sender byte, valid as it was, so its bytes decode to it. -/
theorem writeOperation : Obligations.WriteOperation := by
  unfold Obligations.WriteOperation
  intro s p w
  refine ⟨fun hidle hopen hvalid => ?_, fun hcause => exec_write_of_refuses ?_⟩
  · have hsent : Valid s.cfg (setSender p (busAddr s.cfg)) := (valid_setSender_iff s.cfg p _).mpr hvalid
    have haccepts : writeAccepts p w s = true :=
      (writeAccepts_iff p w s).mpr ⟨hidle, hopen, (isValid_iff_valid s.cfg p).mpr hvalid⟩
    refine ⟨setSender p (busAddr s.cfg), packetBytes (setSender p (busAddr s.cfg)), rfl, exec_encode_of_valid hsent,
      exec_decode_of_ok (decodeBytes_packetBytes s.cfg _ ((isValid_iff_valid s.cfg _).mpr hsent)), ?_, ?_⟩
    · rw [setSender_sender, busAddr_toNat]
    · rw [exec_write_of_accepts haccepts, startedBus, setSender_count]
  · rw [← Bool.not_eq_true, writeAccepts_iff, isValid_iff_valid]
    rintro ⟨hidle, hopen, hvalid⟩
    rcases hcause with hbusy | hclosed | hinvalid
    · exact hbusy hidle
    · cases hclosed.symm.trans hopen
    · exact hinvalid hvalid

/-! ### How a poll ends (rules R175, R182) -/

/-- A phase that is not terminal is neither a completed read nor a failure. -/
theorem not_reported_of_not_terminal {ph : Phase} (h : ph.isTerminal = false) :
    ph ≠ .readComplete ∧ ph.isFailed = false := by
  cases ph <;> revert h <;> decide

section
variable {s : State} {now : Nat} {ev : LineEvents}

theorem exec_processEvents (s : State) (now : Nat) (ev : LineEvents) : exec (.processEvents now ev) s = .next { s with
    bus := freeBus (polledBus s.cfg now ev s.bus)
    result := .status (statusOf (polledBus s.cfg now ev s.bus)) } := rfl

/-- A poll in which nothing happens reports the phase alone. -/
theorem exec_processEvents_of_unchanged (h : polledBus s.cfg now ev s.bus = s.bus)
    (hphase : s.bus.phase.isTerminal = false) :
    exec (.processEvents now ev) s = .next { s with result := .status ⟨s.bus.phase, none, .none⟩ } := by
  have hstatus : statusOf s.bus = ⟨s.bus.phase, none, .none⟩ := by
    obtain ⟨hcomplete, hfailed⟩ := not_reported_of_not_terminal hphase
    rw [statusOf, if_neg hcomplete, hfailed]
    rfl
  rw [exec_processEvents, h, freeBus_of_not_terminal hphase, hstatus]

/-- A poll that fails frees the bus and reports the reason, which stays in the bus unit. -/
theorem exec_processEvents_of_failed {ph : Phase} {r : Reason} (hfailed : ph.isFailed = true)
    (h : polledBus s.cfg now ev s.bus = busFail ph r s.bus) :
    exec (.processEvents now ev) s = .next { s with
      bus := { s.bus with phase := .idle, txPacket := none, failureReason := r }
      result := .status ⟨ph, none, r⟩ } := by
  rw [exec_processEvents, h]
  cases ph
  case readFailed => rfl
  case writeFailed => rfl
  all_goals cases hfailed

/-- A poll that polls on from another bus unit ends as a poll of that bus unit. -/
theorem exec_processEvents_of_chained {b : Bus} (h : polledBus s.cfg now ev s.bus = polledBus s.cfg now ev b) :
    exec (.processEvents now ev) s = exec (.processEvents now ev) { s with bus := b } := by
  rw [exec_processEvents, exec_processEvents, h]

end

/-- Settles O20: `polledBus_writeInProgress` branch by branch, each with the way its poll ends. -/
theorem pollWriting : Obligations.PollWriting := by
  unfold Obligations.PollWriting
  intro s now ev
  refine ⟨fun hidle => ?_, fun hwriting => ?_⟩
  · rw [exec_processEvents_of_unchanged (polledBus_idle hidle ..) (by rw [hidle]; rfl), hidle]
  have hpoll := polledBus_writeInProgress hwriting s.cfg now ev
  split
  next hcontention => exact exec_processEvents_of_failed rfl (by rw [hpoll, if_pos hcontention])
  next hcontention =>
  rw [if_neg hcontention] at hpoll
  split
  next hdone =>
    rw [if_pos hdone] at hpoll
    split
    next hexpect => exact exec_processEvents_of_chained (by rw [hpoll, if_pos hexpect])
    next hexpect => rw [exec_processEvents, hpoll, if_neg hexpect]; rfl
  next hdone =>
  rw [if_neg hdone] at hpoll
  split
  next hlate => exact exec_processEvents_of_failed rfl (by rw [hpoll, if_pos hlate])
  next hlate =>
    rw [exec_processEvents_of_unchanged (by rw [hpoll, if_neg hlate]) (by rw [hwriting]; rfl), hwriting]

/-! ### A response begins (rule R179) -/

/-- A response has begun where the line says so, and where it hands out a frame or an overflow. -/
theorem responseBegun_iff (ev : LineEvents) : (ev.rxStarted || ev.rxFrame.isSome || ev.rxOverflow) = true ↔
    ev.rxStarted = true ∨ ev.rxFrame ≠ none ∨ ev.rxOverflow = true := by
  rw [Bool.or_eq_true, Bool.or_eq_true, or_assoc, Option.isSome_iff_ne_none]

/-- Settles O21: `polledBus_readArmed` branch by branch; the read in progress is polled by stage R alone. -/
theorem pollArmed : Obligations.PollArmed := by
  unfold Obligations.PollArmed
  intro s now ev harmed
  have hpoll := polledBus_readArmed harmed s.cfg now ev
  split
  next hbegun =>
    rw [if_pos ((responseBegun_iff ev).mpr hbegun)] at hpoll
    exact exec_processEvents_of_chained (hpoll.trans (polledBus_readInProgress rfl ..).symm)
  next hbegun =>
  rw [if_neg (mt (responseBegun_iff ev).mp hbegun)] at hpoll
  split
  next hlate => exact exec_processEvents_of_failed rfl (by rw [hpoll, if_pos hlate])
  next hlate =>
    rw [exec_processEvents_of_unchanged (by rw [hpoll, if_neg hlate]) (by rw [harmed]; rfl), harmed]

/-! ### Read validation (rule R180) -/

section
variable {cfg : Config} {f : RxFrame}

theorem validateRx_of_too_long (h : cfg.rxBufferBytes < f.bytes.length) : validateRx cfg f = .error .overflow :=
  if_pos h

variable (hlength : ¬cfg.rxBufferBytes < f.bytes.length)
include hlength

theorem validateRx_of_bad_framing (h : f.startOk = false ∨ f.endOk = false) :
    validateRx cfg f = .error .framingInvalid := by
  rw [validateRx, if_neg hlength, if_pos h]

variable (hframing : ¬(f.startOk = false ∨ f.endOk = false))
include hframing

theorem validateRx_of_decode_error {e : FramingError} (h : decodeBytes cfg f.bytes = .error e) :
    validateRx cfg f = .error e.reason := by
  simp only [validateRx, if_neg hlength, if_neg hframing, h]

theorem validateRx_of_decode_ok {p : Packet} (h : decodeBytes cfg f.bytes = .ok p) : validateRx cfg f = .ok p := by
  simp only [validateRx, if_neg hlength, if_neg hframing, h]

end

/-- What `DECODE` is seen to answer is what `decodeBytes` gives. -/
theorem decodeBytes_of_exec_ok {s : State} {bs : List Byte} {p : Packet}
    (h : exec (.decode bs) s = .next { s with result := .packet p }) : decodeBytes s.cfg bs = .ok p := by
  cases hd : decodeBytes s.cfg bs with
  | error e => cases congrArg State.result (Host.Outcome.next.inj ((exec_decode_of_error hd).symm.trans h))
  | ok q => cases congrArg State.result (Host.Outcome.next.inj ((exec_decode_of_ok hd).symm.trans h)); rfl

theorem decodeBytes_of_exec_error {s : State} {bs : List Byte} {e : FramingError}
    (h : exec (.decode bs) s = .next { s with result := .framingError e }) : decodeBytes s.cfg bs = .error e := by
  cases hd : decodeBytes s.cfg bs with
  | error e' => cases congrArg State.result (Host.Outcome.next.inj ((exec_decode_of_error hd).symm.trans h)); rfl
  | ok q => cases congrArg State.result (Host.Outcome.next.inj ((exec_decode_of_ok hd).symm.trans h))

/-! ### A response is received (rule R181) -/

section
variable {s : State} {now : Nat} {ev : LineEvents} {f : RxFrame} (hphase : s.bus.phase = .readInProgress)
  (hoverflow : ev.rxOverflow = false) (hframe : ev.rxFrame = some f)
include hphase hoverflow hframe

/-- A rejected frame fails the read with the reason of its rejection. -/
theorem exec_processEvents_of_rejected {r : Reason} (h : validateRx s.cfg f = .error r) :
    exec (.processEvents now ev) s = .next { s with
      bus := { s.bus with phase := .idle, txPacket := none, failureReason := r }
      result := .status ⟨.readFailed, none, r⟩ } :=
  exec_processEvents_of_failed rfl (by
    rw [polledBus_readInProgress hphase, stageR_eq hphase]
    simp only [hoverflow, Bool.false_eq_true, if_false, hframe, h])

/-- An accepted frame completes the read with its packet. -/
theorem exec_processEvents_of_received {p : Packet} (h : validateRx s.cfg f = .ok p) :
    exec (.processEvents now ev) s = .next { s with
      bus := { s.bus with phase := .idle, txPacket := none, readBuffer := some p }
      result := .status ⟨.readComplete, some p, .none⟩ } := by
  have hpoll : polledBus s.cfg now ev s.bus = { s.bus with readBuffer := some p, phase := .readComplete } := by
    rw [polledBus_readInProgress hphase, stageR_eq hphase]
    simp only [hoverflow, Bool.false_eq_true, if_false, hframe, h]
  rw [exec_processEvents, hpoll]
  rfl

end

/-- Settles O22: a frame by the branch of read validation it falls under, the rest of stage R by its own branches. -/
theorem pollReading : Obligations.PollReading := by
  unfold Obligations.PollReading
  intro s now ev hreading
  have hpoll := (polledBus_readInProgress hreading s.cfg now ev).trans (stageR_eq hreading s.cfg now ev)
  refine ⟨fun hoverflow => exec_processEvents_of_failed rfl (by rw [hpoll, if_pos hoverflow]),
    fun hoverflow f hframe => ?_, fun hoverflow hnone => ?_⟩
  · split
    next hlong => exact exec_processEvents_of_rejected hreading hoverflow hframe (validateRx_of_too_long hlong)
    next hlength =>
    split
    next hbad => exact exec_processEvents_of_rejected hreading hoverflow hframe (validateRx_of_bad_framing hlength hbad)
    next hframing =>
    have rejected : ∀ e : FramingError, exec (.decode f.bytes) s = .next { s with result := .framingError e } → _ :=
      fun e he => exec_processEvents_of_rejected (now := now) hreading hoverflow hframe
        (validateRx_of_decode_error hlength hframing (decodeBytes_of_exec_error he))
    exact ⟨fun p hp => exec_processEvents_of_received hreading hoverflow hframe
        (validateRx_of_decode_ok hlength hframing (decodeBytes_of_exec_ok hp)),
      rejected .badLength, rejected .badCrc, rejected .unknownCommand⟩
  · simp only [hoverflow, Bool.false_eq_true, if_false, hnone] at hpoll
    split
    next hlate => exact exec_processEvents_of_failed rfl (by rw [hpoll, if_pos hlate])
    next hlate =>
      rw [exec_processEvents_of_unchanged (by rw [hpoll, if_neg hlate]) (by rw [hreading]; rfl), hreading]

/-! ### What a status carries (rule R172) -/

/-- The bus unit holds what its phase reports: a packet once a read is complete, a reason once something failed. -/
structure Reportable (b : Bus) : Prop where
  packet : b.phase = .readComplete → b.readBuffer ≠ none
  reason : b.phase.isFailed = true → b.failureReason ≠ .none

/-- In most phases there is nothing to report. -/
theorem reportable_of_phase {b : Bus} (hcomplete : b.phase ≠ .readComplete) (hfailed : b.phase.isFailed = false) :
    Reportable b :=
  ⟨fun h => absurd h hcomplete, fun h => by rw [hfailed] at h; cases h⟩

theorem reportable_of_not_terminal {b : Bus} (h : b.phase.isTerminal = false) : Reportable b :=
  reportable_of_phase (not_reported_of_not_terminal h).1 (not_reported_of_not_terminal h).2

theorem reportable_busFail {ph : Phase} {r : Reason} (hph : ph ≠ .readComplete) (hr : r ≠ .none) (b : Bus) :
    Reportable (busFail ph r b) :=
  ⟨fun h => absurd h hph, fun _ => hr⟩

theorem Reportable.stageW {b : Bus} (h : Reportable b) (now : Nat) (ev : LineEvents) :
    Reportable (Machine.stageW now ev b) := by
  by_cases hphase : b.phase = .writeInProgress
  · rw [stageW_eq hphase]
    split
    · exact reportable_busFail (by decide) (by decide) b
    split
    · split <;> exact reportable_of_phase (by simp) rfl
    split
    · exact reportable_busFail (by decide) (by decide) b
    · exact h
  · rwa [stageW_of_ne hphase]

theorem Reportable.stageA {b : Bus} (h : Reportable b) (now : Nat) (ev : LineEvents) :
    Reportable (Machine.stageA now ev b) := by
  by_cases hphase : b.phase = .readArmed
  · rw [stageA_eq hphase]
    split
    · exact reportable_of_phase (by simp) rfl
    split
    · exact reportable_busFail (by decide) (by decide) b
    · exact h
  · rwa [stageA_of_ne hphase]

theorem Reportable.stageR {b : Bus} (h : Reportable b) (cfg : Config) (now : Nat) (ev : LineEvents) :
    Reportable (Machine.stageR cfg now ev b) := by
  by_cases hphase : b.phase = .readInProgress
  · rw [stageR_eq hphase]
    split
    · exact reportable_busFail (by decide) (by decide) b
    split
    · split
      next p _ => exact ⟨fun _ => Option.some_ne_none p, fun hfailed => by cases hfailed⟩
      next r hr =>
        have hreason : r ≠ .none := by rcases validateRx_error hr with rfl | rfl | rfl <;> decide
        exact reportable_busFail (by decide) hreason b
    · split
      · exact reportable_busFail (by decide) (by decide) b
      · exact h
  · rwa [stageR_of_ne hphase]

theorem Reportable.polledBus {b : Bus} (h : Reportable b) (cfg : Config) (now : Nat) (ev : LineEvents) :
    Reportable (Machine.polledBus cfg now ev b) :=
  ((h.stageW now ev).stageA now ev).stageR cfg now ev

theorem statusOf_readBuffer_ne_none_iff {b : Bus} (h : Reportable b) :
    (statusOf b).readBuffer ≠ none ↔ (statusOf b).phase = .readComplete := by
  simp only [statusOf, ne_eq, ite_eq_right_iff, Classical.not_imp]
  exact and_iff_left_of_imp h.packet

theorem statusOf_failureReason_ne_none_iff {b : Bus} (h : Reportable b) :
    (statusOf b).failureReason ≠ .none ↔ (statusOf b).phase.isFailed = true := by
  simp only [statusOf, ne_eq, ite_eq_right_iff, Classical.not_imp]
  exact and_iff_left_of_imp h.reason

theorem isFailed_iff (ph : Phase) : ph.isFailed = true ↔ ph = .readFailed ∨ ph = .writeFailed := by
  cases ph <;> decide

/-- The reasons other than none are the five of rule R272. -/
theorem reason_ne_none_iff (r : Reason) : r ≠ .none ↔
    r = .timeout ∨ r = .crcInvalid ∨ r = .framingInvalid ∨ r = .overflow ∨ r = .contention := by
  cases r <;> decide

/-- Settles O23: a bus in no terminal phase is reportable, and every stage of the poll keeps it so. -/
theorem statusShape : Obligations.StatusShape := by
  unfold Obligations.StatusShape
  intro s now ev hphase
  have hreport := (reportable_of_not_terminal hphase).polledBus s.cfg now ev
  refine ⟨_, _, exec_processEvents s now ev, rfl, statusOf_readBuffer_ne_none_iff hreport, ?_⟩
  rw [← isFailed_iff, ← reason_ne_none_iff]
  exact (statusOf_failureReason_ne_none_iff hreport).symm

/-! ### ISBUSY and GETREADDATA (rules R184, R185) -/

/-- Settles O26: each answers one field and writes the result alone. -/
theorem busReads : Obligations.BusReads := by
  unfold Obligations.BusReads
  exact fun _ => ⟨rfl, rfl⟩

end Sys2Proof.Machine
end

section
/-! SUPPORT. What the timeliner's two halves answer and leave (rules R31, R201, R202, R204): each as one next state by what
its poll reports and by what is in flight. -/

namespace Sys2Proof.Machine

/-! ### Handles (rule R31) -/

theorem resolves_func_iff (s : State) (k : Fin 6) (code : Word) :
    resolves s (.func k code) = true ↔ code ∈ (s.node k).functions := List.contains_iff_mem

/-- Whether a handle resolves is read off the node records alone. -/
theorem resolves_of_topo_eq {s s' : State} (h : s'.topo = s.topo) (x : Handle) : resolves s' x = resolves s x := by
  cases x with
  | node k => rfl
  | func k code => simp only [resolves, State.node, h]
  | ext n => rfl

/-! ### TL.READTASK (rules R201, R204) -/

section
variable {s : State} {now : Nat} {ev : LineEvents}

theorem exec_tlReadTask_of_not_terminal (h : (polledBus s.cfg now ev s.bus).phase.isTerminal = false) :
    exec (.tlReadTask now ev) s = .next { s with
      bus := freeBus (polledBus s.cfg now ev s.bus)
      result := .tl .nothing } := by
  simp only [exec_tlReadTask, readTask, processEvents_fst, processEvents_snd, statusOf_phase, h]
  rfl

variable (h : (polledBus s.cfg now ev s.bus).phase.isTerminal = true)
include h

theorem exec_tlReadTask_of_none_inFlight (hnone : s.tl.inFlight = none) :
    exec (.tlReadTask now ev) s = .next { s with
      bus := freeBus (polledBus s.cfg now ev s.bus)
      out := s.out ++ [.log .resultWithoutInFlight]
      result := .tl .nothing } := by
  simp only [exec_tlReadTask, readTask, processEvents_fst, processEvents_snd, statusOf_phase, h, State.setBus_tl, hnone]
  rfl

variable {t : Transmission} (hflight : s.tl.inFlight = some t)
include hflight

theorem readTask_of_inFlight : readTask now ev s =
    (tlResultOf (statusOf (polledBus s.cfg now ev s.bus)) t,
      deliverResult (tlResultOf (statusOf (polledBus s.cfg now ev s.bus)) t)
        ((s.setBus (freeBus (polledBus s.cfg now ev s.bus))).setInFlight none)) := by
  simp only [readTask, processEvents_fst, processEvents_snd, statusOf_phase, h, State.setBus_tl, hflight, if_true]

/-- A completed transmission is forgotten, and its `txComplete` is its one callback. -/
theorem exec_tlReadTask_of_completed {p : Option Packet}
    (hresult : tlResultOf (statusOf (polledBus s.cfg now ev s.bus)) t = .completed p t) :
    exec (.tlReadTask now ev) s = .next { s with
      bus := freeBus (polledBus s.cfg now ev s.bus)
      tl := ⟨none⟩
      out := s.out ++ [if resolves s t.transmitter then .callback (.txComplete t.transmitter p t)
        else .dropped (.txComplete t.transmitter p t)]
      result := .tl (.completed p t) } := by
  rw [exec_tlReadTask, readTask_of_inFlight h hflight, hresult, deliverResult, deliver_eq, resolves_of_topo_eq (s := s) rfl]
  rfl

/-- A failed transmission is forgotten, and its `txFailed` is its one callback. -/
theorem exec_tlReadTask_of_failed {w r : Bool} {reason : Reason}
    (hresult : tlResultOf (statusOf (polledBus s.cfg now ev s.bus)) t = .failed w r reason t) :
    exec (.tlReadTask now ev) s = .next { s with
      bus := freeBus (polledBus s.cfg now ev s.bus)
      tl := ⟨none⟩
      out := s.out ++ [if resolves s t.transmitter then .callback (.txFailed t.transmitter w r t)
        else .dropped (.txFailed t.transmitter w r t)]
      result := .tl (.failed w r reason t) } := by
  rw [exec_tlReadTask, readTask_of_inFlight h hflight, hresult, deliverResult, deliver_eq, resolves_of_topo_eq (s := s) rfl]
  rfl

end

/-- Settles O29: the poll decides the branch; at a terminal phase `tlResultOf` decides the callback and the result. -/
theorem readHalf : Obligations.ReadHalf := by
  unfold Obligations.ReadHalf
  intro s now ev callback
  refine ⟨fun _ => rfl, fun _ => rfl, resolves_func_iff s, _, _, exec_processEvents s now ev, rfl,
    exec_tlReadTask_of_not_terminal, exec_tlReadTask_of_none_inFlight, fun t hflight => ⟨?_, ?_, ?_, ?_⟩⟩
  all_goals
    intro hphase
    have hterminal := congrArg Phase.isTerminal hphase
  · exact exec_tlReadTask_of_completed hterminal hflight (by rw [tlResultOf, hphase])
  · exact exec_tlReadTask_of_completed hterminal hflight (by rw [tlResultOf, hphase])
  · exact exec_tlReadTask_of_failed hterminal hflight (by rw [tlResultOf, hphase])
  · exact exec_tlReadTask_of_failed hterminal hflight (by rw [tlResultOf, hphase])

/-! ### TL.WRITETASK (rule R202) -/

section
variable {s : State} {now : Nat} {lineOpen : Bool}

/-- The write half starts nothing where something is in flight or `WRITE` rejects what is peeked. -/
theorem exec_tlWriteTask_of_not_started (h : ∀ t, s.tl.inFlight = none → peekNext s.sch.schedule now = some t →
      writeAccepts t.packet (writeOperandsOf t now lineOpen) s = false) :
    exec (.tlWriteTask now lineOpen) s = .next { s with result := .transmission none } := by
  rcases writeTask_cases now lineOpen s with e | ⟨t, -, -, hfree, hpeek, haccepts, -, -⟩
  · rw [exec_tlWriteTask, e]
    rfl
  · cases haccepts.symm.trans (h t hfree hpeek)

/-- The id of the peeked transmission is in the schedule, so its pop succeeds. -/
theorem exists_popSchedule_of_peekNext {l : List Transmission} {t : Transmission} (h : peekNext l now = some t) :
    ∃ l', popSchedule t.id now l = some l' := by
  rcases popSchedule_cases t.id now l with ⟨habsent, -⟩ | ⟨_, _, _, _, _, _, _, hpop⟩
  · exact absurd rfl (habsent t (peekNext_mem h))
  · exact ⟨_, hpop⟩

variable {t : Transmission} {l : List Transmission}

/-- The write half where `WRITE` accepts what is peeked: the bus started, the entry popped, the transmission remembered
and its `txStarted` the event behind the bytes. -/
theorem exec_tlWriteTask_of_accepts (hfree : s.tl.inFlight = none) (hpeek : peekNext s.sch.schedule now = some t)
    (haccepts : writeAccepts t.packet (writeOperandsOf t now lineOpen) s = true)
    (hpop : popSchedule t.id now s.sch.schedule = some l) :
    exec (.tlWriteTask now lineOpen) s = .next { s with
      bus := startedBus t.packet (writeOperandsOf t now lineOpen) s
      sch := ⟨l, s.sch.nextId⟩
      tl := ⟨some t⟩
      out := s.out ++ [.wire (packetBytes (setSender t.packet (busAddr s.cfg)))] ++
        [if resolves s t.transmitter then .callback (.txStarted t.transmitter t)
          else .dropped (.txStarted t.transmitter t)]
      result := .transmission (some t) } := by
  obtain ⟨hidle, -, -⟩ := (writeAccepts_iff _ _ s).mp haccepts
  rw [exec_tlWriteTask]
  simp only [writeTask, hidle, hfree, hpeek, busWrite_of_accepts haccepts, popItem, State.emit_sch, State.setBus_sch,
    hpop, deliver_eq]
  rw [resolves_of_topo_eq (s := s) rfl]
  rfl

end

/-- Settles O30: nothing starts without an accepted `WRITE`; behind one, the pop of the peeked id succeeds. -/
theorem writeHalf : Obligations.WriteHalf := by
  unfold Obligations.WriteHalf
  intro s now lineOpen
  refine ⟨fun hcause => exec_tlWriteTask_of_not_started fun t hfree hpeek => ?_,
    fun t hpeek => ⟨by rw [exec_peekNext, hpeek], fun hinvalid => exec_tlWriteTask_of_not_started fun t' _ hpeek' => ?_,
      fun hidle hfree hopen hvalid => ?_⟩⟩
  · rw [← Bool.not_eq_true, writeAccepts_iff]
    rintro ⟨hidle, hopen, -⟩
    rcases hcause with hbusy | hflight | hclosed | hnone
    · exact hbusy hidle
    · exact hflight hfree
    · cases hclosed.symm.trans hopen
    · cases hnone.symm.trans hpeek
  · cases hpeek.symm.trans hpeek'
    rw [← Bool.not_eq_true, writeAccepts_iff, isValid_iff_valid]
    exact fun ⟨_, _, hvalid⟩ => hinvalid hvalid
  · have haccepts : writeAccepts t.packet (writeOperandsOf t now lineOpen) s = true :=
      (writeAccepts_iff _ _ s).mpr ⟨hidle, hopen, (isValid_iff_valid s.cfg t.packet).mpr hvalid⟩
    obtain ⟨l, hpop⟩ := exists_popSchedule_of_peekNext hpeek
    exact ⟨_, _, exec_write_of_accepts haccepts, rfl, exec_popItem_of_some hpop, rfl,
      exec_tlWriteTask_of_accepts hfree hpeek haccepts hpop⟩

end Sys2Proof.Machine
end

section
/-! SUPPORT. The node index (rule R241), and `NODE.TASK` (rule R216) with its round of discovery requests (rules R219,
R220). -/

namespace Sys2Proof.Machine

/-! ### The node index and NODE.TXSTARTED (rule R241) -/

/-- A node index above 5 names no node. -/
theorem nodeOfByte_eq_none {b : Byte} (h : 5 < b.toNat) : nodeOfByte b = none := by
  unfold nodeOfByte
  rw [dif_neg (by omega)]

theorem exec_nodeTxStarted {b : Byte} {k : Fin 6} (h : b.toNat = k.val) (t : Transmission) (s : State) :
    exec (.nodeTxStarted b t) s =
      .next { s with out := s.out ++ [.callback (.txStarted (.node k) t)], result := .done } := by
  simp only [exec, execNodeTxStarted, nodeOfByte_eq h]
  rfl

/-- Settles O36: the node index resolves or it does not. -/
theorem nodeIndexAndStart : Obligations.NodeIndexAndStart := by
  unfold Obligations.NodeIndexAndStart
  intro s b t w r p
  refine ⟨fun k hk => exec_nodeTxStarted hk t s, fun hb => ?_⟩
  have hnone := nodeOfByte_eq_none hb
  refine ⟨?_, ?_, ?_⟩
  · simp only [exec, execNodeTxStarted, hnone, refuse_eq]
  · simp only [exec, execNodeTxFailed, hnone, refuse_eq]
  · simp only [exec, execNodeTxComplete, opNodeTxComplete, hnone, refuse_eq]

/-! ### NODE.TASK (rule R216) -/

/-- What no operation of the timeliner and the topology writes, and the trace, to which each only appends. -/
structure TaskFrame (s t : State) : Prop where
  pkt        : t.pkt = s.pkt
  mutexOwner : t.mutexOwner = s.mutexOwner
  cfg        : t.cfg = s.cfg
  port       : t.port = s.port
  out        : s.out <+: t.out

theorem TaskFrame.refl (s : State) : TaskFrame s s := ⟨rfl, rfl, rfl, rfl, List.prefix_rfl⟩

theorem TaskFrame.trans {s t u : State} (h : TaskFrame s t) (h' : TaskFrame t u) : TaskFrame s u :=
  ⟨h'.pkt.trans h.pkt, h'.mutexOwner.trans h.mutexOwner, h'.cfg.trans h.cfg, h'.port.trans h.port, h.out.trans h'.out⟩

theorem Calm.taskFrame {s t : State} (h : Calm s t) : TaskFrame s t := ⟨h.pkt, h.mutexOwner, h.cfg, h.port, h.out⟩

theorem taskFrame_emit (e : Event) (s : State) : TaskFrame s (s.emit e) := ⟨rfl, rfl, rfl, rfl, List.prefix_append _ _⟩

theorem taskFrame_readTask (now : Nat) (ev : LineEvents) (s : State) : TaskFrame s (readTask now ev s).2 := by
  rcases readTask_cases now ev s with ⟨-, e⟩ | ⟨-, -, e⟩ | ⟨t, -, -, e⟩ <;> rw [e]
  · exact ⟨rfl, rfl, rfl, rfl, List.prefix_rfl⟩
  · exact ⟨rfl, rfl, rfl, rfl, List.prefix_append _ _⟩
  · obtain ⟨hpkt, howner, hcfg, hport, hout⟩ := (calm_deliverResult (tlResultOf _ t) _).taskFrame
    exact ⟨hpkt, howner, hcfg, hport, hout⟩

theorem taskFrame_ensureDiscovery (now : Nat) (k : Fin 6) (s : State) : TaskFrame s (ensureDiscovery now s k) := by
  rcases ensureDiscovery_cases now s k with ⟨-, e⟩ | ⟨-, -, e⟩ | ⟨-, -, e⟩ <;> rw [e]
  · exact .refl s
  · exact taskFrame_emit _ s
  · exact ⟨rfl, rfl, rfl, rfl, List.prefix_rfl⟩

theorem taskFrame_writeTask (now : Nat) (lineOpen : Bool) (s : State) : TaskFrame s (writeTask now lineOpen s).2 := by
  rcases writeTask_cases now lineOpen s with e | ⟨t, l, -, -, -, -, -, e⟩ <;> rw [e]
  · exact .refl s
  · obtain ⟨hpkt, howner, hcfg, hport, hout⟩ :=
      taskFrame_emit (.wire (startedBus t.packet (writeOperandsOf t now lineOpen) s).txBytes) s
    exact ⟨hpkt, howner, hcfg, hport, hout.trans (calm_deliver _ _ _).out⟩

/-- The parts of `NODE.TASK` keep the frame, so the whole does. -/
theorem kept_taskFrame (s : State) : Kept (TaskFrame s) where
  respond _ _ h := ⟨h.pkt, h.mutexOwner, h.cfg, h.port, h.out⟩
  emit e t h := h.trans (taskFrame_emit e t)
  add _ _ _ _ h := ⟨h.pkt, h.mutexOwner, h.cfg, h.port, h.out⟩
  pop _ _ _ _ _ h := ⟨h.pkt, h.mutexOwner, h.cfg, h.port, h.out⟩
  cancel p t h := h.trans (calm_cancelWhere p t).taskFrame
  readTask now ev t h := h.trans (taskFrame_readTask now ev t)
  writeTask now lineOpen t h := h.trans (taskFrame_writeTask now lineOpen t)
  ensureDiscovery now k t h := h.trans (taskFrame_ensureDiscovery now k t)
  observe k p t h := h.trans (calm_observe k p t).taskFrame
  countFailure k t h := h.trans (calm_countFailure k t).taskFrame

theorem foldl_ensureDiscovery_respond (now : Nat) (l : List (Fin 6)) (r : Result) (s : State) :
    l.foldl (ensureDiscovery now) (s.respond r) = (l.foldl (ensureDiscovery now) s).respond r :=
  foldl_rebase [] r (fun s k => ensureDiscovery_rebase [] r s now k) l s

/-- A result over another: the later one stands. -/
theorem respond_with_result (s : State) (q r : Result) : { s.respond q with result := r } = s.respond r := rfl

/-- Settles O32: the result written by the read half passes through the later parts, which do not read it. -/
theorem nodeTaskOrder : Obligations.NodeTaskOrder := by
  unfold Obligations.NodeTaskOrder
  intro s now ev lineOpen
  let r := (readTask now ev s).1
  let u := (readTask now ev s).2.respond (.tl r)
  let v := nodeIndices.foldl (ensureDiscovery now) (reactTo r u)
  have hkept := kept_taskFrame s
  have hread : TaskFrame s u := hkept.respond _ _ (taskFrame_readTask now ev s)
  have hv : TaskFrame s v :=
    foldl_keeps (fun t k => hkept.ensureDiscovery now k t) nodeIndices _ (hkept.reactTo r u hread)
  have hw : TaskFrame s ((writeTask now lineOpen v).2.respond (.transmission (writeTask now lineOpen v).1)) :=
    hkept.respond _ _ (hkept.writeTask now lineOpen v hv)
  refine ⟨u, v, _, r, exec_tlReadTask now ev s, rfl, rfl, exec_tlWriteTask now lineOpen v, ?_,
    hw.pkt, hw.mutexOwner, hw.cfg, hw.port, hw.out⟩
  rw [respond_with_result, exec_nodeTask]
  simp only [v, u, r, reactTo_respond, foldl_ensureDiscovery_respond, writeTask_respond, State.respond_respond]

/-! ### The round of discovery requests (rules R219, R220) -/

/-- The transmission that `ADD` makes of node k's discovery request, with the id that it gives. -/
def discoveryTransmission (cfg : Config) (now id : Nat) (k : Fin 6) : Transmission where
  id := id
  priority := if k = 0 then cfg.discoveryPriorityMain else cfg.discoveryPrioritySub
  expectResponse := true
  expectedResponseWords := cfg.discoveryExpectedWords
  readTimeoutUs := cfg.defaultReadTimeoutUs
  autoRepeatUs := cfg.discoveryPeriodUs
  autoRepeatEndUs := none
  durationUs := durationUs cfg 0 true cfg.discoveryExpectedWords
  nextTimeUs := now
  packet := discoveryPacket cfg k
  transmitter := .node k

theorem newTransmission_discovery (now : Nat) (k : Fin 6) (s : State) :
    newTransmission (discoveryPacket s.cfg k) (discoveryOperands s.cfg k now) s =
      discoveryTransmission s.cfg now s.sch.nextId k := by
  simp [newTransmission, discoveryOperands, discoveryTransmission, discoveryPacket, isRoot]

theorem isValid_discoveryPacket (cfg : Config) (k : Fin 6) : isValid cfg (discoveryPacket cfg k) = true :=
  isValid_framePacket cfg 0x01 _ _ [] (by simp) ((isKnown_iff_known cfg 0x01).mpr (.inl (by decide)))

/-- `ADD` has room for one more discovery request behind `i` others. -/
def HasRoom (s : State) (i : Nat) : Prop :=
  s.cfg.discoveryExpectedWords ≤ 255 ∧
    (∀ n, s.cfg.schedCapacity = some n → s.sch.schedule.length + i < n) ∧ s.sch.nextId + i ≤ 2 ^ 32 - 1

theorem HasRoom.of_le {s : State} {i j : Nat} (h : HasRoom s j) (hij : i ≤ j) : HasRoom s i := by
  obtain ⟨hwords, hcapacity, hid⟩ := h
  exact ⟨hwords, fun n hn => by have := hcapacity n hn; omega, by omega⟩

theorem addRefuses_discovery_iff (now : Nat) (k : Fin 6) (s : State) :
    addRefuses (discoveryPacket s.cfg k) (discoveryOperands s.cfg k now) s = false ↔ HasRoom s 0 := by
  rw [addRefuses_false_iff, scheduleFull_eq_false_iff, and_iff_right (isValid_discoveryPacket s.cfg k)]
  rfl

/-- The state in which node k's discovery request is scheduled and its id remembered. -/
def discoveryAdded (now : Nat) (k : Fin 6) (s : State) : State :=
  ((s.setNextId (s.sch.nextId + 1)).setSchedule
    (insertTx (discoveryTransmission s.cfg now s.sch.nextId k) s.sch.schedule)).setNode k
      { s.node k with discoveryId := some s.sch.nextId }

theorem discoveryAdded_node (now : Nat) (k j : Fin 6) (s : State) : (discoveryAdded now k s).node j =
    if j = k then { s.node k with discoveryId := some s.sch.nextId } else s.node j := State.setNode_node _ k j _

theorem hasRoom_discoveryAdded (now : Nat) (k : Fin 6) (s : State) (i : Nat) :
    HasRoom (discoveryAdded now k s) i ↔ HasRoom s (i + 1) := by
  simp only [HasRoom, discoveryAdded, State.setNode_cfg, State.setNode_sch, State.setSchedule_cfg,
    State.setSchedule_sch, State.setNextId_cfg, State.setNextId_sch, length_insertTx, Nat.add_assoc, Nat.add_comm 1 i]

theorem ensureDiscovery_of_not_wanting {now : Nat} {k : Fin 6} {s : State} (h : wantsDiscovery k s = false) :
    ensureDiscovery now s k = s := by
  simp only [ensureDiscovery, h, Bool.false_eq_true, if_false]

theorem ensureDiscovery_of_room {now : Nat} {k : Fin 6} {s : State} (h : wantsDiscovery k s = true)
    (hroom : HasRoom s 0) : ensureDiscovery now s k = discoveryAdded now k s := by
  have hadd := (addRefuses_discovery_iff now k s).mpr hroom
  rcases ensureDiscovery_cases now s k with ⟨hnot, -⟩ | ⟨-, hrefuses, -⟩ | ⟨-, -, e⟩
  · cases hnot.symm.trans h
  · cases hrefuses.symm.trans hadd
  · rw [e, newTransmission_discovery, discoveryAdded]

theorem ensureDiscovery_of_no_room {now : Nat} {k : Fin 6} {s : State} (h : wantsDiscovery k s = true)
    (hfull : ¬HasRoom s 0) : ensureDiscovery now s k = s.emit (.log .discoveryRefused) := by
  rcases ensureDiscovery_cases now s k with ⟨hnot, -⟩ | ⟨-, -, e⟩ | ⟨-, hadd, -⟩
  · cases hnot.symm.trans h
  · exact e
  · exact absurd ((addRefuses_discovery_iff now k s).mp hadd) hfull

/-- From `s` to `t` the nodes `wants`, in this order, asked for a discovery request, and the first `m` got one. -/
structure DiscoveryRound (now : Nat) (s t : State) (wants : List (Fin 6)) (m : Nat) : Prop where
  le       : m ≤ wants.length
  room     : ∀ i, i < wants.length → (i < m ↔ HasRoom s i)
  eq       : t = { s with
    sch := ⟨t.sch.schedule, s.sch.nextId + m⟩
    topo := t.topo
    out := s.out ++ List.replicate (wants.length - m) (.log .discoveryRefused) }
  given    : ∀ i k, (wants.take m)[i]? = some k → t.node k = { s.node k with discoveryId := some (s.sch.nextId + i) }
  others   : ∀ k, k ∉ wants.take m → t.node k = s.node k
  inserted : InsertedAll ((wants.take m).mapIdx fun i k => discoveryTransmission s.cfg now (s.sch.nextId + i) k)
    s.sch.schedule t.sch.schedule

theorem DiscoveryRound.nil (now : Nat) (s : State) : DiscoveryRound now s s [] 0 where
  le := le_rfl
  room := nofun
  eq := by simp
  given := nofun
  others _ _ := rfl
  inserted := rfl

/-- A node that is refused leaves the log entry, and so does every later one. -/
theorem DiscoveryRound.refused {now m : Nat} {k : Fin 6} {s t : State} {wants : List (Fin 6)} (hfull : ¬HasRoom s 0)
    (h : DiscoveryRound now (s.emit (.log .discoveryRefused)) t wants m) : DiscoveryRound now s t (k :: wants) 0 := by
  obtain ⟨hle, hroom, heq, -, hothers, hinserted⟩ := h
  have hm : m = 0 := by
    by_contra hpos
    exact hfull ((hroom 0 (by omega)).mp (by omega))
  subst hm
  refine ⟨Nat.zero_le _, fun i _ => ⟨fun hi => absurd hi (Nat.not_lt_zero i), fun hi => ?_⟩, ?_, nofun,
    fun j _ => hothers j (by simp), hinserted⟩
  · exact absurd (hi.of_le (Nat.zero_le i)) hfull
  · rw [heq]
    simp [State.emit, List.replicate_succ]

/-- A node that gets its request leaves the later ones to the schedule with it. -/
theorem DiscoveryRound.added {now m : Nat} {k : Fin 6} {s t : State} {wants : List (Fin 6)} (hroom : HasRoom s 0)
    (hk : k ∉ wants) (h : DiscoveryRound now (discoveryAdded now k s) t wants m) :
    DiscoveryRound now s t (k :: wants) (m + 1) where
  le := Nat.succ_le_succ h.le
  room := by
    rintro (_ | i) hi
    · exact iff_of_true (Nat.succ_pos m) hroom
    · rw [← hasRoom_discoveryAdded now k, ← h.room i (Nat.lt_of_succ_lt_succ hi), Nat.add_lt_add_iff_right]
  eq := by
    have hnext : s.sch.nextId + 1 + m = s.sch.nextId + (m + 1) := by omega
    rw [h.eq]
    simp only [List.length_cons, Nat.add_sub_add_right, ← hnext]
    rfl
  given := by
    rintro (_ | i) j hj
    · obtain rfl : k = j := by simpa using hj
      rw [h.others k fun hmem => hk (List.mem_of_mem_take hmem), discoveryAdded_node, if_pos rfl]
      rfl
    · have hj' : (wants.take m)[i]? = some j := by simpa using hj
      have hne : j ≠ k := fun e => hk (e ▸ List.mem_of_mem_take (List.mem_of_getElem? hj'))
      rw [h.given i j hj', discoveryAdded_node, if_neg hne, Nat.add_comm i 1, ← Nat.add_assoc]
      rfl
  others j hj := by
    rw [List.take_succ_cons, List.mem_cons, not_or] at hj
    rw [h.others j hj.2, discoveryAdded_node, if_neg hj.1]
  inserted := by
    rw [List.take_succ_cons, List.mapIdx_cons]
    refine ⟨_, insertTx_insertedAt _ _, ?_⟩
    have hid : (fun i k => discoveryTransmission s.cfg now (s.sch.nextId + (i + 1)) k) =
        fun i k => discoveryTransmission s.cfg now (s.sch.nextId + 1 + i) k := by
      funext i k
      rw [Nat.add_comm i 1, Nat.add_assoc]
    rw [hid]
    exact h.inserted

/-- The round over any list of nodes without repeats: a node's own request is all that changes whether it wants one. -/
theorem discoveryRound_foldl (now : Nat) (l : List (Fin 6)) (hl : l.Nodup) (s : State) :
    ∃ m, DiscoveryRound now s (l.foldl (ensureDiscovery now) s) (l.filter fun k => wantsDiscovery k s) m := by
  induction l generalizing s with
  | nil => exact ⟨0, .nil now s⟩
  | cons k l ih =>
    obtain ⟨hk, hl⟩ := List.nodup_cons.mp hl
    rw [List.foldl_cons]
    by_cases hwants : wantsDiscovery k s = true
    · rw [List.filter_cons_of_pos (p := fun j => wantsDiscovery j s) hwants]
      by_cases hroom : HasRoom s 0
      · obtain ⟨m, h⟩ := ih hl (discoveryAdded now k s)
        have hsame : (l.filter fun j => wantsDiscovery j (discoveryAdded now k s)) =
            l.filter fun j => wantsDiscovery j s := by
          refine List.filter_congr fun j hj => ?_
          have hne : j ≠ k := fun e => hk (e ▸ hj)
          simp only [wantsDiscovery, State.isPresent, discoveryAdded_node, if_neg hne]
        rw [hsame] at h
        rw [ensureDiscovery_of_room hwants hroom]
        exact ⟨m + 1, h.added hroom fun hmem => hk (List.mem_filter.mp hmem).1⟩
      · obtain ⟨m, h⟩ := ih hl (s.emit (.log .discoveryRefused))
        rw [ensureDiscovery_of_no_room hwants hroom]
        exact ⟨0, h.refused hroom⟩
    · rw [List.filter_cons_of_neg (p := fun j => wantsDiscovery j s) hwants,
        ensureDiscovery_of_not_wanting (Bool.eq_false_iff.mpr hwants)]
      exact ih hl s

/-- With the bus idle the read half does nothing. -/
theorem readTask_of_idle {s : State} (h : s.bus.phase = .idle) (now : Nat) (ev : LineEvents) :
    readTask now ev s = (.nothing, s) := by
  have hphase : s.bus.phase.isTerminal = false := by rw [h]; rfl
  simp only [readTask, processEvents_fst, processEvents_snd, polledBus_idle h, statusOf_phase, hphase,
    Bool.false_eq_true, if_false, freeBus_of_not_terminal hphase]
  rfl

/-- With the line closed the write half does nothing. -/
theorem writeTask_of_closed (now : Nat) (s : State) : writeTask now false s = (none, s) := by
  rcases writeTask_cases now false s with e | ⟨t, l, -, -, -, haccepts, -, -⟩
  · exact e
  · obtain ⟨-, hopen, -⟩ := (writeAccepts_iff _ _ s).mp haccepts
    cases hopen

/-- Settles O34: between an idle read half and a closed write half `NODE.TASK` is the discovery round alone. -/
theorem discoveryRequest : Obligations.DiscoveryRequest := by
  unfold Obligations.DiscoveryRequest
  intro s now ev hidle wants
  have hwants : (nodeIndices.filter fun k => wantsDiscovery k s) = wants := by
    refine List.filter_congr fun k _ => ?_
    cases hid : (s.node k).discoveryId <;> simp [wantsDiscovery, hid]
  obtain ⟨m, hround⟩ := discoveryRound_foldl now nodeIndices (by decide) s
  rw [hwants] at hround
  rw [exec_nodeTask, readTask_of_idle hidle, writeTask_of_closed, reactTo]
  generalize nodeIndices.foldl (ensureDiscovery now) s = t at hround
  refine ⟨t.sch.schedule, t.topo, discoveryPacket s.cfg, m, hround.le, hround.room, ?_, hround.given, hround.others,
    fun k => ?_, hround.inserted⟩
  · exact congrArg (fun t : State => Host.Outcome.next (t.respond (.tl .nothing))) hround.eq
  · simp [discoveryPacket]

end Sys2Proof.Machine
end

section
/-! SUPPORT. What a node makes of a failure (rules R230 to R232) and of a packet (rules R221, R226 to R229), and the Sub
Nodes' presence (rules R234 to R236): each operation as one next state. -/

namespace Sys2Proof.Machine

/-! ### A calm operation as one next state -/

/-- What a calm operation answers, with the fields that it may write as the only open ones. -/
theorem Calm.eq {s t : State} (h : Calm s t) :
    t = { s with topo := t.topo, sch := ⟨t.sch.schedule, s.sch.nextId⟩, out := t.out } := by
  obtain ⟨hpkt, hbus, hnext, -, htl, -, -, howner, hcfg, hport, hresult⟩ := h
  rw [← hpkt, ← hbus, ← hnext, ← htl, ← howner, ← hcfg, ← hport, ← hresult]

/-! ### NODE.TXFAILED (rules R230 to R232) -/

theorem countFailure_of_not_counting {k : Fin 6} {s : State}
    (h : s.isPresent k = false ∨ (s.node k).state = .searching) : countFailure k s = s := by
  rcases h with habsent | hsearching
  · rw [countFailure, if_pos habsent]
  · simp only [countFailure, hsearching, ne_eq, reduceCtorEq, not_false_eq_true, if_true, ite_self]

/-- The state in which node k has one failure more. -/
def failureCounted (k : Fin 6) (s : State) : State :=
  s.setNode k { s.node k with failCount := (s.node k).failCount + 1 }

theorem failureCounted_node (k j : Fin 6) (s : State) : (failureCounted k s).node j =
    if j = k then { s.node k with failCount := (s.node k).failCount + 1 } else s.node j := State.setNode_node s k j _

theorem failureCounted_functions (k j : Fin 6) (s : State) :
    ((failureCounted k s).node j).functions = (s.node j).functions := by
  rw [failureCounted_node]
  split
  next h => rw [h]
  next => rfl

/-- A connected node counts a failure below the threshold. -/
theorem countFailure_of_lt {k : Fin 6} {s : State} (hpresent : s.isPresent k = true)
    (hconnected : (s.node k).state = .connected) (h : (s.node k).failCount + 1 < s.cfg.failThreshold) :
    countFailure k s = failureCounted k s := by
  simp only [countFailure, hpresent, hconnected, Bool.true_eq_false, ne_eq, not_true_eq_false, if_false, failureCounted,
    if_neg (Nat.not_le.mpr h)]

/-- A connected node is disconnected by the failure that reaches the threshold. -/
theorem countFailure_of_le {k : Fin 6} {s : State} (hpresent : s.isPresent k = true)
    (hconnected : (s.node k).state = .connected) (h : s.cfg.failThreshold ≤ (s.node k).failCount + 1) :
    countFailure k s = disconnect k (failureCounted k s) := by
  simp only [countFailure, hpresent, hconnected, Bool.true_eq_false, ne_eq, not_true_eq_false, if_false, failureCounted,
    if_pos h]

/-- The nodes that a disconnect of node k tears down (rule R232): with the Main Node every Sub Node. -/
def tornDown (k : Fin 6) : List (Fin 6) := if k = 0 then nodeIndices else [k]

theorem disconnect_schedule_tornDown (k : Fin 6) (s : State) : (disconnect k s).sch.schedule =
    s.sch.schedule.filter fun x => (tornDown k).all fun j => x.recipient != nodeAddr s.cfg j := by
  rw [disconnect_schedule]
  by_cases hk : k = 0
  · subst hk; rfl
  · simp [tornDown, hk, bne_iff_ne.mpr hk]

theorem disconnect_out_tornDown (k : Fin 6) (s : State) : (disconnect k s).out =
    s.out ++ [.log (.disconnect k)] ++ (tornDown k).flatMap fun j => destroyedEvents j (s.node j).functions := by
  rw [disconnect_out]
  by_cases hk : k = 0
  · subst hk; simp [tornDown, nodeIndices, subIndices]
  · simp [tornDown, hk]

/-- A disconnect as one next state, but for the node records (`disconnect_node`). -/
theorem disconnect_eq (k : Fin 6) (s : State) : disconnect k s = { s with
    topo := (disconnect k s).topo
    sch := ⟨s.sch.schedule.filter fun x => (tornDown k).all fun j => x.recipient != nodeAddr s.cfg j, s.sch.nextId⟩
    out := s.out ++ [.log (.disconnect k)] ++
      (tornDown k).flatMap fun j => destroyedEvents j (s.node j).functions } := by
  rw [← disconnect_schedule_tornDown, ← disconnect_out_tornDown]
  exact (calm_disconnect k s).eq

/-- The node records after the failure that reaches the threshold: the disconnect clears the count that it finds. -/
theorem disconnect_failureCounted_node (k j : Fin 6) (s : State) : (disconnect k (failureCounted k s)).node j =
    if j = k then ⟨(s.node k).present, .searching, [], 0, none⟩
    else if k = 0 then ⟨false, .searching, [], 0, none⟩
    else s.node j := by
  rw [disconnect_node, failureCounted_node, failureCounted_node]
  by_cases hj : j = k
  · simp only [hj, if_true, clearedNode]
  · simp only [hj, if_false, clearedNode]

/-- Settles O37: `countFailure` by the node's state and the threshold. -/
theorem failureOperation : Obligations.FailureOperation := by
  unfold Obligations.FailureOperation
  intro s b k w r t hb
  let s' := s.emit (.callback (.txFailed (.node k) w r t))
  rw [exec_nodeTxFailed hb]
  refine ⟨fun hidle => ?_, fun hpresent hconnected hbelow => ?_, fun hpresent hconnected hreached => ?_⟩
  · rw [countFailure_of_not_counting (s := s') hidle]
    rfl
  · rw [countFailure_of_lt (s := s') hpresent hconnected hbelow]
    exact ⟨_, rfl, State.setNode_node_same s k _, fun j hj => State.setNode_node_other s k j _ hj⟩
  · rw [countFailure_of_le (s := s') hpresent hconnected hreached, disconnect_eq]
    refine ⟨_, ?_, fun j => disconnect_failureCounted_node k j s'⟩
    have hout : (failureCounted k s').out = s.out ++ [.callback (.txFailed (.node k) w r t)] := rfl
    simp only [failureCounted_functions, hout, List.append_assoc]
    rfl

/-! ### Device information (rules R226 to R228) -/

/-- Of two writes of one node the later one stands. -/
theorem State.setNode_setNode_same (k : Fin 6) (m n : Node) (s : State) :
    (s.setNode k m).setNode k n = s.setNode k n := by simp [State.setNode]

@[simp] theorem State.emitAll_nil (s : State) : s.emitAll [] = s := by simp [State.emitAll]

/-- A mask that selects no code of the table is unrecognized as a whole. -/
theorem unknownBits_of_unrecognized {cfg : Config} {mask : Word}
    (h : ∀ c ∈ cfg.functionTable.map (·.code), mask &&& c = 0) : mask &&& ~~~(recognizedMask cfg) = mask := by
  apply BitVec.eq_of_getLsbD_eq
  intro i _
  rw [Bool.eq_iff_iff, unknownBits_getLsbD, and_iff_left_iff_imp]
  intro hi c hc
  have hbit := congrArg (fun w : Word => w.getLsbD i) (h c hc)
  simpa [hi] using hbit

theorem selectedCodes_eq_nil_iff (cfg : Config) (mask : Word) :
    selectedCodes cfg mask = [] ↔ ∀ c ∈ cfg.functionTable.map (·.code), mask &&& c = 0 := by
  rw [List.eq_nil_iff_forall_not_mem]
  simp only [mem_selectedCodes, not_and, not_not]

/-- Device information without a recognized bit is only reported. -/
theorem processDeviceInfo_of_unrecognized {k : Fin 6} {p : Packet} {s : State}
    (h : ∀ c ∈ s.cfg.functionTable.map (·.code), deviceMask p &&& c = 0) : processDeviceInfo k p s =
      s.emitAll (if deviceMask p = 0 then [] else [.log (.unknownFunctionBits k (deviceMask p))]) := by
  simp only [processDeviceInfo, (selectedCodes_eq_nil_iff s.cfg (deviceMask p)).mpr h, if_true, unknownBitsEvents,
    unknownBits_of_unrecognized h]

/-- The events of an excess over three functions (rule R228). -/
def excessEvents (k : Fin 6) (selected : List Word) (mask : Word) : List Event :=
  if maxFunctions < selected.length then [.log (.moreThanThreeFunctions k mask)] else []

/-- Device information with a recognized bit gives the node its new functions and cancels its discovery request. -/
theorem processDeviceInfo_of_recognized {k : Fin 6} {p : Packet} {s : State}
    (h : selectedCodes s.cfg (deviceMask p) ≠ []) : processDeviceInfo k p s = { s with
      topo := (s.setNode k (connectedNode (s.node k) ((selectedCodes s.cfg (deviceMask p)).take maxFunctions))).topo
      sch := ⟨s.sch.schedule.filter fun x => some x.id != (s.node k).discoveryId, s.sch.nextId⟩
      out := s.out ++ unknownBitsEvents s.cfg k (deviceMask p) ++ destroyedEvents k (s.node k).functions ++
        excessEvents k (selectedCodes s.cfg (deviceMask p)) (deviceMask p) ++
        createdEvents k ((selectedCodes s.cfg (deviceMask p)).take maxFunctions) } := by
  simp only [processDeviceInfo, if_neg h, cancelDiscovery_eq, functionEvents, List.append_assoc]
  simp only [State.emitAll, List.append_assoc]
  rfl

/-- What rules R226 to R228 say of the codes that a node takes from a mask, of the report of unrecognized bits, and of
the report of an excess. -/
structure FunctionsTaken (cfg : Config) (k : Fin 6) (mask : Word) (codes : List Word) (logs more : List Event) :
    Prop where
  nonempty     : codes ≠ []
  atMostThree  : codes.length ≤ 3
  descending   : codes.Pairwise fun c d => d.toNat < c.toNat
  recognized   : ∀ c ∈ codes, c ∈ cfg.functionTable.map (·.code) ∧ mask &&& c ≠ 0
  highest      : ∀ c ∈ cfg.functionTable.map (·.code), mask &&& c ≠ 0 →
    c ∈ codes ∨ (codes.length = 3 ∧ ∀ d ∈ codes, c.toNat < d.toNat)
  allKnown     : (∀ i, mask.getLsbD i = true → ∃ c ∈ cfg.functionTable.map (·.code), c.getLsbD i = true) → logs = []
  someUnknown  : (∃ i, mask.getLsbD i = true ∧ ∀ c ∈ cfg.functionTable.map (·.code), c.getLsbD i = false) →
    ∃ bits : Word, logs = [.log (.unknownFunctionBits k bits)] ∧
      ∀ i, bits.getLsbD i = true ↔ mask.getLsbD i = true ∧ ∀ c ∈ cfg.functionTable.map (·.code), c.getLsbD i = false
  noExcess     : (∀ c ∈ cfg.functionTable.map (·.code), mask &&& c ≠ 0 → c ∈ codes) → more = []
  excess       : (∃ c ∈ cfg.functionTable.map (·.code), mask &&& c ≠ 0 ∧ c ∉ codes) →
    more = [.log (.moreThanThreeFunctions k mask)]

/-- A table without repeats gives the highest three of the recognized codes, in falling order. -/
theorem functionsTaken_selectedCodes {cfg : Config} (hcfg : cfg.wf = true) (k : Fin 6) {mask : Word}
    (h : selectedCodes cfg mask ≠ []) : FunctionsTaken cfg k mask ((selectedCodes cfg mask).take maxFunctions)
      (unknownBitsEvents cfg k mask) (excessEvents k (selectedCodes cfg mask) mask) := by
  have hnodup : (cfg.functionTable.map (·.code)).Nodup := by
    simp only [Config.wf, Bool.and_eq_true, decide_eq_true_eq] at hcfg
    exact hcfg.2
  have hdesc := selectedCodes_desc cfg mask hnodup
  have hexcess : maxFunctions < (selectedCodes cfg mask).length ↔
      ∃ c ∈ cfg.functionTable.map (·.code), mask &&& c ≠ 0 ∧ c ∉ (selectedCodes cfg mask).take maxFunctions := by
    rw [maxFunctions, three_lt_length_iff hdesc]
    simp only [mem_selectedCodes, and_assoc]
  constructor
  case nonempty => simp [h, maxFunctions]
  case atMostThree => exact List.length_take_le _ _
  case descending => exact hdesc.sublist (List.take_sublist _ _)
  case recognized => exact fun c hc => (mem_selectedCodes cfg mask c).mp (List.mem_of_mem_take hc)
  case highest => exact fun c hc hmask => mem_take_three hdesc ((mem_selectedCodes cfg mask c).mpr ⟨hc, hmask⟩)
  case allKnown => exact fun hknown => if_pos ((unknownBits_eq_zero_iff cfg mask).mpr hknown)
  case someUnknown =>
    rintro ⟨i, hi⟩
    refine ⟨_, if_neg fun hzero => ?_, unknownBits_getLsbD cfg mask⟩
    have hbit := (unknownBits_getLsbD cfg mask i).mpr hi
    rw [hzero] at hbit
    simp at hbit
  case noExcess =>
    intro hall
    refine if_neg fun hlt => ?_
    obtain ⟨c, hc, hmask, hnot⟩ := hexcess.mp hlt
    exact hnot (hall c hc hmask)
  case excess => exact fun hsome => if_pos (hexcess.mpr hsome)

/-! ### Observe (rules R221, R229) -/

/-- The part of `Observe` before the device information: the failure count, and presence for the Main Node. -/
def noticed (k : Fin 6) (p : Packet) (s : State) : State :=
  if k = 0 then inferPresence p.sender (resetFailCount k s) else resetFailCount k s

theorem observe_of_present {k : Fin 6} {s : State} (h : s.isPresent k = true) (p : Packet) :
    observe k p s = if p.command = 0x05 then processDeviceInfo k p (noticed k p s) else noticed k p s := by
  simp only [observe, h, Bool.true_eq_false, if_false, noticed]

theorem calm_noticed (k : Fin 6) (p : Packet) (s : State) : Calm s (noticed k p s) := by
  unfold noticed
  split
  · exact (calm_resetFailCount k s).trans (calm_inferPresence _ _)
  · exact calm_resetFailCount k s

/-- A packet without a recognized function bit is noticed, and its unrecognized bits are reported. -/
theorem observe_of_unrecognized {k : Fin 6} {p : Packet} {s : State} (hpresent : s.isPresent k = true)
    (h : p.command = 0x05 → ∀ c ∈ s.cfg.functionTable.map (·.code), deviceMask p &&& c = 0) :
    observe k p s = (noticed k p s).emitAll
      (if p.command = 0x05 ∧ deviceMask p ≠ 0 then [.log (.unknownFunctionBits k (deviceMask p))] else []) := by
  rw [observe_of_present hpresent]
  by_cases hcommand : p.command = 0x05
  · rw [if_pos hcommand, processDeviceInfo_of_unrecognized (by rw [(calm_noticed k p s).cfg]; exact h hcommand)]
    by_cases hmask : deviceMask p = 0 <;> simp [hcommand, hmask]
  · rw [if_neg hcommand, if_neg fun h => hcommand h.1, State.emitAll_nil]

theorem resetFailCount_eq (k : Fin 6) (s : State) :
    resetFailCount k s = { s with topo := (resetFailCount k s).topo } := by
  unfold resetFailCount
  split <;> rfl

/-- The failure counter after a packet (rule R229); nothing else of a node changes. -/
theorem resetFailCount_node_eq (k j : Fin 6) (s : State) : (resetFailCount k s).node j = { s.node j with
    failCount := if j = k ∧ (s.node k).state = .connected then 0 else (s.node j).failCount } := by
  rw [resetFailCount_node]
  split
  next h => rw [h.1]
  next => rfl

/-- New functions come with a failure counter of their own. -/
theorem processDeviceInfo_resetFailCount {k : Fin 6} {p : Packet} {s : State}
    (h : selectedCodes s.cfg (deviceMask p) ≠ []) :
    processDeviceInfo k p (resetFailCount k s) = processDeviceInfo k p s := by
  unfold resetFailCount
  split
  · rw [processDeviceInfo_of_recognized (s := s.setNode k _) h, processDeviceInfo_of_recognized h,
      State.setNode_setNode_same, State.setNode_node_same]
    rfl
  · rfl

/-- Where no Sub Node comes or goes by the packet, only the failure counter changes. -/
theorem noticed_of_settled {k : Fin 6} {p : Packet} {s : State}
    (h : k = 0 → ∀ j : Fin 6, j ≠ 0 → (s.node j).present = p.sender.getLsbD (j.val - 1)) :
    noticed k p s = resetFailCount k s := by
  unfold noticed
  split
  next hk => exact inferPresence_eq_self _ _ fun j hj => by rw [resetFailCount_node_eq]; exact h hk j hj
  next => rfl

/-- Settles O38: what is noticed is the failure counter alone; the device information has a recognized bit or none. -/
theorem packetObserved : Obligations.PacketObserved := by
  unfold Obligations.PacketObserved
  intro s b k p t hb hsettled hpresent hvalid mask table
  let s' := s.emit (.callback (.txComplete (.node k) (some p) t))
  have hnoticed : noticed k p s' = resetFailCount k s' := noticed_of_settled hsettled
  rw [exec_nodeTxComplete_valid hb hvalid]
  refine ⟨fun hnone => ?_, fun hcfg hcommand hsome => ?_⟩
  · rw [observe_of_unrecognized (s := s') hpresent hnone, hnoticed, resetFailCount_eq]
    refine ⟨_, _, rfl, ?_, fun j hj => ?_, fun h => if_neg ?_, fun hcommand hmask => if_pos ⟨hcommand, hmask⟩⟩
    · exact (resetFailCount_node_eq k k s').trans (by simp only [true_and]; rfl)
    · exact (resetFailCount_node_eq k j s').trans (by simp only [hj, false_and, if_false]; rfl)
    · rintro ⟨hcommand, hmask⟩
      exact h.elim (absurd hcommand) hmask
  · have hselected : selectedCodes s.cfg mask ≠ [] := by
      rw [ne_eq, selectedCodes_eq_nil_iff]
      obtain ⟨c, hc, hmask⟩ := hsome
      exact fun h => hmask (h c hc)
    have htaken := functionsTaken_selectedCodes hcfg k hselected
    rw [observe_of_present (s := s') hpresent, if_pos hcommand, hnoticed,
      processDeviceInfo_resetFailCount (s := s') hselected, processDeviceInfo_of_recognized (s := s') hselected]
    exact ⟨_, _, _, _, rfl, State.setNode_node_same s k _, fun j hj => State.setNode_node_other s k j _ hj,
      htaken.nonempty, htaken.atMostThree, htaken.descending, htaken.recognized, htaken.highest, htaken.allKnown,
      htaken.someUnknown, htaken.noExcess, htaken.excess⟩

/-! ### Presence (rules R234 to R236) -/

/-- What the Main Node notices removes the pending transmissions of the Sub Nodes that go. -/
theorem noticed_main_schedule (p : Packet) (s : State) : (noticed 0 p s).sch.schedule =
    s.sch.schedule.filter (fun x => subIndices.all (fun j =>
      !((s.node j).present && !p.sender.getLsbD (j.val - 1) && x.recipient == nodeAddr s.cfg j))) := by
  rw [noticed, if_pos rfl, inferPresence_schedule]
  simp only [resetFailCount_node_eq, (calm_resetFailCount 0 s).cfg]
  rw [resetFailCount_eq]

/-- What the Main Node notices, on the trace, Sub Node by Sub Node. -/
theorem noticed_main_out (p : Packet) (s : State) : (noticed 0 p s).out = s.out ++ subIndices.flatMap (fun j =>
      if (s.node j).present && !p.sender.getLsbD (j.val - 1) then
        destroyedEvents j (s.node j).functions ++ [.log (.subNodeGone j)]
      else if p.sender.getLsbD (j.val - 1) && !(s.node j).present then [.log (.subNodePresent j)] else []) := by
  rw [noticed, if_pos rfl, inferPresence_out]
  simp only [resetFailCount_node_eq]
  rw [resetFailCount_eq]

/-- Each Sub Node follows its own bit. -/
theorem noticed_main_node_sub {j : Fin 6} (hj : j ≠ 0) (p : Packet) (s : State) : (noticed 0 p s).node j =
    if p.sender.getLsbD (j.val - 1) then { s.node j with present := true }
    else if (s.node j).present then ⟨false, .searching, [], 0, none⟩ else s.node j := by
  have hreset : (resetFailCount 0 s).node j = s.node j := by
    rw [resetFailCount_node, if_neg fun h => hj h.1]
  rw [noticed, if_pos rfl, inferPresence_node, if_neg hj, hreset]
  rfl

theorem noticed_main_node_zero (p : Packet) (s : State) : (noticed 0 p s).node 0 =
    { s.node 0 with failCount := if (s.node 0).state = .connected then 0 else (s.node 0).failCount } := by
  rw [noticed, if_pos rfl, inferPresence_node, if_pos rfl, resetFailCount_node_eq]
  simp only [true_and]

/-- Behind what is noticed, `Observe` writes no other node and adds nothing to the schedule. -/
theorem observe_behind_noticed {k : Fin 6} {s : State} (h : s.isPresent k = true) (p : Packet) :
    Calm (noticed k p s) (observe k p s) ∧ ∀ j, j ≠ k → (observe k p s).node j = (noticed k p s).node j := by
  rw [observe_of_present h]
  split
  · exact ⟨calm_processDeviceInfo k p _, fun j hj => by rw [processDeviceInfo_node, if_neg fun h => hj h.1]⟩
  · exact ⟨.refl _, fun _ _ => rfl⟩

/-- Settles O40: the Sub Nodes and their transmissions by what the Main Node notices, behind which nothing of them
changes; without a recognized bit only the report of the unrecognized bits follows. -/
theorem presenceFollowsSender : Obligations.PresenceFollowsSender := by
  unfold Obligations.PresenceFollowsSender
  rintro s b p t rfl hvalid here goes mask
  let s' := s.emit (.callback (.txComplete (.node 0) (some p) t))
  have hcalm : Calm s (observe 0 p s') := (calm_emit _ s).trans (calm_observe 0 p s')
  obtain ⟨hbehind, hnode⟩ := observe_behind_noticed (State.isPresent_zero s') p
  refine ⟨_, exec_nodeTxComplete_valid (b := 0) (k := 0) rfl hvalid t, fun j hj => ?_, fun j x hj hgoes hx haddr => ?_,
    hcalm.schedule, hcalm.nextId, hcalm.pkt, hcalm.bus, hcalm.tl, hcalm.mutexOwner, hcalm.cfg, hcalm.port, hcalm.out,
    fun hnone => ?_⟩
  · exact (hnode j hj).trans (noticed_main_node_sub hj p s')
  · have hmem := hbehind.schedule.subset hx
    rw [noticed_main_schedule, List.mem_filter, List.all_eq_true] at hmem
    obtain ⟨-, hall⟩ := hmem
    have hkept := hall j (mem_subIndices j hj)
    have hrecipient : (x.recipient == nodeAddr s'.cfg j) = true := beq_iff_eq.mpr haddr
    rw [hrecipient, Bool.and_true, Bool.not_eq_true'] at hkept
    cases hkept.symm.trans hgoes
  · rw [observe_of_unrecognized (State.isPresent_zero s') hnone]
    refine ⟨noticed_main_node_zero p s', noticed_main_schedule p s', ?_⟩
    rw [State.respond_out, State.emitAll_out, noticed_main_out]
    rfl

end Sys2Proof.Machine
end

section
/-! SUPPORT. The mutual-exclusion object (rules R296 to R299): what `TRYLOCK` and `UNLOCK` answer by the owner, and where
`LOCK` answers as `TRYLOCK` does. -/

namespace Sys2Proof.Machine

section
variable {s : State} {ctx : Context}

/-! ### TRYLOCK (rule R299) -/

theorem exec_tryLock_of_free (h : s.mutexOwner = none) :
    exec (.tryLock ctx) s = .next ((s.setOwner (some ctx)).respond (.lock .locked)) := by
  simp only [exec, execTryLock, h]

theorem exec_tryLock_of_owner (h : s.mutexOwner = some ctx) :
    exec (.tryLock ctx) s = .next (s.respond (.lock .wouldDeadlock)) := by
  simp only [exec, execTryLock, h, if_true]

theorem exec_tryLock_of_other {c : Context} (hc : c ≠ ctx) (h : s.mutexOwner = some c) :
    exec (.tryLock ctx) s = .next (s.respond (.lock .wouldBlock)) := by
  simp only [exec, execTryLock, h, hc, if_false]

/-! ### LOCK where it is enabled (rule R297) -/

theorem lockWaits_eq_false_iff : lockWaits ctx s = false ↔ s.mutexOwner = none ∨ s.mutexOwner = some ctx := by
  cases h : s.mutexOwner <;> simp [lockWaits, h]

/-- `LOCK` and `TRYLOCK` differ only where `LOCK` has to wait. -/
theorem exec_lock_of_enabled (h : lockWaits ctx s = false) : exec (.lock ctx) s = exec (.tryLock ctx) s := by
  obtain hfree | howner := lockWaits_eq_false_iff.mp h
  · simp only [exec, execLock, execTryLock, hfree]
  · simp only [exec, execLock, execTryLock, howner, if_true]

/-! ### UNLOCK (rule R298) -/

theorem exec_unlock_of_owner (h : s.mutexOwner = some ctx) :
    exec (.unlock ctx) s = .next ((s.setOwner none).respond .done) :=
  if_pos h

theorem exec_unlock_of_not_owner (h : s.mutexOwner ≠ some ctx) :
    exec (.unlock ctx) s = .next ((s.emit (.log .unlockByNonOwner)).respond .done) :=
  if_neg h

end

/-- Settles O43: by the owner; for a free object and for the owner itself `LOCK` is enabled and answers as `TRYLOCK`. -/
theorem mutexOperations : Obligations.MutexOperations := by
  unfold Obligations.MutexOperations
  intro s ctx
  refine ⟨fun hfree => ?_, fun howner => ?_, fun c hc hother => exec_tryLock_of_other hc hother,
    exec_unlock_of_not_owner⟩
  · have htry := exec_tryLock_of_free (ctx := ctx) hfree
    have henabled : lockWaits ctx s = false := lockWaits_eq_false_iff.mpr (.inl hfree)
    exact ⟨(exec_lock_of_enabled henabled).trans htry, htry⟩
  · have htry := exec_tryLock_of_owner howner
    have henabled : lockWaits ctx s = false := lockWaits_eq_false_iff.mpr (.inr howner)
    exact ⟨(exec_lock_of_enabled henabled).trans htry, htry, exec_unlock_of_owner howner⟩

end Sys2Proof.Machine
end

section
/-! SUPPORT. The invariants of the timeliner, the schedule and the bus phase (rules R30, R182, R205): what each speaks of,
and which operation keeps it and why. -/

namespace Sys2Proof.Machine

/-! ### The timeliner's invariant (rules R32, R205) -/

/-- The invariant speaks of the bus phase, the sent packet, the remembered transmission and the configuration alone. -/
theorem TimelinerInv.of_eq {s t : State} (h : TimelinerInv s) (hphase : t.bus.phase = s.bus.phase)
    (hpacket : t.bus.txPacket = s.bus.txPacket) (htl : t.tl = s.tl) (hcfg : t.cfg = s.cfg) : TimelinerInv t :=
  ⟨by rw [htl, hphase]; exact h.idleIff, by rw [htl, hpacket, hcfg]; exact h.carried⟩

theorem TimelinerInv.of_calm {s t : State} (h : TimelinerInv s) (hc : Calm s t) : TimelinerInv t :=
  h.of_eq (by rw [hc.bus]) (by rw [hc.bus]) hc.tl hc.cfg

/-- With an idle bus and nothing in flight the invariant holds. -/
theorem timelinerInv_of_idle {s : State} (hphase : s.bus.phase = .idle) (htl : s.tl.inFlight = none) : TimelinerInv s :=
  ⟨iff_of_true htl hphase, fun t ht => by cases htl.symm.trans ht⟩

theorem busFail_phase (ph : Phase) (r : Reason) (b : Bus) : (busFail ph r b).phase = ph := rfl

/-- What stage W can do: nothing, fail the write, arm the bus, or complete the write (rule R177). -/
theorem stageW_cases (now : Nat) (ev : LineEvents) (b : Bus) : stageW now ev b = b ∨
    (∃ r, stageW now ev b = busFail .writeFailed r b) ∨
    stageW now ev b = { b with phase := .readArmed, tArmed := now } ∨
    stageW now ev b = { b with phase := .writeComplete } := by
  by_cases hphase : b.phase = .writeInProgress
  · rw [stageW_eq hphase]
    split
    · exact .inr (.inl ⟨_, rfl⟩)
    split
    · split
      · exact .inr (.inr (.inl rfl))
      · exact .inr (.inr (.inr rfl))
    split
    · exact .inr (.inl ⟨_, rfl⟩)
    · exact .inl rfl
  · exact .inl (stageW_of_ne hphase now ev)

/-- What stage A can do: nothing, fail the read, or begin it (rule R179). -/
theorem stageA_cases (now : Nat) (ev : LineEvents) (b : Bus) : stageA now ev b = b ∨
    (∃ r, stageA now ev b = busFail .readFailed r b) ∨
    stageA now ev b = { b with phase := .readInProgress, tReadStart := now } := by
  by_cases hphase : b.phase = .readArmed
  · rw [stageA_eq hphase]
    split
    · exact .inr (.inr rfl)
    split
    · exact .inr (.inl ⟨_, rfl⟩)
    · exact .inl rfl
  · exact .inl (stageA_of_ne hphase now ev)

/-- What stage R can do: nothing, fail the read, or complete it with a valid packet (rules R180, R181). -/
theorem stageR_cases (cfg : Config) (now : Nat) (ev : LineEvents) (b : Bus) : stageR cfg now ev b = b ∨
    (∃ r, stageR cfg now ev b = busFail .readFailed r b) ∨
    ∃ p, Valid cfg p ∧ stageR cfg now ev b = { b with readBuffer := some p, phase := .readComplete } := by
  by_cases hphase : b.phase = .readInProgress
  · rw [stageR_eq hphase]
    split
    · exact .inr (.inl ⟨_, rfl⟩)
    split
    · split
      next p hp => exact .inr (.inr ⟨p, (isValid_iff_valid cfg p).mp (isValid_of_validateRx hp), rfl⟩)
      next => exact .inr (.inl ⟨_, rfl⟩)
    split
    · exact .inr (.inl ⟨_, rfl⟩)
    · exact .inl rfl
  · exact .inl (stageR_of_ne hphase cfg now ev)

theorem stageW_ne_idle {b : Bus} (h : b.phase ≠ .idle) (now : Nat) (ev : LineEvents) :
    (stageW now ev b).phase ≠ .idle := by
  rcases stageW_cases now ev b with e | ⟨r, e⟩ | e | e <;> rw [e]
  · exact h
  all_goals simp [busFail_phase]

theorem stageA_ne_idle {b : Bus} (h : b.phase ≠ .idle) (now : Nat) (ev : LineEvents) :
    (stageA now ev b).phase ≠ .idle := by
  rcases stageA_cases now ev b with e | ⟨r, e⟩ | e <;> rw [e]
  · exact h
  all_goals simp [busFail_phase]

theorem stageR_ne_idle {b : Bus} (h : b.phase ≠ .idle) (cfg : Config) (now : Nat) (ev : LineEvents) :
    (stageR cfg now ev b).phase ≠ .idle := by
  rcases stageR_cases cfg now ev b with e | ⟨r, e⟩ | ⟨p, -, e⟩ <;> rw [e]
  · exact h
  all_goals simp [busFail_phase]

/-- No stage before stage T idles a busy bus (rule R182), so a poll leaves idleness as it was until the bus is freed. -/
theorem polledBus_idle_iff (cfg : Config) (now : Nat) (ev : LineEvents) (b : Bus) :
    (polledBus cfg now ev b).phase = .idle ↔ b.phase = .idle := by
  refine ⟨fun h => ?_, fun h => by rw [polledBus_idle h, h]⟩
  by_contra hbusy
  exact stageR_ne_idle (stageA_ne_idle (stageW_ne_idle hbusy now ev) now ev) cfg now ev h

theorem TimelinerInv.readTask {s : State} (h : TimelinerInv s) (now : Nat) (ev : LineEvents) :
    TimelinerInv (Machine.readTask now ev s).2 := by
  rcases readTask_cases now ev s with ⟨hgoes, e⟩ | ⟨hends, hnone, e⟩ | ⟨t, hends, -, e⟩ <;> rw [e]
  · rw [freeBus_of_not_terminal hgoes]
    refine ⟨h.idleIff.trans (polledBus_idle_iff s.cfg now ev s.bus).symm, fun t ht => ?_⟩
    exact (polledBus_keeps s.cfg now ev s.bus).txPacket.trans (h.carried t ht)
  · rw [polledBus_idle (h.idleIff.mp hnone), h.idleIff.mp hnone] at hends
    cases hends
  · refine (timelinerInv_of_idle ?_ rfl).of_calm (calm_deliverResult _ _)
    rw [State.setInFlight_bus, State.setBus_bus, freeBus_of_terminal hends]

theorem TimelinerInv.writeTask {s : State} (h : TimelinerInv s) (now : Nat) (lineOpen : Bool) :
    TimelinerInv (Machine.writeTask now lineOpen s).2 := by
  rcases writeTask_cases now lineOpen s with e | ⟨t, l, -, -, -, -, -, e⟩ <;> rw [e]
  · exact h
  · refine TimelinerInv.of_calm ⟨?_, ?_⟩ (calm_deliver _ _ _)
    · simp
    · rintro u hu
      obtain rfl : t = u := by simpa using hu
      simp

theorem TimelinerInv.ensureDiscovery {s : State} (h : TimelinerInv s) (now : Nat) (k : Fin 6) :
    TimelinerInv (Machine.ensureDiscovery now s k) := by
  rcases ensureDiscovery_cases now s k with ⟨-, e⟩ | ⟨-, -, e⟩ | ⟨-, -, e⟩ <;> rw [e]
  · exact h
  · exact h.of_eq rfl rfl rfl rfl
  · exact h.of_eq rfl rfl rfl rfl

theorem kept_timelinerInv : Kept TimelinerInv where
  respond _ _ h := h.of_eq rfl rfl rfl rfl
  emit _ _ h := h.of_eq rfl rfl rfl rfl
  add _ _ _ _ h := h.of_eq rfl rfl rfl rfl
  pop _ _ _ _ _ h := h.of_eq rfl rfl rfl rfl
  cancel p s h := h.of_calm (calm_cancelWhere p s)
  readTask now ev _ h := h.readTask now ev
  writeTask now lineOpen _ h := h.writeTask now lineOpen
  ensureDiscovery now k _ h := h.ensureDiscovery now k
  observe k p s h := h.of_calm (calm_observe k p s)
  countFailure k s h := h.of_calm (calm_countFailure k s)

/-- Settles O31: the read half frees the bus exactly when it forgets the transmission, the write half starts the bus with the
packet of the transmission that it remembers, and nothing else writes either. -/
theorem timelinerInvKept : Obligations.TimelinerInvKept := by
  unfold Obligations.TimelinerInvKept
  intro i s t hpast hinv he
  have hnot : bypassesTimeliner i ≠ true := by rw [hpast]; decide
  exact exec_keeps kept_timelinerInv (fun _ _ _ h => h.of_eq rfl rfl rfl rfl) (fun _ _ _ h => h.of_eq rfl rfl rfl rfl)
    (fun _ _ _ => timelinerInv_of_idle rfl rfl) (fun h => absurd h hnot) (fun h => absurd h hnot) hinv he

/-! ### The schedule's invariant (rule R30) -/

/-- The invariant speaks of the scheduler and the configuration alone. -/
theorem SchedInv.of_eq {s t : State} (h : SchedInv s) (hsch : t.sch = s.sch) (hcfg : t.cfg = s.cfg) : SchedInv t := by
  constructor <;> rw [hsch]
  · exact h.sorted
  · exact h.idsDistinct
  · exact h.idsGiven
  · rw [hcfg]; exact h.packetsValid
  · exact h.wordsBounded
  · rw [hcfg]; exact h.capacity
  · exact h.nextIdPositive

/-- Entries may leave the schedule. -/
theorem SchedInv.of_sublist {s t : State} (h : SchedInv s) (hsub : t.sch.schedule.Sublist s.sch.schedule)
    (hnext : t.sch.nextId = s.sch.nextId) (hcfg : t.cfg = s.cfg) : SchedInv t where
  sorted := h.sorted.sublist hsub
  idsDistinct := h.idsDistinct.sublist (hsub.map _)
  idsGiven x hx := hnext ▸ h.idsGiven x (hsub.subset hx)
  packetsValid x hx := hcfg ▸ h.packetsValid x (hsub.subset hx)
  wordsBounded x hx := h.wordsBounded x (hsub.subset hx)
  capacity n hn := hsub.length_le.trans (h.capacity n (hcfg ▸ hn))
  nextIdPositive := hnext ▸ h.nextIdPositive

theorem SchedInv.of_calm {s t : State} (h : SchedInv s) (hc : Calm s t) : SchedInv t :=
  h.of_sublist hc.schedule hc.nextId hc.cfg

/-- An entry may be inserted where its own fields are as the invariant asks, its id is on no entry, and there is room. -/
theorem SchedInv.of_inserted {s t : State} (h : SchedInv s) {x : Transmission}
    (hschedule : t.sch.schedule = insertTx x s.sch.schedule) (hnext : s.sch.nextId ≤ t.sch.nextId) (hcfg : t.cfg = s.cfg)
    (hgiven : 1 ≤ x.id ∧ x.id < t.sch.nextId) (hfresh : ∀ y ∈ s.sch.schedule, y.id ≠ x.id)
    (hvalid : isValid s.cfg x.packet = true) (hwords : x.expectedResponseWords ≤ 255)
    (hroom : ∀ n, s.cfg.schedCapacity = some n → s.sch.schedule.length < n) : SchedInv t := by
  have hmem : ∀ y, y ∈ t.sch.schedule ↔ y = x ∨ y ∈ s.sch.schedule := fun y => by rw [hschedule, mem_insertTx]
  constructor
  case sorted => rw [hschedule]; exact insertTx_sorted x _ h.sorted
  case idsDistinct =>
    rw [hschedule, ((insertTx_perm x _).map _).nodup_iff, List.map_cons, List.nodup_cons]
    refine ⟨fun hx => ?_, h.idsDistinct⟩
    obtain ⟨y, hy, e⟩ := List.mem_map.mp hx
    exact hfresh y hy e
  case idsGiven =>
    intro y hy
    rcases (hmem y).mp hy with rfl | hy
    · exact hgiven
    · have := h.idsGiven y hy; omega
  case packetsValid =>
    intro y hy
    rw [hcfg]
    rcases (hmem y).mp hy with rfl | hy
    · exact hvalid
    · exact h.packetsValid y hy
  case wordsBounded =>
    intro y hy
    rcases (hmem y).mp hy with rfl | hy
    · exact hwords
    · exact h.wordsBounded y hy
  case capacity =>
    intro n hn
    rw [hschedule, length_insertTx]
    exact hroom n (hcfg ▸ hn)
  case nextIdPositive => exact h.nextIdPositive.trans hnext

/-- `ADD` inserts only what the invariant allows: its refusals are the invariant's clauses (rule R144). -/
theorem SchedInv.add {s t : State} (h : SchedInv s) {p : Packet} {a : AddOperands} (hadd : addRefuses p a s = false)
    (hsch : t.sch = ⟨insertTx (newTransmission p a s) s.sch.schedule, s.sch.nextId + 1⟩) (hcfg : t.cfg = s.cfg) :
    SchedInv t := by
  obtain ⟨hvalid, hwords, hroom, -⟩ := (addRefuses_eq_false_iff p a s).mp hadd
  have hnext : t.sch.nextId = s.sch.nextId + 1 := by rw [hsch]
  refine h.of_inserted (x := newTransmission p a s) (by rw [hsch]) (by omega) hcfg ⟨h.nextIdPositive, ?_⟩
    (fun y hy => ?_) ((isValid_iff_valid _ _).mpr hvalid) hwords hroom
  · rw [hnext]; exact Nat.lt_succ_self _
  · exact (h.idsGiven y hy).2.ne

/-- A pop takes an entry out, and puts it back with another time alone (rule R150). -/
theorem SchedInv.pop {s t : State} (h : SchedInv s) {id now : Nat} {l : List Transmission}
    (hpop : popSchedule id now s.sch.schedule = some l) (hsch : t.sch = ⟨l, s.sch.nextId⟩) (hcfg : t.cfg = s.cfg) :
    SchedInv t := by
  rcases popSchedule_cases id now s.sch.schedule with ⟨-, hnone⟩ | ⟨x, hx, -, rest, -, hperm, hsub, hsome⟩
  · cases hnone.symm.trans hpop
  obtain rfl := Option.some.inj (hsome.symm.trans hpop)
  have hrest : SchedInv (s.setSchedule rest) := h.of_sublist hsub rfl rfl
  split at hsch
  next =>
    have hdistinct := (hperm.map (·.id)).nodup_iff.mp h.idsDistinct
    rw [List.map_cons, List.nodup_cons] at hdistinct
    have hnext : t.sch.nextId = s.sch.nextId := by rw [hsch]
    refine hrest.of_inserted (x := { x with nextTimeUs := repeatTime x now }) (by rw [hsch]; rfl) hnext.ge hcfg
      (hnext ▸ h.idsGiven x hx) (fun y hy e => ?_) (h.packetsValid x hx) (h.wordsBounded x hx) (fun n hn => ?_)
    · exact hdistinct.1 (List.mem_map.mpr ⟨y, hy, e⟩)
    · have hlength := hperm.length_eq
      rw [List.length_cons] at hlength
      have hcapacity := h.capacity n hn
      simp only [State.setSchedule_sch]
      omega
  next => exact hrest.of_eq hsch hcfg

theorem SchedInv.writeTask {s : State} (h : SchedInv s) (now : Nat) (lineOpen : Bool) :
    SchedInv (Machine.writeTask now lineOpen s).2 := by
  rcases writeTask_cases now lineOpen s with e | ⟨t, l, -, -, -, -, hpop, e⟩ <;> rw [e]
  · exact h
  · exact h.pop hpop rfl rfl

theorem SchedInv.ensureDiscovery {s : State} (h : SchedInv s) (now : Nat) (k : Fin 6) :
    SchedInv (Machine.ensureDiscovery now s k) := by
  rcases ensureDiscovery_cases now s k with ⟨-, e⟩ | ⟨-, -, e⟩ | ⟨-, hadd, e⟩ <;> rw [e]
  · exact h
  · exact h.of_eq rfl rfl
  · exact h.add hadd rfl rfl

theorem kept_schedInv : Kept SchedInv where
  respond _ _ h := h.of_eq rfl rfl
  emit _ _ h := h.of_eq rfl rfl
  add _ _ _ hadd h := h.add hadd rfl rfl
  pop _ _ _ _ hpop h := h.pop hpop rfl rfl
  cancel p s h := h.of_calm (calm_cancelWhere p s)
  readTask now ev s h := h.of_eq (readTask_sch now ev s) (taskFrame_readTask now ev s).cfg
  writeTask now lineOpen _ h := h.writeTask now lineOpen
  ensureDiscovery now k _ h := h.ensureDiscovery now k
  observe k p s h := h.of_calm (calm_observe k p s)
  countFailure k s h := h.of_calm (calm_countFailure k s)

/-- An empty schedule meets every clause. -/
theorem schedInv_of_empty {s : State} (h : s.sch = ⟨[], 1⟩) : SchedInv s := by
  constructor <;> simp [h]

theorem busWrite_cfg (p : Packet) (w : WriteOperands) (s : State) : (busWrite p w s).2.cfg = s.cfg := by
  rcases busWrite_cases p w s with ⟨-, e⟩ | ⟨-, e⟩ <;> simp [e]

/-- Settles O54: only `ADD` and `POPITEM` insert, each what the invariant allows; everything else only removes. -/
theorem schedInvKept : Obligations.SchedInvKept := by
  unfold Obligations.SchedInvKept
  intro s t hinv he
  exact step_keeps kept_schedInv (fun _ _ h => h.of_eq rfl rfl) (fun _ _ h => h.of_eq rfl rfl)
    (fun _ _ h => h.of_eq rfl rfl) (fun _ _ _ => schedInv_of_empty rfl) (fun _ _ _ h => h.of_eq rfl rfl)
    (fun p w s h => h.of_eq (busWrite_sch p w s) (busWrite_cfg p w s)) hinv he

/-! ### The bus phase (rule R182) -/

theorem PhaseInv.of_bus_eq {s t : State} (h : PhaseInv s) (e : t.bus = s.bus) : PhaseInv t := by rwa [PhaseInv, e]

theorem phaseInv_processEvents (now : Nat) (ev : LineEvents) (s : State) : PhaseInv (processEvents now ev s).2 :=
  freeBus_not_terminal _

/-- The read half is a poll as far as the bus unit is concerned. -/
theorem readTask_bus (now : Nat) (ev : LineEvents) (s : State) :
    (readTask now ev s).2.bus = freeBus (polledBus s.cfg now ev s.bus) := by
  rcases readTask_cases now ev s with ⟨-, e⟩ | ⟨-, -, e⟩ | ⟨t, -, -, e⟩ <;> rw [e]
  · rfl
  · rfl
  · exact (calm_deliverResult _ _).bus

theorem PhaseInv.busWrite {s : State} (h : PhaseInv s) (p : Packet) (w : WriteOperands) :
    PhaseInv (Machine.busWrite p w s).2 := by
  rcases busWrite_cases p w s with ⟨-, e⟩ | ⟨-, e⟩ <;> rw [e]
  · rfl
  · exact h

theorem PhaseInv.writeTask {s : State} (h : PhaseInv s) (now : Nat) (lineOpen : Bool) :
    PhaseInv (Machine.writeTask now lineOpen s).2 := by
  rcases writeTask_cases now lineOpen s with e | ⟨t, l, -, -, -, -, -, e⟩ <;> rw [e]
  · exact h
  · rfl

theorem ensureDiscovery_bus (now : Nat) (k : Fin 6) (s : State) : (ensureDiscovery now s k).bus = s.bus := by
  rcases ensureDiscovery_cases now s k with ⟨-, e⟩ | ⟨-, -, e⟩ | ⟨-, -, e⟩ <;> rw [e] <;> rfl

theorem kept_phaseInv : Kept PhaseInv where
  respond _ _ h := h.of_bus_eq rfl
  emit _ _ h := h.of_bus_eq rfl
  add _ _ _ _ h := h.of_bus_eq rfl
  pop _ _ _ _ _ h := h.of_bus_eq rfl
  cancel p s h := h.of_bus_eq (calm_cancelWhere p s).bus
  readTask now ev s _ := by rw [PhaseInv, readTask_bus]; exact freeBus_not_terminal _
  writeTask now lineOpen _ h := h.writeTask now lineOpen
  ensureDiscovery now k s h := h.of_bus_eq (ensureDiscovery_bus now k s)
  observe k p s h := h.of_bus_eq (calm_observe k p s).bus
  countFailure k s h := h.of_bus_eq (calm_countFailure k s).bus

/-- Settles O56: every poll frees the bus from a terminal phase, and a started write is in none. -/
theorem phaseInvKept : Obligations.PhaseInvKept := by
  unfold Obligations.PhaseInvKept
  intro s t hinv he
  exact step_keeps kept_phaseInv (fun _ _ h => h.of_bus_eq rfl) (fun _ _ h => h.of_bus_eq rfl)
    (fun _ _ h => h.of_bus_eq rfl) (fun _ _ _ => rfl) (fun now ev s _ => phaseInv_processEvents now ev s)
    (fun p w _ h => h.busWrite p w) hinv he

end Sys2Proof.Machine
end

section
/-! SUPPORT. The topology's invariant (rules R43, R44, R46, R47, R247): the node records that meet it, and which records each
operation leaves. -/

namespace Sys2Proof.Machine

/-! ### Node records that meet the invariant -/

section
variable {s t : State} {k : Fin 6}

/-- Where a node keeps its state and its functions, what is left of its invariant is about its counter, its discovery id and
its presence. -/
theorem NodeInv.of_functions_eq (h : NodeInv s k) (hcfg : t.cfg = s.cfg) (hstate : (t.node k).state = (s.node k).state)
    (hfunctions : (t.node k).functions = (s.node k).functions)
    (hsearching : (s.node k).state = .searching → (t.node k).failCount = 0)
    (hbelow : (t.node k).failCount < s.cfg.failThreshold)
    (hid : (t.node k).discoveryId ≠ none → (s.node k).state = .searching ∧ t.isPresent k = true)
    (habsent : t.isPresent k = false →
      s.isPresent k = false ∧ (t.node k).failCount = 0 ∧ (t.node k).discoveryId = none) : NodeInv t k where
  connectedIff := by rw [hstate, hfunctions]; exact h.connectedIff
  atMostThree := by rw [hfunctions]; exact h.atMostThree
  descending := by rw [hfunctions]; exact h.descending
  recognized := by rw [hfunctions, hcfg]; exact h.recognized
  noFailuresSearching := by rw [hstate]; exact hsearching
  belowThreshold := by rw [hcfg]; exact hbelow
  discoveryOnlySearching := by rw [hstate]; exact hid
  absentIsEmpty hgone := by
    obtain ⟨hwas, hcount, hnone⟩ := habsent hgone
    obtain ⟨hstate', hfunctions', -, -⟩ := h.absentIsEmpty hwas
    exact ⟨hstate.trans hstate', hfunctions.trans hfunctions', hcount, hnone⟩

/-- The invariant of a node speaks of its record and of the configuration alone. -/
theorem NodeInv.of_node_eq (h : NodeInv s k) (hnode : t.node k = s.node k) (hcfg : t.cfg = s.cfg) : NodeInv t k := by
  have hpresent : t.isPresent k = s.isPresent k := by rw [State.isPresent, hnode, State.isPresent]
  refine h.of_functions_eq hcfg ?_ ?_ ?_ ?_ ?_ ?_ <;> rw [hnode]
  · exact h.noFailuresSearching
  · exact h.belowThreshold
  · rw [hpresent]; exact h.discoveryOnlySearching
  · rw [hpresent]
    intro habsent
    obtain ⟨-, -, hcount, hnone⟩ := h.absentIsEmpty habsent
    exact ⟨habsent, hcount, hnone⟩

/-- A searching node with nothing meets the invariant, present or not (rule R231). -/
theorem nodeInv_of_cleared (hthreshold : 0 < t.cfg.failThreshold) {b : Bool}
    (hnode : t.node k = ⟨b, .searching, [], 0, none⟩) : NodeInv t k := by
  constructor <;> simp [hnode, hthreshold]

/-- A present node that gets recognized functions in falling order, at most three, meets the invariant (rule R226). -/
theorem nodeInv_of_connected (hthreshold : 0 < t.cfg.failThreshold) (hpresent : t.isPresent k = true) {codes : List Word}
    {n : Node} (hnode : t.node k = connectedNode n codes) (hne : codes ≠ []) (hthree : codes.length ≤ 3)
    (hdesc : codes.Pairwise fun c d => d.toNat < c.toNat)
    (hrecognized : ∀ c ∈ codes, c ∈ t.cfg.functionTable.map (·.code)) : NodeInv t k := by
  constructor <;> rw [hnode]
  · exact iff_of_true rfl hne
  · exact hthree
  · exact hdesc
  · exact hrecognized
  · exact fun h => by cases h
  · exact hthreshold
  · exact fun h => absurd rfl h
  · exact fun h => by cases h.symm.trans hpresent

/-- The failure counter of a present, connected node may take any value below the threshold, and that of any node 0. -/
theorem NodeInv.of_failCount (h : NodeInv s k) {n : Nat} (hcfg : t.cfg = s.cfg)
    (hnode : t.node k = { s.node k with failCount := n }) (hthreshold : n < s.cfg.failThreshold)
    (hn : n = 0 ∨ (s.isPresent k = true ∧ (s.node k).state = .connected)) : NodeInv t k := by
  have hpresent : t.isPresent k = s.isPresent k := by rw [State.isPresent, hnode, State.isPresent]
  refine h.of_functions_eq hcfg ?_ ?_ ?_ ?_ ?_ ?_ <;> rw [hnode]
  · intro hsearching
    refine hn.resolve_right fun ⟨_, hconnected⟩ => ?_
    cases hsearching.symm.trans hconnected
  · exact hthreshold
  · rw [hpresent]; exact h.discoveryOnlySearching
  · rw [hpresent]
    intro habsent
    obtain ⟨-, -, -, hnone⟩ := h.absentIsEmpty habsent
    refine ⟨habsent, hn.resolve_right fun ⟨hhere, _⟩ => ?_, hnone⟩
    cases habsent.symm.trans hhere

/-- A Sub Node that comes keeps its record: an absent one has nothing (rule R234). -/
theorem NodeInv.of_present (h : NodeInv s k) (hcfg : t.cfg = s.cfg)
    (hnode : t.node k = { s.node k with present := true }) : NodeInv t k := by
  have hpresent : t.isPresent k = true := by rw [State.isPresent, hnode, Bool.or_true]
  refine h.of_functions_eq hcfg ?_ ?_ ?_ ?_ ?_ ?_ <;> rw [hnode]
  · exact h.noFailuresSearching
  · exact h.belowThreshold
  · exact fun hid => ⟨(h.discoveryOnlySearching hid).1, hpresent⟩
  · exact fun habsent => by cases habsent.symm.trans hpresent

/-- A present, searching node may get a discovery id (rule R220). -/
theorem NodeInv.of_discoveryId (h : NodeInv s k) (hcfg : t.cfg = s.cfg) {o : Option Nat}
    (hnode : t.node k = { s.node k with discoveryId := o }) (hhere : s.isPresent k = true)
    (hsearching : (s.node k).state = .searching) : NodeInv t k := by
  have hpresent : t.isPresent k = true := by rw [State.isPresent, hnode]; exact hhere
  refine h.of_functions_eq hcfg ?_ ?_ ?_ ?_ ?_ ?_ <;> rw [hnode]
  · exact h.noFailuresSearching
  · exact h.belowThreshold
  · exact fun _ => ⟨hsearching, hpresent⟩
  · exact fun habsent => by cases habsent.symm.trans hpresent

end

/-! ### The operations -/

theorem Config.failThreshold_pos {cfg : Config} (h : cfg.wf = true) : 0 < cfg.failThreshold := by
  simp only [Config.wf, Bool.and_eq_true, decide_eq_true_eq] at h
  omega

theorem TopoInv.failThreshold_pos {s : State} (h : TopoInv s) : 0 < s.cfg.failThreshold :=
  Config.failThreshold_pos h.config

/-- The invariant speaks of the node records and the configuration alone. -/
theorem TopoInv.of_eq {s t : State} (h : TopoInv s) (htopo : t.topo = s.topo) (hcfg : t.cfg = s.cfg) : TopoInv t :=
  ⟨hcfg ▸ h.config, fun k => (h.nodes k).of_node_eq (by rw [State.node, htopo, State.node]) hcfg⟩

theorem TopoInv.resetFailCount {s : State} (h : TopoInv s) (k : Fin 6) : TopoInv (Machine.resetFailCount k s) where
  config := by rw [(calm_resetFailCount k s).cfg]; exact h.config
  nodes j := by
    have hcfg := (calm_resetFailCount k s).cfg
    by_cases hj : j = k ∧ (s.node k).state = .connected
    · refine (h.nodes j).of_failCount hcfg ?_ h.failThreshold_pos (.inl rfl)
      rw [resetFailCount_node, if_pos hj, hj.1]
    · exact (h.nodes j).of_node_eq (by rw [resetFailCount_node, if_neg hj]) hcfg

theorem TopoInv.inferPresence {s : State} (h : TopoInv s) (sender : Byte) : TopoInv (Machine.inferPresence sender s) where
  config := by rw [(calm_inferPresence sender s).cfg]; exact h.config
  nodes j := by
    have hcfg := (calm_inferPresence sender s).cfg
    have hnode := inferPresence_node sender j s
    split at hnode
    next hj => exact (h.nodes j).of_node_eq (by rw [hnode, hj]) hcfg
    split at hnode
    · exact (h.nodes j).of_present hcfg hnode
    split at hnode
    · exact nodeInv_of_cleared (by rw [hcfg]; exact h.failThreshold_pos) hnode
    · exact (h.nodes j).of_node_eq hnode hcfg

theorem TopoInv.noticed {s : State} (h : TopoInv s) (k : Fin 6) (p : Packet) : TopoInv (Machine.noticed k p s) := by
  unfold Machine.noticed
  split
  · exact (h.resetFailCount k).inferPresence p.sender
  · exact h.resetFailCount k

/-- A present node stays present by what it notices. -/
theorem noticed_isPresent {k : Fin 6} {s : State} (h : s.isPresent k = true) (p : Packet) :
    (noticed k p s).isPresent k = true := by
  by_cases hk : k = 0
  · rw [hk]; rfl
  · rw [noticed, if_neg hk, State.isPresent, resetFailCount_node_eq]
    exact h

theorem processDeviceInfo_isPresent (k j : Fin 6) (p : Packet) (s : State) :
    (processDeviceInfo k p s).isPresent j = s.isPresent j := by
  rw [State.isPresent, processDeviceInfo_node, State.isPresent]
  split
  next h => rw [h.1]; rfl
  next => rfl

theorem TopoInv.processDeviceInfo {s : State} (h : TopoInv s) {k : Fin 6} (hpresent : s.isPresent k = true) (p : Packet) :
    TopoInv (Machine.processDeviceInfo k p s) where
  config := by rw [(calm_processDeviceInfo k p s).cfg]; exact h.config
  nodes j := by
    have hcfg := (calm_processDeviceInfo k p s).cfg
    have hnode := processDeviceInfo_node k j p s
    split at hnode
    next hj =>
      obtain ⟨rfl, hselected⟩ := hj
      have htaken := functionsTaken_selectedCodes h.config j hselected
      exact nodeInv_of_connected (by rw [hcfg]; exact h.failThreshold_pos)
        ((processDeviceInfo_isPresent j j p s).trans hpresent) hnode htaken.nonempty htaken.atMostThree
        htaken.descending (fun c hc => by rw [hcfg]; exact (htaken.recognized c hc).1)
    next => exact (h.nodes j).of_node_eq hnode hcfg

theorem TopoInv.observe {s : State} (h : TopoInv s) (k : Fin 6) (p : Packet) : TopoInv (Machine.observe k p s) := by
  by_cases hpresent : s.isPresent k = true
  · rw [observe_of_present hpresent]
    split
    · exact (h.noticed k p).processDeviceInfo (noticed_isPresent hpresent p) p
    · exact h.noticed k p
  · rw [Machine.observe, if_pos (Bool.eq_false_iff.mpr hpresent)]
    exact h

/-- A failure is counted below the threshold; the one that reaches it clears the records of the nodes torn down. -/
theorem TopoInv.countFailure {s : State} (h : TopoInv s) (k : Fin 6) : TopoInv (Machine.countFailure k s) := by
  have hcfg := (calm_countFailure k s).cfg
  by_cases hcounts : s.isPresent k = true ∧ (s.node k).state = .connected
  · obtain ⟨hpresent, hconnected⟩ := hcounts
    refine ⟨by rw [hcfg]; exact h.config, fun j => ?_⟩
    rcases Nat.lt_or_ge ((s.node k).failCount + 1) s.cfg.failThreshold with hbelow | hreached
    · rw [countFailure_of_lt hpresent hconnected hbelow] at hcfg ⊢
      have hnode := failureCounted_node k j s
      split at hnode
      next hj =>
        subst hj
        exact (h.nodes j).of_failCount hcfg hnode hbelow (.inr ⟨hpresent, hconnected⟩)
      next => exact (h.nodes j).of_node_eq hnode hcfg
    · rw [countFailure_of_le hpresent hconnected hreached] at hcfg ⊢
      have hthreshold : 0 < (disconnect k (failureCounted k s)).cfg.failThreshold := by
        rw [hcfg]; exact h.failThreshold_pos
      have hnode := disconnect_failureCounted_node k j s
      split at hnode
      · exact nodeInv_of_cleared hthreshold hnode
      split at hnode
      · exact nodeInv_of_cleared hthreshold hnode
      · exact (h.nodes j).of_node_eq hnode hcfg
  · rw [countFailure_of_not_counting]
    · exact h
    · rw [← Bool.not_eq_true]
      refine (not_and_or.mp hcounts).imp_right fun hnot => ?_
      cases hstate : (s.node k).state with
      | searching => rfl
      | connected => exact absurd hstate hnot

theorem TopoInv.ensureDiscovery {s : State} (h : TopoInv s) (now : Nat) (k : Fin 6) :
    TopoInv (Machine.ensureDiscovery now s k) := by
  rcases ensureDiscovery_cases now s k with ⟨-, e⟩ | ⟨-, -, e⟩ | ⟨hwants, -, e⟩
  · rwa [e]
  · rw [e]; exact h.of_eq rfl rfl
  · obtain ⟨hpresent, hsearching, -⟩ := (wantsDiscovery_iff k s).mp hwants
    rw [e]
    refine ⟨h.config, fun j => ?_⟩
    by_cases hj : j = k
    · subst hj
      exact (h.nodes j).of_discoveryId rfl (State.setNode_node_same _ j _) hpresent hsearching
    · exact (h.nodes j).of_node_eq (State.setNode_node_other _ k j _ hj) rfl

theorem readTask_topo (now : Nat) (ev : LineEvents) (s : State) : (readTask now ev s).2.topo = s.topo := by
  rcases readTask_cases now ev s with ⟨-, e⟩ | ⟨-, -, e⟩ | ⟨t, -, -, e⟩ <;> simp [e]

theorem writeTask_topo (now : Nat) (lineOpen : Bool) (s : State) : (writeTask now lineOpen s).2.topo = s.topo := by
  rcases writeTask_cases now lineOpen s with e | ⟨t, l, -, -, -, -, -, e⟩
  · rw [e]
  · rw [e]; rfl

theorem busWrite_topo (p : Packet) (w : WriteOperands) (s : State) : (busWrite p w s).2.topo = s.topo := by
  rcases busWrite_cases p w s with ⟨-, e⟩ | ⟨-, e⟩ <;> simp [e]

theorem kept_topoInv : Kept TopoInv where
  respond _ _ h := h.of_eq rfl rfl
  emit _ _ h := h.of_eq rfl rfl
  add _ _ _ _ h := h.of_eq rfl rfl
  pop _ _ _ _ _ h := h.of_eq rfl rfl
  cancel _ _ h := h.of_eq rfl rfl
  readTask now ev s h := h.of_eq (readTask_topo now ev s) (taskFrame_readTask now ev s).cfg
  writeTask now lineOpen s h := h.of_eq (writeTask_topo now lineOpen s) (taskFrame_writeTask now lineOpen s).cfg
  ensureDiscovery now k _ h := h.ensureDiscovery now k
  observe k p _ h := h.observe k p
  countFailure k _ h := h.countFailure k

/-- After `RESET` every node is cleared. -/
theorem topoInv_resetState {s : State} (h : s.cfg.wf = true) : TopoInv (resetState s) :=
  ⟨h, fun k => nodeInv_of_cleared (Config.failThreshold_pos h) (resetState_node s k)⟩

/-- Settles O55: each operation leaves node records that meet the invariant. -/
theorem topoInvKept : Obligations.TopoInvKept := by
  unfold Obligations.TopoInvKept
  intro s t hinv he
  exact step_keeps kept_topoInv (fun _ _ h => h.of_eq rfl rfl) (fun _ _ h => h.of_eq rfl rfl)
    (fun _ _ h => h.of_eq rfl rfl) (fun _ _ h => topoInv_resetState h.config) (fun _ _ _ h => h.of_eq rfl rfl)
    (fun p w s h => h.of_eq (busWrite_topo p w s) (busWrite_cfg p w s)) hinv he

/-- Settles O57: the model's reset state is what `RESET` leaves of itself, empty and idle. -/
theorem invariantsAtReset : Obligations.InvariantsAtReset := by
  unfold Obligations.InvariantsAtReset
  exact ⟨schedInv_of_empty rfl, topoInv_resetState (s := State.reset) (by decide), rfl, timelinerInv_of_idle rfl rfl⟩

end Sys2Proof.Machine
end

section
/-! SUPPORT. The request of an instruction (rules R90, R96, R100 to R102): decoding gives back what was encoded, and whatever
is decoded fits its encoding. -/

namespace Sys2Proof.Machine

/-! ### Decoding what was encoded -/

/-- `ADD`'s request decodes though its trailing operands end it (rule R106). -/
theorem decode_encode_add (p : Packet) (a : AddOperands) (hp : wfPacket p = true) (ha : wfAddOperands a = true) :
    decode (encode (.add p a)) = .ok (.add p a) := by
  have hoperands : operandsOf (0x10 : Byte).toNat = some (mapP takeAdd fun x => .add x.1 x.2) := rfl
  simp only [encode, decode, decodeOp, hoperands, mapP, takeAdd_put p a hp ha]

/-- Settles O51: for each instruction the reader that its code selects reads back, operand by operand, what the encoder
wrote. -/
theorem decodeEncode : Obligations.DecodeEncode := by
  unfold Obligations.DecodeEncode
  intro i hi
  have h := hi
  cases i <;> simp only [Instr.wf, Bool.and_eq_true] at h <;> simp only [encode, decode]
  case crcInit => exact decodeOp_reads rfl (reads_takeNone _)
  case crcUpdate b => exact decodeOp_reads rfl (reads_mapP (reads_takeByte b) _)
  case crcRead => exact decodeOp_reads rfl (reads_takeNone _)
  case crc8 bytes => exact decodeOp_reads rfl (reads_mapP (reads_takeBytes bytes h) _)
  case mkAddr player mask =>
    exact decodeOp_reads rfl (reads_takeByte_thenP (reads_mapP (reads_takeByte mask) _))
  case encode c r a ws =>
    exact decodeOp_reads rfl (reads_takeByte_thenP (reads_takeByte_thenP (reads_takeByte_thenP
      (reads_mapP (reads_takeWords ws h) _))))
  case decode bytes => exact decodeOp_reads rfl (reads_mapP (reads_takeBytes bytes h) _)
  case isValid p => exact decodeOp_reads rfl (reads_mapP (reads_takePacket p h) _)
  case setSender p a => exact decodeOp_reads rfl (reads_thenP (reads_takePacket p h) (reads_mapP (reads_takeByte a) _))
  case add p a => exact decode_encode_add p a h.1 h.2
  case peekNext now => exact decodeOp_reads rfl (reads_mapP (reads_takeTime now h) _)
  case popItem id now =>
    exact decodeOp_reads rfl (reads_thenP (reads_takeId id h.1) (reads_mapP (reads_takeTime now h.2) _))
  case cancelById id => exact decodeOp_reads rfl (reads_mapP (reads_takeId id h) _)
  case cancelByRecipient a => exact decodeOp_reads rfl (reads_mapP (reads_takeByte a) _)
  case cancelAll => exact decodeOp_reads rfl (reads_takeNone _)
  case countRecipients a => exact decodeOp_reads rfl (reads_mapP (reads_takeByte a) _)
  case write p w =>
    exact decodeOp_reads rfl (reads_thenP (reads_takePacket p h.1) (reads_mapP (reads_takeWriteOperands w h.2) _))
  case processEvents now ev =>
    exact decodeOp_reads rfl (reads_thenP (reads_takeTime now h.1) (reads_mapP (reads_takeEvents ev h.2) _))
  case isBusy => exact decodeOp_reads rfl (reads_takeNone _)
  case getReadData => exact decodeOp_reads rfl (reads_takeNone _)
  case tlReadTask now ev =>
    exact decodeOp_reads rfl (reads_thenP (reads_takeTime now h.1) (reads_mapP (reads_takeEvents ev h.2) _))
  case tlWriteTask now lineOpen =>
    exact decodeOp_reads rfl (reads_thenP (reads_takeTime now h) (reads_mapP (reads_takeBool lineOpen) _))
  case nodeTask now ev lineOpen =>
    exact decodeOp_reads rfl (reads_thenP (reads_takeTime now h.1) (reads_thenP (reads_takeEvents ev h.2)
      (reads_mapP (reads_takeBool lineOpen) _)))
  case nodeTxStarted k t =>
    exact decodeOp_reads rfl (reads_takeByte_thenP (reads_mapP (reads_takeTransmission t h) _))
  case nodeTxFailed k w r t =>
    exact decodeOp_reads rfl (reads_takeByte_thenP (reads_thenP (reads_takeBool w) (reads_thenP (reads_takeBool r)
      (reads_mapP (reads_takeTransmission t h) _))))
  case nodeTxComplete k p t =>
    have hp : Reads (takeOption takePacket) (putOption putPacket p) p :=
      reads_takeOption fun q e => reads_takePacket q (by rw [e] at h; exact h.1)
    exact decodeOp_reads rfl (reads_takeByte_thenP (reads_thenP hp (reads_mapP (reads_takeTransmission t h.2) _)))
  case reset => exact decodeOp_reads rfl (reads_takeNone _)
  case lock ctx => exact decodeOp_reads rfl (reads_mapP (reads_takeContext ctx) _)
  case unlock ctx => exact decodeOp_reads rfl (reads_mapP (reads_takeContext ctx) _)
  case tryLock ctx => exact decodeOp_reads rfl (reads_mapP (reads_takeContext ctx) _)
  -- the twelve command codes: the packet and its passage read back, and the code selects the instruction
  all_goals exact decode_putFrame _ _ _ _ _ _ _ h rfl

/-! ### What is decoded fits -/

/-- The instruction of a command code is well formed where the frame is. -/
theorem wf_of_frameInstr {c : Nat} {r a n : Byte} {ws : List Word} {v : Passage} {i : Instr}
    (h : frameInstr c r a n ws v = some i) (hframe : wfFrame n ws v = true) : i.wf = true := by
  unfold frameInstr at h
  split at h <;> cases h <;> exact hframe

theorem wf_of_decodeOp {bs : List Byte} {i : Instr} (h : decodeOp bs = .ok i) : i.wf = true := by
  unfold decodeOp at h
  split at h
  · cases h
  split at h
  · cases h
  next code operands p hp =>
  split at h
  · cases h
  next j rest hread =>
  cases h
  exact yields_operandsOf _ p hp _ _ _ hread

theorem wf_of_decodeFrame {bs : List Byte} {i : Instr} (h : decodeFrame bs = .ok i) : i.wf = true := by
  unfold decodeFrame at h
  split at h
  · cases h
  next command recipient sender count payload via rest hread =>
  split at h
  next j hj =>
    cases h
    exact wf_of_frameInstr hj (yields_takeFrame _ _ _ hread)
  · cases h

/-- Settles O52: every reader of an operand yields what fits its field, in either format. -/
theorem decodedWellFormed : Obligations.DecodedWellFormed := by
  unfold Obligations.DecodedWellFormed
  intro r i h
  cases r with
  | op bs => exact wf_of_decodeOp h
  | frame bs => exact wf_of_decodeFrame h

/-- Settles O53: each request is what the encoder writes for its instruction. -/
theorem sampleRequests : Obligations.SampleRequests := by
  unfold Obligations.SampleRequests
  exact ⟨decodeEncode (.crcUpdate 0x5A) rfl, decodeEncode (.mkAddr 0x01 0x20) rfl, decodeEncode (.peekNext 1000) rfl,
    decodeEncode (.cancelById 258) rfl, decodeEncode (.tlWriteTask 100 true) rfl, decodeEncode .reset rfl,
    decodeEncode (.getCondition 0x60 0x40 0x01 [0x00000001] (.readTask 100)) rfl⟩

end Sys2Proof.Machine
end

section
/-! SUPPORT. The request port (rules R11, R102, R263, R297, R310, R328; log entries 2, 3 and 7): which request a step takes, and
what becomes of one that is no instruction. -/

namespace Sys2Proof.Machine

/-! ### Which request is taken -/

section
variable {s : State} {r : Request} {rest : List Request}

/-- Of the requests that decode, only a `LOCK` waits (rule R297). -/
theorem requestWaits_iff {i : Instr} (h : decode r = .ok i) :
    requestWaits s r = true ↔ ∃ ctx, i = .lock ctx ∧ lockWaits ctx s = true := by
  simp only [requestWaits, h]
  split
  next ctx e =>
    cases e
    exact ⟨fun hwaits => ⟨ctx, rfl, hwaits⟩, fun ⟨_, e, hwaits⟩ => by cases e; exact hwaits⟩
  next hother => exact iff_of_false (by decide) fun ⟨ctx, e, _⟩ => hother ctx (congrArg _ e)

theorem requestWaits_of_error {e : DecodeError} (h : decode r = .error e) : requestWaits s r = false := by
  simp only [requestWaits, h]

theorem requestIssuer_of_ok {i : Instr} (h : decode r = .ok i) : requestIssuer r = issuer i := by
  simp only [requestIssuer, h]

/-- While no context is stalled, only a request that waits is held. -/
theorem requestHeld_nil (s : State) (r : Request) : requestHeld s [] r = requestWaits s r := by
  cases h : requestIssuer r <;> simp [requestHeld, h]

theorem takeEnabled_oldest (hwaits : requestWaits s r = false) : takeEnabled s [] (r :: rest) = some (r, rest) :=
  takeEnabled_cons_free rest (by rw [requestHeld_nil, hwaits])

/-- A step runs the instruction of the request that it takes. -/
theorem step_of_taken {i : Instr} (h : takeEnabled s [] s.port = some (r, rest)) (hi : decode r = .ok i) :
    step s = exec i { s with port := rest } := by
  simp only [step, h, hi, State.setPort]

theorem step_of_none_taken (h : takeEnabled s [] s.port = none) : step s = .next s := by
  simp only [step, h]

/-- A step rejects the oldest request where that is no instruction (rules R102, R263). -/
theorem step_of_error {e : DecodeError} (hport : s.port = r :: rest) (he : decode r = .error e) :
    step s = .next (rejectRequest e { s with port := rest }) := by
  simp only [step, hport, takeEnabled_oldest (requestWaits_of_error he), he, State.setPort]

end

/-- Settles O47: the oldest request is taken where it is no waiting `LOCK`, and an empty port has none. -/
theorem stepRunsDecoded : Obligations.StepRunsDecoded := by
  unfold Obligations.StepRunsDecoded
  refine ⟨fun s r rest i hport hi hlock => step_of_taken (r := r) ?_ hi, fun s hport => step_of_none_taken ?_⟩
  · rw [hport]
    refine takeEnabled_oldest ?_
    rw [← Bool.not_eq_true, requestWaits_iff hi]
    rintro ⟨ctx, rfl, hwaits⟩
    rw [lockWaits_eq_false_iff.mpr (hlock ctx rfl)] at hwaits
    cases hwaits
  · rw [hport]; rfl

/-- Settles O58: every instruction answers a next state, and a step does nothing, runs one, or rejects a request. -/
theorem nothingHalts : Obligations.NothingHalts := by
  unfold Obligations.NothingHalts
  refine ⟨exists_exec_eq_next, fun s => ?_⟩
  rcases step_cases s with ⟨-, e⟩ | ⟨r, o, i, -, -, e⟩ | ⟨r, o, e', -, -, e⟩ <;> rw [e]
  · exact ⟨s, rfl⟩
  · exact exists_exec_eq_next i _
  · exact ⟨_, rfl⟩

/-! ### The waiting `LOCK` (rules R297, R328) -/

/-- Behind a stalled context its own requests are all passed by, and keep their places. -/
theorem takeEnabled_behind_stalled {s : State} {ctx : Context} {held : List Request}
    (hheld : ∀ r ∈ held, requestIssuer r = some ctx) (n : Nat) (rest : List Request) : ∃ m,
    takeEnabled s (List.replicate (n + 1) ctx) (held ++ rest) =
      (takeEnabled s (List.replicate (m + 1) ctx) rest).map fun x => (x.1, held ++ x.2) := by
  induction held generalizing n with
  | nil => exact ⟨n, by simp⟩
  | cons r held ih =>
    obtain ⟨hr, hheld⟩ := List.forall_mem_cons.mp hheld
    obtain ⟨m, hm⟩ := ih hheld (n + 1)
    refine ⟨m, ?_⟩
    rw [List.cons_append, takeEnabled_cons_held _ (requestHeld_of_stalled hr (by simp)), hr, Option.toList_some,
      List.singleton_append, ← List.replicate_succ, hm, Option.map_map]
    rfl

/-- A `LOCK` that waits at the head of the port keeps its place and stalls its context. -/
theorem takeEnabled_behind_lock {s : State} {ctx : Context} (hwaits : lockWaits ctx s = true) {held : List Request}
    (hheld : ∀ r ∈ held, requestIssuer r = some ctx) (rest : List Request) : ∃ m,
    takeEnabled s [] (encode (.lock ctx) :: held ++ rest) =
      (takeEnabled s (List.replicate (m + 1) ctx) rest).map fun x => (x.1, encode (.lock ctx) :: held ++ x.2) := by
  have hdecode : decode (encode (.lock ctx)) = .ok (.lock ctx) := decodeEncode _ rfl
  have hhead : requestHeld s [] (encode (.lock ctx)) = true := by
    rw [requestHeld_nil, requestWaits_iff hdecode]
    exact ⟨ctx, rfl, hwaits⟩
  obtain ⟨m, hm⟩ := takeEnabled_behind_stalled (s := s) hheld 0 rest
  have hstalled : (some ctx).toList ++ [] = List.replicate (0 + 1) ctx := rfl
  refine ⟨m, ?_⟩
  rw [List.cons_append, takeEnabled_cons_held _ hhead, requestIssuer_of_ok hdecode, issuer, hstalled, hm,
    Option.map_map]
  rfl

/-- There are two contexts (rule R285). -/
theorem context_eq_of_ne {c d ctx : Context} (hc : c ≠ ctx) (hd : d ≠ ctx) : c = d := by
  revert hc hd
  cases ctx <;> cases c <;> cases d <;> decide

/-- A request of another issuer is not held by a stalled context; if it is a `LOCK`, it is the owner's. -/
theorem requestHeld_of_other_issuer {s : State} {ctx c : Context} (hc : c ≠ ctx) (howner : s.mutexOwner = some c)
    {r : Request} {i : Instr} (hi : decode r = .ok i) (hissuer : issuer i ≠ some ctx) (m : Nat) :
    requestHeld s (List.replicate m ctx) r = false := by
  have hwaits : requestWaits s r = false := by
    rw [← Bool.not_eq_true, requestWaits_iff hi]
    rintro ⟨d, rfl, hlock⟩
    have hd : d ≠ ctx := fun e => hissuer (congrArg some e)
    rw [lockWaits_eq_false_iff.mpr (.inr (context_eq_of_ne hc hd ▸ howner))] at hlock
    cases hlock
  rw [requestHeld, hwaits, requestIssuer_of_ok hi, Bool.false_or]
  cases h : issuer i with
  | none => rfl
  | some d =>
    have hd : d ≠ ctx := fun e => hissuer (by rw [h, e])
    simp [hd]

/-- Settles O48: the `LOCK` waits at the head, its context's requests are passed by behind it, and the first request of
another issuer is free. -/
theorem Port.lockWaits : Obligations.LockWaits := by
  unfold Obligations.LockWaits
  intro s ctx c hc howner
  have hwaits : Machine.lockWaits ctx s = true := by
    rw [← Bool.not_eq_false, lockWaits_eq_false_iff, howner]
    rintro (h | h)
    · cases h
    · exact hc (Option.some.inj h)
  refine ⟨by simp only [exec, execLock, howner, if_neg hc, State.respond], fun held hheld => ?_⟩
  have hissuers : ∀ r ∈ held, requestIssuer r = some ctx := fun r hr => by
    obtain ⟨i, hi, hissuer⟩ := hheld r hr
    rw [requestIssuer_of_ok hi, hissuer]
  have stalls : ∀ l : List Request, (∀ r ∈ l, requestIssuer r = some ctx) → s.port = encode (.lock ctx) :: l →
      step s = .next s := fun l hl hport => by
    obtain ⟨m, hm⟩ := takeEnabled_behind_lock hwaits hl []
    refine step_of_none_taken ?_
    rw [hport, ← List.append_nil (_ :: l), hm]
    rfl
  refine ⟨stalls held hissuers, fun hbus r now ev lineOpen hr hport => stalls (held ++ [r]) ?_ hport,
    fun r i rest hi hissuer hport => ?_⟩
  · intro q hq
    rcases List.mem_append.mp hq with hq | hq
    · exact hissuers q hq
    · rw [List.mem_singleton.mp hq, requestIssuer_of_ok hr, hbus]
      rfl
  · obtain ⟨m, hm⟩ := takeEnabled_behind_lock hwaits hissuers (r :: rest)
    rw [takeEnabled_cons_free rest (requestHeld_of_other_issuer hc howner hi hissuer _)] at hm
    exact step_of_taken (by rw [hport, hm]; rfl) hi

/-! ### Requests that are no instruction (rules R102, R263) -/

/-- The byte of a number. -/
theorem eq_ofNat_of_toNat_eq {b : Byte} {n : Nat} (h : b.toNat = n) : b = BitVec.ofNat 8 n := by
  rw [← h, BitVec.ofNat_toNat, BitVec.setWidth_eq]

/-- A code outside rule R100 selects no reader. -/
theorem operandsOf_of_reserved {code : Byte} (h : code ∉ opselCodes) : operandsOf code.toNat = none := by
  unfold operandsOf
  split
  case h_31 => rfl
  all_goals
    rename_i e
    rw [eq_ofNat_of_toNat_eq e] at h
    exact absurd (by decide) h

/-- Settles O49: no reader is selected, so the request is a reserved code and is refused. -/
theorem reservedCodesRefused : Obligations.ReservedCodesRefused := by
  unfold Obligations.ReservedCodesRefused
  intro s code operands rest hcode hport
  have hdecode : decode (.op (code :: operands)) = .error (.reservedOpsel code) := by
    simp only [decode, decodeOp, operandsOf_of_reserved hcode]
  rw [step_of_error hport hdecode]
  rfl

/-- A code outside rule R96 is no instruction's. -/
theorem frameInstr_of_not_base {c : Byte} (h : c ∉ baseCommands) (r a n : Byte) (ws : List Word) (v : Passage) :
    frameInstr c.toNat r a n ws v = none := by
  unfold frameInstr
  split
  case h_13 => rfl
  all_goals
    rename_i e
    rw [eq_ofNat_of_toNat_eq e] at h
    exact absurd (by decide) h

theorem decode_putFrame_of_not_base {c r a n : Byte} {ws : List Word} {v : Passage} (h : c ∉ baseCommands)
    (hframe : wfFrame n ws v = true) :
    decode (putFrame c r a n ws v) = .error (.unknownCommand (framePacket c r a n ws) v) := by
  simp only [decode, putFrame, decodeFrame, takeFrame_put _ _ _ _ _ _ hframe, frameInstr_of_not_base h]

/-- `DECODE` rejects a packet by its command code where every other check passes (rule R127). -/
theorem decodeBytes_packetBytes_of_unknown {cfg : Config} {p : Packet} (hlength : p.payload.length = p.count.toNat)
    (h : ¬Known cfg p.command) : decodeBytes cfg (packetBytes p) = .error .unknownCommand := by
  have hbytes := length_packetBytes p
  have hcount : byteAt (packetBytes p) 0 = p.count := by rw [packetBytes_eq]; rfl
  have hcommand : byteAt (packetBytes p) 3 = p.command := by rw [packetBytes_eq]; rfl
  refine decodeBytes_of_unknown_command (by omega) (by rw [hcount]; omega) ?_ (by rwa [hcommand])
  rw [not_not, crc8_dropLast_eq_iff _ (by simp [packetBytes])]
  exact crc8_packetBytes p

/-- Settles O50: the packet passes as rule R263 says, and `ADD`, `WRITE` and read validation each find it invalid. -/
theorem unknownCommandsRefused : Obligations.UnknownCommandsRefused := by
  unfold Obligations.UnknownCommandsRefused
  intro s c r a n ws rest v hunknown hframe hport
  have hbase : c ∉ baseCommands := fun h => hunknown (.inl h)
  have hinvalid : ¬Valid s.cfg (framePacket c r a n ws) := fun h => hunknown (framePacket_command c r a n ws ▸ h.1)
  have hstep : step s = .next (passPacket (framePacket c r a n ws) v { s with port := rest }) :=
    step_of_error hport (decode_putFrame_of_not_base hbase hframe)
  rw [hstep]
  refine ⟨?_, ?_, ?_⟩
  · rintro ops rfl
    refine exec_add_of_refuses ?_
    rw [← Bool.not_eq_false, addRefuses_eq_false_iff]
    exact fun h => hinvalid h.1
  · rintro ops rfl
    refine exec_write_of_refuses ?_
    rw [← Bool.not_eq_true, writeAccepts_iff, isValid_iff_valid]
    exact fun ⟨_, _, hvalid⟩ => hinvalid hvalid
  · rintro now rfl hphase hfits
    have hlength : ws.length = n.toNat := by
      simp only [wfFrame, Bool.and_eq_true, beq_iff_eq] at hframe
      exact hframe.1
    refine exec_processEvents_of_rejected (s := { s with port := rest }) (ev := frameEvents (framePacket c r a n ws))
      hphase rfl rfl (validateRx_of_decode_error (e := .unknownCommand) ?_ (by simp) ?_)
    · rw [length_packetBytes, framePacket_payload]
      exact Nat.not_lt.mpr hfits
    · exact decodeBytes_packetBytes_of_unknown (by rwa [framePacket_payload, framePacket_count])
        (by rwa [framePacket_command])

end Sys2Proof.Machine
end

section
/-! SUPPORT. What follows from the packet unit's and the scheduler's operations: the streaming generator agrees with the check
byte (rule R123), a packet round trip (rule R130), a flipped bit is found (rule R131), and what the order of the schedule
leaves of eligibility (rule R148). -/

namespace Sys2Proof.Machine

/-! ### Runs -/

theorem execAll_cons {i : Instr} {s t : State} (h : exec i s = .next t) (is : List Instr) :
    execAll (i :: is) s = execAll is t := by
  simp only [execAll, h]

theorem execAll_append {is : List Instr} {s t : State} (h : execAll is s = .next t) (js : List Instr) :
    execAll (is ++ js) s = execAll js t := by
  induction is generalizing s with
  | nil => cases h; rfl
  | cons i is ih =>
    obtain ⟨u, hu⟩ := exists_exec_eq_next i s
    rw [execAll_cons hu] at h
    rw [List.cons_append, execAll_cons hu, ih h]

/-! ### The streaming generator (rules R121 to R123) -/

/-- The accumulator after `CRC.UPDATE` for each byte of a string. -/
theorem execAll_crcUpdate (xs : List Byte) (s : State) (h : s.result = .done) :
    execAll (xs.map .crcUpdate) s = .next { s with pkt := ⟨s.pkt.crcAcc ^^^ crc8 xs⟩ } := by
  induction xs generalizing s with
  | nil => simp [execAll]
  | cons x xs ih =>
    have hx : exec (.crcUpdate x) s = .next { s with pkt := ⟨s.pkt.crcAcc ^^^ x⟩ } := by
      rw [(streamOperations s x).2.1, ← h]
    rw [List.map_cons, execAll_cons hx, ih { s with pkt := ⟨s.pkt.crcAcc ^^^ x⟩ } h]
    simp only [crc8_cons, BitVec.xor_assoc]

/-- Settles O3: from zero the accumulator becomes the check byte, and the check byte cancels itself. -/
theorem streamAgreesWithCheckByte : Obligations.StreamAgreesWithCheckByte := by
  unfold Obligations.StreamAgreesWithCheckByte
  intro s xs
  have hinit : exec .crcInit s = .next { s with pkt := ⟨0x00⟩, result := .done } := (streamOperations s 0x00).1
  have hfed : execAll (.crcInit :: xs.map .crcUpdate) s = .next { s with pkt := ⟨crc8 xs⟩, result := .done } := by
    rw [execAll_cons hinit, execAll_crcUpdate xs _ rfl]
    simp
  refine ⟨crc8 xs, exec_crc8 xs s, ?_, ?_⟩
  · rw [execAll_append hfed]
    rfl
  · have hcancel : (crc8 xs ^^^ crc8 xs) = 0x00 := BitVec.xor_self
    rw [execAll_append hfed, ← hcancel]
    rfl

/-! ### The round trip (rule R130) -/

/-- Settles O9: `ENCODE` writes the bytes of the packet of its operands, and `DECODE` answers a packet for its own bytes
alone. -/
theorem packetRoundTrip : Obligations.PacketRoundTrip := by
  unfold Obligations.PacketRoundTrip
  intro s c r a ws
  refine ⟨fun hknown hwords => ?_, fun bs p hdecode => ?_⟩
  · have hvalid := isValid_framePacket s.cfg c r a ws hwords ((isKnown_iff_known s.cfg c).mpr hknown)
    refine ⟨_, _, exec_encode_of_length_le hwords c r a s, exec_decode_of_ok (decodeBytes_packetBytes s.cfg _ hvalid),
      framePacket_command .., framePacket_recipient .., framePacket_sender .., ?_, rfl, ?_⟩
    · rw [framePacket_count, BitVec.toNat_ofNat]
      omega
    · simp only [exec, execIsValid, hvalid, State.respond]
  · obtain ⟨hvalid, rfl⟩ := decodeBytes_ok (decodeBytes_of_exec_ok hdecode)
    exact exec_encode_of_valid ((isValid_iff_valid s.cfg p).mp hvalid)

/-! ### A flipped bit (rule R131) -/

/-- `ENCODE` is seen to answer bytes only for a payload that fits, and then those of its packet. -/
theorem packetBytes_of_exec_encode {s : State} {c r a : Byte} {ws : List Word} {bs : List Byte}
    (h : exec (.encode c r a ws) s = .next { s with result := .bytes bs }) :
    ws.length ≤ 255 ∧ bs = packetBytes (framePacket c r a (BitVec.ofNat 8 ws.length) ws) := by
  rcases Nat.lt_or_ge 255 ws.length with hlong | hfits
  · rw [exec_encode_of_length_gt hlong] at h
    cases congrArg State.result (Host.Outcome.next.inj h)
  · rw [exec_encode_of_length_le hfits] at h
    cases congrArg State.result (Host.Outcome.next.inj h)
    exact ⟨hfits, rfl⟩

theorem one_shiftLeft_ne_zero {k : Nat} (h : k < 8) : (0x01#8 <<< k) ≠ 0x00 := by
  interval_cases k <;> decide

theorem xor_ne_self {b d : Byte} (h : d ≠ 0x00) : b ^^^ d ≠ b := fun e => by
  have hself := congrArg (b ^^^ ·) e
  simp only [← BitVec.xor_assoc, BitVec.xor_self, BitVec.zero_xor] at hself
  exact h hself

/-- A changed byte of a packet's bytes is found: by the declared count where it is the count, else by the check byte. -/
theorem decodeBytes_of_changed_byte {cfg : Config} {p : Packet} (hlength : p.payload.length = p.count.toNat) {i : Nat}
    (hi : i < (packetBytes p).length) {d : Byte} (hd : d ≠ 0x00) :
    decodeBytes cfg ((packetBytes p).set i ((packetBytes p)[i] ^^^ d)) =
      .error (if i = 0 then .badLength else .badCrc) := by
  have hbytes := length_packetBytes p
  have hzero : (packetBytes p)[0]'(by omega) = p.count := by simp only [packetBytes_eq, List.getElem_cons_zero]
  have hset : ((packetBytes p).set i ((packetBytes p)[i] ^^^ d)).length = 5 + 4 * p.payload.length := by
    rw [List.length_set, hbytes]
  by_cases hcount : i = 0
  · subst hcount
    have hbyte : byteAt ((packetBytes p).set 0 ((packetBytes p)[0] ^^^ d)) 0 = p.count ^^^ d := by
      rw [byteAt, List.getD_eq_getElem _ _ (by omega), List.getElem_set_self, hzero]
    rw [if_pos rfl]
    refine decodeBytes_of_wrong_count fun e => xor_ne_self (b := p.count) hd (BitVec.eq_of_toNat_eq ?_)
    rw [hbyte] at e
    omega
  · have hbyte : byteAt ((packetBytes p).set i ((packetBytes p)[i] ^^^ d)) 0 = p.count := by
      rw [byteAt, List.getD_eq_getElem _ _ (by omega), List.getElem_set_ne hcount, hzero]
    rw [if_neg hcount]
    refine decodeBytes_of_bad_crc (by omega) (by rw [hbyte]; omega) ?_
    rw [ne_eq, crc8_dropLast_eq_iff _ (List.ne_nil_of_length_pos (by omega)), crc8_set, crc8_packetBytes]
    simpa using hd

/-- Settles O10: a flipped bit is a changed byte. -/
theorem bitFlipRejected : Obligations.BitFlipRejected := by
  unfold Obligations.BitFlipRejected
  intro s c r a ws bs i k hi hencode hk
  obtain ⟨hfits, rfl⟩ := packetBytes_of_exec_encode hencode
  refine exec_decode_of_error (decodeBytes_of_changed_byte ?_ hi (one_shiftLeft_ne_zero hk))
  rw [framePacket_payload, framePacket_count, BitVec.toNat_ofNat]
  omega

/-! ### Eligibility in a sorted schedule (rules R147, R148) -/

/-- In a sorted schedule the times do not fall. -/
theorem nextTime_le_of_sorted {l : List Transmission} (h : l.Pairwise fun x y => keyLt y x = false) {j k : Nat}
    (hjk : j < k) {x y : Transmission} (hx : l[j]? = some x) (hy : l[k]? = some y) : x.nextTimeUs ≤ y.nextTimeUs := by
  obtain ⟨hj, rfl⟩ := List.getElem?_eq_some_iff.mp hx
  obtain ⟨hk, rfl⟩ := List.getElem?_eq_some_iff.mp hy
  have hkey := (keyLt_false_iff _ _).mp (List.pairwise_iff_getElem.mp h j k hj hk hjk)
  omega

/-- Rule R148 (a): what stands ahead of a due entry is due, so that only priority lets it be passed. -/
theorem eligibleAt_iff_of_sorted {l : List Transmission} (h : l.Pairwise fun x y => keyLt y x = false) (now k : Nat) :
    EligibleAt l now k ↔ ∃ a, l[k]? = some a ∧ a.nextTimeUs ≤ now ∧
      ∀ j b, j < k → l[j]? = some b → b.recipient ≠ a.recipient ∧ a.priority.toNat < b.priority.toNat := by
  refine exists_congr fun a => and_congr_right fun ha => and_congr_right fun hdue => ?_
  refine forall₄_congr fun j b hj hb => and_congr_right fun _ => ?_
  have hahead := nextTime_le_of_sorted h hj hb ha
  omega

/-- Settles O14: (a) by the order of times; (b) is (a) for the later of the two entries; nothing is eligible before a head
that is not due, and a due head is eligible. -/
theorem orderingConsequences : Obligations.OrderingConsequences := by
  unfold Obligations.OrderingConsequences
  intro s now hinv
  have heligible := eligibleAt_iff_of_sorted hinv.sorted now
  refine ⟨heligible, fun j k x y hjk _ hk hx hy => ?_, ?_⟩
  · obtain ⟨a, ha, -, hpasses⟩ := (heligible k).mp hk
    obtain rfl := Option.some.inj (hy.symm.trans ha)
    exact (hpasses j x hjk hx).2
  have hanswer : exec (.peekNext now) s = .next { s with result := .transmission none } ↔
      peekNext s.sch.schedule now = none := by
    rw [exec_peekNext]
    refine ⟨fun h => ?_, fun h => by rw [h]⟩
    have hresult := congrArg State.result (Host.Outcome.next.inj h)
    exact Result.transmission.inj hresult
  rw [hanswer, peekNext_eq_none]
  constructor
  · intro hnone x hx
    by_contra hdue
    exact hnone 0 ⟨x, hx, by omega, fun j _ hj => absurd hj (Nat.not_lt_zero j)⟩
  · rintro hhead k ⟨a, ha, hdue, -⟩
    have hk := (List.getElem?_eq_some_iff.mp ha).1
    rcases Nat.eq_zero_or_pos k with rfl | hpos
    · have hlate := hhead a ha
      omega
    · have hzero := List.getElem?_eq_getElem (l := s.sch.schedule) (i := 0) (by omega)
      have hlate := hhead _ hzero
      have hbefore := nextTime_le_of_sorted hinv.sorted hpos hzero ha
      omega

end Sys2Proof.Machine
end

section
/-! SUPPORT. What follows for the bus unit (rules R25, R27, R174, R181, R185, R186): late polls free it, which instructions
write it, and what becomes of the read buffer. -/

namespace Sys2Proof.Machine

/-! ### Late polls (rules R177, R179, R181, R186) -/

/-- The bus unit after a poll (rules R175, R182). -/
def pollBus (cfg : Config) (now : Nat) (ev : LineEvents) (b : Bus) : Bus := freeBus (polledBus cfg now ev b)

theorem exec_processEvents_bus (s : State) (now : Nat) (ev : LineEvents) : ∃ t,
    exec (.processEvents now ev) s = .next t ∧ t.bus = pollBus s.cfg now ev s.bus ∧ t.cfg = s.cfg :=
  ⟨_, exec_processEvents s now ev, rfl, rfl⟩

theorem freeBus_idle_of_terminal {b : Bus} (h : b.phase.isTerminal = true) : (freeBus b).phase = .idle := by
  rw [freeBus_of_terminal h]

section
variable {cfg : Config} {now : Nat} {ev : LineEvents} {b : Bus}

theorem pollBus_of_idle (h : b.phase = .idle) : pollBus cfg now ev b = b := by
  rw [pollBus, polledBus_idle h, freeBus_of_not_terminal (by rw [h]; rfl)]

theorem pollBus_idle_of_failed {ph : Phase} {r : Reason} (h : polledBus cfg now ev b = busFail ph r b)
    (hph : ph.isTerminal = true) : (pollBus cfg now ev b).phase = .idle := by
  rw [pollBus, h]
  exact freeBus_idle_of_terminal hph

/-- A poll of a read in progress ends it, or changes nothing before the frame timeout (rule R181). -/
theorem pollBus_of_reading (h : b.phase = .readInProgress) : (pollBus cfg now ev b).phase = .idle ∨
    (pollBus cfg now ev b = b ∧ now ≤ b.tReadStart + cfg.frameReadTimeoutUs) := by
  have hpoll := (polledBus_readInProgress h cfg now ev).trans (stageR_eq h cfg now ev)
  split at hpoll
  · exact .inl (pollBus_idle_of_failed hpoll rfl)
  split at hpoll
  · split at hpoll
    · exact .inl (freeBus_idle_of_terminal (by rw [hpoll]; rfl))
    · exact .inl (pollBus_idle_of_failed hpoll rfl)
  split at hpoll
  · exact .inl (pollBus_idle_of_failed hpoll rfl)
  next hlate =>
    exact .inr ⟨by rw [pollBus, hpoll, freeBus_of_not_terminal (by rw [h]; rfl)], Nat.not_lt.mp hlate⟩

/-- A poll of an armed bus ends the wait, starts a read now, or changes nothing before the read timeout (rule R179). -/
theorem pollBus_of_armed (h : b.phase = .readArmed) : (pollBus cfg now ev b).phase = .idle ∨
    ((pollBus cfg now ev b).phase = .readInProgress ∧ (pollBus cfg now ev b).tReadStart = now) ∨
    (pollBus cfg now ev b = b ∧ now ≤ b.tArmed + b.readTimeoutUs) := by
  have hpoll := polledBus_readArmed h cfg now ev
  split at hpoll
  · have hread : pollBus cfg now ev b =
        pollBus cfg now ev { b with phase := .readInProgress, tReadStart := now } := by
      rw [pollBus, hpoll, pollBus, polledBus_readInProgress rfl]
    rw [hread]
    rcases pollBus_of_reading (cfg := cfg) (now := now) (ev := ev)
      (b := { b with phase := .readInProgress, tReadStart := now }) rfl with hidle | ⟨hsame, -⟩
    · exact .inl hidle
    · exact .inr (.inl (by rw [hsame]; exact ⟨rfl, rfl⟩))
  split at hpoll
  · exact .inl (pollBus_idle_of_failed hpoll rfl)
  next hlate =>
    exact .inr (.inr ⟨by rw [pollBus, hpoll, freeBus_of_not_terminal (by rw [h]; rfl)], Nat.not_lt.mp hlate⟩)

/-- A poll later than the write deadline ends the write or goes on as a poll of a bus that is armed now (rule R177). -/
theorem pollBus_of_late_write (h : b.phase = .writeInProgress) (hlate : b.writeDeadline < now) :
    (pollBus cfg now ev b).phase = .idle ∨
    pollBus cfg now ev b = pollBus cfg now ev { b with phase := .readArmed, tArmed := now } := by
  have hpoll := polledBus_writeInProgress h cfg now ev
  rw [if_pos hlate] at hpoll
  split at hpoll
  · exact .inl (pollBus_idle_of_failed hpoll rfl)
  split at hpoll
  · split at hpoll
    · exact .inr (by rw [pollBus, hpoll, pollBus])
    · exact .inl (freeBus_idle_of_terminal (by rw [hpoll]; rfl))
  · exact .inl (pollBus_idle_of_failed hpoll rfl)

/-- After a poll that is past every deadline, the bus is idle, or it has been armed or has begun to read at this poll. -/
theorem pollBus_of_late (hphase : b.phase.isTerminal = false) (hwrite : b.writeDeadline < now)
    (harmed : b.tArmed + b.readTimeoutUs < now) (hread : b.tReadStart + cfg.frameReadTimeoutUs < now) :
    (pollBus cfg now ev b).phase = .idle ∨
    ((pollBus cfg now ev b).phase = .readInProgress ∧ (pollBus cfg now ev b).tReadStart = now) ∨
    ((pollBus cfg now ev b).phase = .readArmed ∧ (pollBus cfg now ev b).tArmed = now ∧
      (pollBus cfg now ev b).readTimeoutUs = b.readTimeoutUs) := by
  cases h : b.phase
  case idle => exact .inl (by rw [pollBus_of_idle h, h])
  case writeInProgress =>
    rcases pollBus_of_late_write (cfg := cfg) (ev := ev) h hwrite with hidle | hgoes
    · exact .inl hidle
    rw [hgoes]
    rcases pollBus_of_armed (cfg := cfg) (now := now) (ev := ev) (b := { b with phase := .readArmed, tArmed := now })
      rfl with hidle | hbegun | ⟨hsame, -⟩
    · exact .inl hidle
    · exact .inr (.inl hbegun)
    · exact .inr (.inr (by rw [hsame]; exact ⟨rfl, rfl, rfl⟩))
  case readArmed =>
    rcases pollBus_of_armed (cfg := cfg) (now := now) (ev := ev) h with hidle | hbegun | ⟨-, hearly⟩
    · exact .inl hidle
    · exact .inr (.inl hbegun)
    · omega
  case readInProgress =>
    rcases pollBus_of_reading (cfg := cfg) (now := now) (ev := ev) h with hidle | ⟨-, hearly⟩
    · exact .inl hidle
    · omega
  all_goals rw [h] at hphase; cases hphase

end

/-- Settles O28: past all deadlines the bus is idle, armed or reading; past the read timeout it is idle or reading; past the
frame timeout it is idle. -/
theorem threeLatePollsFree : Obligations.ThreeLatePollsFree := by
  unfold Obligations.ThreeLatePollsFree
  intro s n1 n2 n3 e1 e2 e3 hphase hwrite harmed hread h12 hle h23
  obtain ⟨s1, h1, hbus1, hcfg1⟩ := exec_processEvents_bus s n1 e1
  obtain ⟨s2, h2, hbus2, hcfg2⟩ := exec_processEvents_bus s1 n2 e2
  obtain ⟨s3, h3, hbus3, -⟩ := exec_processEvents_bus s2 n3 e3
  refine ⟨s3, by rw [execAll_cons h1, execAll_cons h2, execAll_cons h3]; rfl, ?_⟩
  have hfirst := pollBus_of_late (ev := e1) hphase hwrite harmed hread
  rw [← hbus1] at hfirst
  have hsecond : s2.bus.phase = .idle ∨ (s2.bus.phase = .readInProgress ∧ s2.bus.tReadStart ≤ n2) := by
    rw [hbus2]
    rcases hfirst with hidle | ⟨hreading, hstart⟩ | ⟨hwaiting, hstart, htimeout⟩
    · exact .inl (by rw [pollBus_of_idle hidle, hidle])
    · rcases pollBus_of_reading (cfg := s1.cfg) (now := n2) (ev := e2) hreading with hidle | ⟨hsame, -⟩
      · exact .inl hidle
      · exact .inr (by rw [hsame]; exact ⟨hreading, by omega⟩)
    · rcases pollBus_of_armed (cfg := s1.cfg) (now := n2) (ev := e2) hwaiting with hidle | ⟨hreading, hbegun⟩ | ⟨-, hearly⟩
      · exact .inl hidle
      · exact .inr ⟨hreading, hbegun.le⟩
      · omega
  have hcfg : s2.cfg = s.cfg := hcfg2.trans hcfg1
  rw [hbus3]
  rcases hsecond with hidle | ⟨hreading, hstart⟩
  · rw [pollBus_of_idle hidle, hidle]
  · rcases pollBus_of_reading (cfg := s2.cfg) (now := n3) (ev := e3) hreading with hidle | ⟨-, hearly⟩
    · exact hidle
    · rw [hcfg] at hearly
      omega

/-! ### The read buffer in a poll (rules R180, R181) -/

/-- The read buffer is as it was, and no read has been completed. -/
structure KeepsRead (b b' : Bus) : Prop where
  readBuffer : b'.readBuffer = b.readBuffer
  completed  : b'.phase = .readComplete → b.phase = .readComplete

theorem KeepsRead.refl (b : Bus) : KeepsRead b b := ⟨rfl, id⟩

theorem KeepsRead.trans {a b c : Bus} (h : KeepsRead a b) (h' : KeepsRead b c) : KeepsRead a c :=
  ⟨h'.readBuffer.trans h.readBuffer, h.completed ∘ h'.completed⟩

theorem keepsRead_busFail {ph : Phase} (h : ph ≠ .readComplete) (r : Reason) (b : Bus) : KeepsRead b (busFail ph r b) :=
  ⟨rfl, fun e => absurd e h⟩

theorem keepsRead_stageW (now : Nat) (ev : LineEvents) (b : Bus) : KeepsRead b (stageW now ev b) := by
  rcases stageW_cases now ev b with e | ⟨r, e⟩ | e | e <;> rw [e]
  · exact .refl b
  · exact keepsRead_busFail (by decide) r b
  · exact ⟨rfl, nofun⟩
  · exact ⟨rfl, nofun⟩

theorem keepsRead_stageA (now : Nat) (ev : LineEvents) (b : Bus) : KeepsRead b (stageA now ev b) := by
  rcases stageA_cases now ev b with e | ⟨r, e⟩ | e <;> rw [e]
  · exact .refl b
  · exact keepsRead_busFail (by decide) r b
  · exact ⟨rfl, nofun⟩

/-- A read has been completed with a valid packet. -/
def CompletedValid (cfg : Config) (b : Bus) : Prop :=
  b.phase = .readComplete ∧ ∃ p, b.readBuffer = some p ∧ Valid cfg p

theorem stageR_keepsRead_or_completes (cfg : Config) (now : Nat) (ev : LineEvents) (b : Bus) :
    KeepsRead b (stageR cfg now ev b) ∨ CompletedValid cfg (stageR cfg now ev b) := by
  rcases stageR_cases cfg now ev b with e | ⟨r, e⟩ | ⟨p, hvalid, e⟩ <;> rw [e]
  · exact .inl (.refl b)
  · exact .inl (keepsRead_busFail (by decide) r b)
  · exact .inr ⟨rfl, p, rfl, hvalid⟩

/-- A poll writes the read buffer only where it completes a read, with a packet that is valid (rule R186 (c)). -/
theorem polledBus_keepsRead_or_completes (cfg : Config) (now : Nat) (ev : LineEvents) (b : Bus) :
    KeepsRead b (polledBus cfg now ev b) ∨ CompletedValid cfg (polledBus cfg now ev b) :=
  (stageR_keepsRead_or_completes cfg now ev _).imp_left
    (((keepsRead_stageW now ev b).trans (keepsRead_stageA now ev _)).trans ·)

@[simp] theorem freeBus_readBuffer (b : Bus) : (freeBus b).readBuffer = b.readBuffer := by
  unfold freeBus
  split <;> rfl

/-! ### What an operation does to the bus unit and to the wire (rules R25, R27, R174, R185) -/

/-- Events without bytes on the wire were appended. -/
def AppendsQuietly (s t : State) : Prop := ∃ es, t.out = s.out ++ es ∧ ∀ e ∈ es, e.isWire = false

theorem AppendsQuietly.of_out_eq {s t : State} (h : t.out = s.out) : AppendsQuietly s t := ⟨[], by simp [h], by simp⟩

theorem AppendsQuietly.trans {s t u : State} (h : AppendsQuietly s t) (h' : AppendsQuietly t u) : AppendsQuietly s u := by
  obtain ⟨es, he, hes⟩ := h
  obtain ⟨fs, hf, hfs⟩ := h'
  exact ⟨es ++ fs, by rw [hf, he, List.append_assoc], fun e hmem => (List.mem_append.mp hmem).elim (hes e) (hfs e)⟩

/-- The bus unit is as it was, and nothing was put on the wire. -/
structure Quiet (s t : State) : Prop where
  bus : t.bus = s.bus
  cfg : t.cfg = s.cfg
  out : AppendsQuietly s t

/-- Nothing was put on the wire: an idle bus is as it was, and a busy one keeps its read buffer or was freed with a valid
packet in it. -/
structure Unwritten (s t : State) : Prop where
  cfg        : t.cfg = s.cfg
  out        : AppendsQuietly s t
  idle       : s.bus.phase = .idle → t.bus = s.bus
  readBuffer : t.bus.readBuffer = s.bus.readBuffer ∨
    (s.bus.phase ≠ .idle ∧ t.bus.phase = .idle ∧ ∃ p, t.bus.readBuffer = some p ∧ Valid s.cfg p)

/-- Bytes were put on the wire: the bus is left writing, with no read buffer. -/
structure Written (s t : State) : Prop where
  out        : ∃ es bs, t.out = s.out ++ es ∧ Event.wire bs ∈ es
  phase      : t.bus.phase = .writeInProgress
  readBuffer : t.bus.readBuffer = none

theorem Quiet.refl (s : State) : Quiet s s := ⟨rfl, rfl, .of_out_eq rfl⟩

theorem Quiet.trans {s t u : State} (h : Quiet s t) (h' : Quiet t u) : Quiet s u :=
  ⟨h'.bus.trans h.bus, h'.cfg.trans h.cfg, h.out.trans h'.out⟩

theorem Quiet.respond {s t : State} (h : Quiet s t) (r : Result) : Quiet s (t.respond r) := ⟨h.bus, h.cfg, h.out⟩

theorem Quiet.unwritten {s t : State} (h : Quiet s t) : Unwritten s t :=
  ⟨h.cfg, h.out, fun _ => h.bus, .inl (by rw [h.bus])⟩

theorem Calm.isQuiet {s t : State} (h : Calm s t) : Quiet s t := by
  refine ⟨h.bus, h.cfg, ?_⟩
  obtain ⟨es, hes⟩ := h.out
  have hwires := h.quiet
  rw [← hes, List.filter_append, List.append_right_eq_self, List.filter_eq_nil_iff] at hwires
  exact ⟨es, hes.symm, fun e he => by simpa using hwires e he⟩

/-- An idle bus that is left alone is left alone, and a freed bus is idle. -/
theorem Unwritten.trans {s t u : State} (h : Unwritten s t) (h' : Unwritten t u) : Unwritten s u := by
  refine ⟨h'.cfg.trans h.cfg, h.out.trans h'.out, fun hidle => ?_, ?_⟩
  · have hbus := h.idle hidle
    rw [h'.idle (by rw [hbus, hidle]), hbus]
  · rcases h.readBuffer with hkept | ⟨hbusy, hfreed, hread⟩
    · refine h'.readBuffer.imp (fun hkept' => hkept'.trans hkept) fun ⟨hbusy', hfreed', p, hp, hvalid⟩ => ?_
      exact ⟨fun hidle => hbusy' (by rw [h.idle hidle, hidle]), hfreed', p, hp, h.cfg ▸ hvalid⟩
    · rw [h'.idle hfreed]
      exact .inr ⟨hbusy, hfreed, hread⟩

theorem Unwritten.written {s t u : State} (h : Unwritten s t) (h' : Written t u) : Written s u := by
  obtain ⟨es, he, -⟩ := h.out
  obtain ⟨⟨fs, bs, hf, hmem⟩, hphase, hread⟩ := h'
  exact ⟨⟨es ++ fs, bs, by rw [hf, he, List.append_assoc], List.mem_append_right _ hmem⟩, hphase, hread⟩

theorem Written.quiet {s t u : State} (h : Written s t) (h' : Quiet t u) : Written s u := by
  obtain ⟨fs, hf, -⟩ := h'.out
  obtain ⟨⟨es, bs, he, hmem⟩, hphase, hread⟩ := h
  exact ⟨⟨es ++ fs, bs, by rw [hf, he, List.append_assoc], List.mem_append_left _ hmem⟩, by rw [h'.bus, hphase],
    by rw [h'.bus, hread]⟩

/-- A poll, whatever else is done beside the bus. -/
theorem unwritten_of_poll {s t : State} {now : Nat} {ev : LineEvents} (hbus : t.bus = pollBus s.cfg now ev s.bus)
    (hcfg : t.cfg = s.cfg) (hout : AppendsQuietly s t) : Unwritten s t := by
  refine ⟨hcfg, hout, fun hidle => by rw [hbus, pollBus_of_idle hidle], ?_⟩
  rw [hbus, pollBus, freeBus_readBuffer]
  refine (polledBus_keepsRead_or_completes s.cfg now ev s.bus).imp KeepsRead.readBuffer fun ⟨hphase, hread⟩ => ?_
  refine ⟨fun hidle => ?_, freeBus_idle_of_terminal (by rw [hphase]; rfl), hread⟩
  cases hphase.symm.trans ((polledBus_idle_iff s.cfg now ev s.bus).mpr hidle)

theorem unwritten_processEvents (now : Nat) (ev : LineEvents) (s : State) : Unwritten s (processEvents now ev s).2 :=
  unwritten_of_poll (now := now) (ev := ev) rfl rfl (.of_out_eq rfl)

theorem unwritten_readTask (now : Nat) (ev : LineEvents) (s : State) : Unwritten s (readTask now ev s).2 := by
  refine unwritten_of_poll (readTask_bus now ev s) (taskFrame_readTask now ev s).cfg ?_
  rcases readTask_cases now ev s with ⟨-, e⟩ | ⟨-, -, e⟩ | ⟨t, -, -, e⟩ <;> rw [e]
  · exact .of_out_eq rfl
  · exact ⟨[.log .resultWithoutInFlight], rfl, by simp [Event.isWire]⟩
  · exact AppendsQuietly.trans (.of_out_eq rfl) (calm_deliverResult _ _).isQuiet.out

theorem busWrite_quiet_or_written (p : Packet) (w : WriteOperands) (s : State) :
    Quiet s (busWrite p w s).2 ∨ Written s (busWrite p w s).2 := by
  rcases busWrite_cases p w s with ⟨-, e⟩ | ⟨-, e⟩ <;> rw [e]
  · exact .inr ⟨⟨_, _, rfl, List.mem_singleton_self _⟩, rfl, rfl⟩
  · exact .inl (.refl s)

theorem writeTask_quiet_or_written (now : Nat) (lineOpen : Bool) (s : State) :
    Quiet s (writeTask now lineOpen s).2 ∨ Written s (writeTask now lineOpen s).2 := by
  rcases writeTask_cases now lineOpen s with e | ⟨t, l, -, -, -, -, -, e⟩ <;> rw [e]
  · exact .inl (.refl s)
  · exact .inr (Written.quiet ⟨⟨_, _, rfl, List.mem_singleton_self _⟩, rfl, rfl⟩ (calm_deliver _ _ _).isQuiet)

theorem quiet_ensureDiscovery (now : Nat) (s : State) (k : Fin 6) : Quiet s (ensureDiscovery now s k) := by
  rcases ensureDiscovery_cases now s k with ⟨-, e⟩ | ⟨-, -, e⟩ | ⟨-, -, e⟩ <;> rw [e]
  · exact .refl s
  · exact (calm_emit (.log .discoveryRefused) s).isQuiet
  · exact ⟨rfl, rfl, .of_out_eq rfl⟩

theorem quiet_foldl {f : State → α → State} (h : ∀ s a, Quiet s (f s a)) (l : List α) (s : State) :
    Quiet s (l.foldl f s) :=
  foldl_keeps (P := Quiet s) (fun t a ht => ht.trans (h t a)) l s (.refl s)

theorem quiet_opAdd (p : Packet) (a : AddOperands) (s : State) : Quiet s (opAdd p a s) := by
  rcases addTx_cases p a s with ⟨-, e⟩ | ⟨-, e⟩ <;> simp only [opAdd, e]
  · exact (Quiet.refl s).respond _
  · exact ⟨rfl, rfl, .of_out_eq rfl⟩

theorem quiet_opNodeTxComplete (k : Byte) (o : Option Packet) (t : Transmission) (s : State) :
    Quiet s (opNodeTxComplete k o t s) := by
  unfold opNodeTxComplete
  split
  · exact (Quiet.refl s).respond _
  next i _ =>
    refine Quiet.trans (calm_emit (.callback (.txComplete (.node i) o t)) s).isQuiet ?_
    cases o with
    | none => exact (Quiet.refl _).respond _
    | some p =>
      refine Quiet.respond ?_ _
      split
      · exact (calm_observe _ _ _).isQuiet
      · exact .refl _

/-- What an operation does to the bus unit: nothing, or, where it reaches the bus, nothing but a poll, or an accepted
`WRITE`. -/
def BusOutcome (reaches : Bool) (s t : State) : Prop := Quiet s t ∨ (reaches = true ∧ (Unwritten s t ∨ Written s t))

theorem BusOutcome.respond {reaches : Bool} {s t : State} (h : BusOutcome reaches s t) (r : Result) :
    BusOutcome reaches s (t.respond r) := by
  rcases h with h | ⟨hreaches, h | h⟩
  · exact .inl (h.respond r)
  · exact .inr ⟨hreaches, .inl ⟨h.cfg, h.out, h.idle, h.readBuffer⟩⟩
  · exact .inr ⟨hreaches, .inr ⟨h.out, h.phase, h.readBuffer⟩⟩

theorem BusOutcome.of_quiet_or_written {s t : State} (h : Quiet s t ∨ Written s t) : BusOutcome true s t :=
  h.imp_right fun h => ⟨rfl, .inr h⟩

theorem BusOutcome.of_unwritten {s t : State} (h : Unwritten s t) : BusOutcome true s t := .inr ⟨rfl, .inl h⟩

/-- `NODE.TASK` polls first and writes last (rule R216). -/
theorem busOutcome_opNodeTask (now : Nat) (ev : LineEvents) (lineOpen : Bool) (s : State) :
    BusOutcome true s (opNodeTask now ev lineOpen s) := by
  simp only [opNodeTask, nodeTask]
  refine BusOutcome.respond ?_ _
  have hbefore := ((unwritten_readTask now ev s).trans (calm_reactTo (readTask now ev s).1 _).isQuiet.unwritten).trans
    (quiet_foldl (quiet_ensureDiscovery now) nodeIndices _).unwritten
  rcases writeTask_quiet_or_written now lineOpen (nodeIndices.foldl (ensureDiscovery now)
    (reactTo (readTask now ev s).1 (readTask now ev s).2)) with h | h
  · exact .of_unwritten (hbefore.trans h.unwritten)
  · exact .inr ⟨rfl, .inr (hbefore.written h)⟩

/-- A packet's passage does to the bus what the operation it passes through does. -/
theorem busOutcome_passPacket (p : Packet) (v : Passage) (s : State) :
    BusOutcome (reachesBus.viaReachesBus v) s (passPacket p v s) := by
  cases v with
  | nodeTask now lineOpen => exact busOutcome_opNodeTask now _ lineOpen s
  | readTask now => exact BusOutcome.respond (.of_unwritten (unwritten_readTask now _ s)) _
  | processEvents now => exact BusOutcome.respond (.of_unwritten (unwritten_processEvents now _ s)) _
  | txComplete k t => exact .inl (quiet_opNodeTxComplete k (some p) t s)
  | add a => exact .inl (quiet_opAdd p a s)
  | write w => exact BusOutcome.respond (.of_quiet_or_written (busWrite_quiet_or_written p w s)) _

/-- Every instruction but `RESET`, by whether it reaches the bus (rules R25, R27). -/
theorem exec_busOutcome {i : Instr} (hi : i ≠ .reset) {s t : State} (he : exec i s = .next t) :
    BusOutcome (reachesBus i) s t := by
  have answers : ∀ r, BusOutcome false s (s.respond r) := fun r => .inl ((Quiet.refl s).respond r)
  cases i
  case reset => exact absurd rfl hi
  -- PKT
  case crcInit => cases he; exact .inl ⟨rfl, rfl, .of_out_eq rfl⟩
  case crcUpdate => cases he; exact .inl ⟨rfl, rfl, .of_out_eq rfl⟩
  case crcRead => cases he; exact answers _
  case crc8 => cases he; exact answers _
  case mkAddr => simp only [exec, execMkAddr] at he; split at he <;> cases he <;> exact answers _
  case encode => simp only [exec, execEncode] at he; split at he <;> cases he <;> exact answers _
  case decode => simp only [exec, execDecode] at he; split at he <;> cases he <;> exact answers _
  case isValid => cases he; exact answers _
  case setSender => cases he; exact answers _
  -- SCH
  case add p a => cases he; exact .inl (quiet_opAdd p a s)
  case peekNext => cases he; exact answers _
  case popItem id now =>
    cases he
    refine .inl (Quiet.respond ?_ _)
    unfold popItem
    split
    · exact .refl s
    · exact ⟨rfl, rfl, .of_out_eq rfl⟩
  case cancelById => cases he; exact .inl ((calm_cancelWhere _ s).isQuiet.respond _)
  case cancelByRecipient => cases he; exact .inl ((calm_cancelWhere _ s).isQuiet.respond _)
  case cancelAll => cases he; exact .inl ⟨rfl, rfl, .of_out_eq rfl⟩
  case countRecipients => cases he; exact answers _
  -- BUS
  case write p w => cases he; exact BusOutcome.respond (.of_quiet_or_written (busWrite_quiet_or_written p w s)) _
  case processEvents now ev => cases he; exact BusOutcome.respond (.of_unwritten (unwritten_processEvents now ev s)) _
  case isBusy => cases he; exact answers _
  case getReadData => cases he; exact answers _
  -- TL
  case tlReadTask now ev => cases he; exact BusOutcome.respond (.of_unwritten (unwritten_readTask now ev s)) _
  case tlWriteTask now lineOpen =>
    cases he
    exact BusOutcome.respond (.of_quiet_or_written (writeTask_quiet_or_written now lineOpen s)) _
  -- TOPO
  case nodeTask now ev lineOpen =>
    obtain rfl := Host.Outcome.next.inj he
    exact busOutcome_opNodeTask now ev lineOpen s
  case nodeTxStarted =>
    simp only [exec, execNodeTxStarted] at he
    split at he <;> cases he
    · exact answers _
    · exact .inl ((calm_emit _ s).isQuiet.respond _)
  case nodeTxFailed =>
    simp only [exec, execNodeTxFailed] at he
    split at he <;> cases he
    · exact answers _
    · exact .inl (((calm_emit _ s).trans (calm_countFailure _ _)).isQuiet.respond _)
  case nodeTxComplete k o t => cases he; exact .inl (quiet_opNodeTxComplete k o t s)
  -- MUTEX
  case lock =>
    simp only [exec, execLock] at he
    split at he
    · cases he; exact .inl ⟨rfl, rfl, .of_out_eq rfl⟩
    · split at he <;> cases he <;> exact answers _
  case unlock =>
    simp only [exec, execUnlock] at he
    split at he <;> cases he
    · exact .inl ⟨rfl, rfl, .of_out_eq rfl⟩
    · exact .inl ((calm_emit _ s).isQuiet.respond _)
  case tryLock =>
    simp only [exec, execTryLock] at he
    split at he
    · cases he; exact .inl ⟨rfl, rfl, .of_out_eq rfl⟩
    · split at he <;> cases he <;> exact answers _
  -- the twelve command codes
  all_goals cases he; exact busOutcome_passPacket _ _ s

/-! ### The statements (rules R25, R27, R174, R181, R185, R186) -/

/-- Settles O27: what does not reach the bus is quiet on it. -/
theorem onlyBusOperationsWriteBus : Obligations.OnlyBusOperationsWriteBus := by
  unfold Obligations.OnlyBusOperationsWriteBus
  intro i s hreaches
  obtain ⟨t, ht⟩ := exists_exec_eq_next i s
  have hi : i ≠ .reset := by rintro rfl; cases hreaches
  rcases exec_busOutcome hi ht with h | ⟨h, -⟩
  · exact ⟨t, ht, h.bus⟩
  · cases hreaches.symm.trans h

/-- Every instruction but `RESET` puts nothing on the wire, or ends with an accepted `WRITE`. -/
theorem exec_unwritten_or_written {i : Instr} (hi : i ≠ .reset) {s t : State} (he : exec i s = .next t) :
    Unwritten s t ∨ Written s t := by
  rcases exec_busOutcome hi he with h | ⟨-, h⟩
  · exact .inl h.unwritten
  · exact h

theorem not_wire_of_quiet {es : List Event} (h : ∀ e ∈ es, e.isWire = false) (bs : List Byte) : Event.wire bs ∉ es :=
  fun hmem => by cases h _ hmem

/-- Settles O25: with nothing on the wire the bus is as `Unwritten` says, with bytes on it as `Written` says. -/
theorem readBufferKept : Obligations.ReadBufferKept := by
  unfold Obligations.ReadBufferKept
  intro i s hi
  obtain ⟨t, ht⟩ := exists_exec_eq_next i s
  rcases exec_unwritten_or_written hi ht with h | h
  · obtain ⟨es, hout, hquiet⟩ := h.out
    exact ⟨t, es, ht, hout, fun ⟨bs, hmem⟩ => absurd hmem (not_wire_of_quiet hquiet bs),
      fun _ => ⟨h.idle, h.readBuffer⟩⟩
  · obtain ⟨es, bs, hout, hmem⟩ := h.out
    exact ⟨t, es, ht, hout, fun _ => ⟨h.phase, h.readBuffer⟩, fun hnone => absurd hmem (hnone bs)⟩

/-- Instructions without a `RESET` that put nothing on the wire leave an idle bus as it was. -/
theorem execAll_idle_bus {is : List Instr} (h : .reset ∉ is) (s : State) : ∃ u es, execAll is s = .next u ∧
    u.out = s.out ++ es ∧ (s.bus.phase = .idle → (∀ bs, Event.wire bs ∉ es) → u.bus = s.bus) := by
  induction is generalizing s with
  | nil => exact ⟨s, [], rfl, by simp, fun _ _ => rfl⟩
  | cons i is ih =>
    obtain ⟨hi, his⟩ := not_or.mp (mt List.mem_cons.mpr h)
    obtain ⟨t, es, ht, hes, -, hkept⟩ := readBufferKept i s (Ne.symm hi)
    obtain ⟨u, fs, hu, hfs, hrest⟩ := ih his t
    refine ⟨u, es ++ fs, by rw [execAll_cons ht, hu], by rw [hfs, hes, List.append_assoc], fun hidle hnone => ?_⟩
    obtain ⟨hbus, -⟩ := hkept fun bs hmem => hnone bs (List.mem_append_left _ hmem)
    rw [hrest (by rw [hbus hidle, hidle]) fun bs hmem => hnone bs (List.mem_append_right _ hmem), hbus hidle]

/-- Settles O24: the poll completed the read itself and freed the bus, and an idle bus is left as it was. -/
theorem readCompleteIsValid : Obligations.ReadCompleteIsValid := by
  unfold Obligations.ReadCompleteIsValid
  intro s t now ev st hphase he hst hcomplete
  obtain rfl := Host.Outcome.next.inj ((exec_processEvents s now ev).symm.trans he)
  obtain rfl := Result.status.inj hst
  rw [statusOf_phase] at hcomplete
  rcases polledBus_keepsRead_or_completes s.cfg now ev s.bus with hkept | ⟨-, p, hp, hvalid⟩
  · rw [PhaseInv, hkept.completed hcomplete] at hphase
    cases hphase
  refine ⟨p, by rw [statusOf, if_pos hcomplete, hp], hvalid, fun is his => ?_⟩
  obtain ⟨u, es, hu, hout, hbus⟩ := execAll_idle_bus his _
  refine ⟨u, hu, fun hnone => ?_⟩
  rw [hout, List.drop_left] at hnone
  rw [(busReads u).2, hbus (freeBus_idle_of_terminal (by rw [hcomplete]; rfl)) hnone, freeBus_readBuffer, hp]

end Sys2Proof.Machine
end

section
/-! SUPPORT. What follows for whole instructions: who writes what (rules R24, R28, R48, R50, R299), ids that stay absent (rules
R79, R150 to R153), and the twelve command codes as packets that pass through the block (rules R250 to R262). -/

namespace Sys2Proof.Machine

/-! ### Who writes what (rules R24, R28, R48, R50, R299) -/

/-- The frame of every shared operation: what none writes, the trace that each only appends to, and the next id that none
lowers. -/
structure OwnFrame (s t : State) : Prop extends TaskFrame s t where
  nextId : s.sch.nextId ≤ t.sch.nextId

theorem TaskFrame.own_of_sch {s t : State} (h : TaskFrame s t) (e : t.sch = s.sch) : OwnFrame s t := ⟨h, by rw [e]⟩

theorem Calm.ownFrame {s t : State} (h : Calm s t) : OwnFrame s t := ⟨h.taskFrame, h.nextId.ge⟩

theorem ownFrame_ensureDiscovery (now : Nat) (k : Fin 6) (s : State) : OwnFrame s (ensureDiscovery now s k) := by
  refine ⟨taskFrame_ensureDiscovery now k s, ?_⟩
  rcases ensureDiscovery_cases now s k with ⟨-, e⟩ | ⟨-, -, e⟩ | ⟨-, -, e⟩ <;> rw [e]
  · rfl
  · exact Nat.le_succ _

theorem ownFrame_writeTask (now : Nat) (lineOpen : Bool) (s : State) : OwnFrame s (writeTask now lineOpen s).2 := by
  refine ⟨taskFrame_writeTask now lineOpen s, ?_⟩
  rcases writeTask_cases now lineOpen s with e | ⟨t, l, -, -, -, -, -, e⟩
  · rw [e]
  · rw [e]; rfl

theorem ownFrame_busWrite (p : Packet) (w : WriteOperands) (s : State) : OwnFrame s (busWrite p w s).2 := by
  refine TaskFrame.own_of_sch ?_ (busWrite_sch p w s)
  rcases busWrite_cases p w s with ⟨-, e⟩ | ⟨-, e⟩ <;> rw [e]
  · exact ⟨rfl, rfl, rfl, rfl, List.prefix_append _ _⟩
  · exact .refl s

/-- What the frame carries over is kept by every shared operation. -/
theorem kept_of_ownFrame {P : State → Prop} (h : ∀ s t, OwnFrame s t → P s → P t) : Kept P where
  respond _ s := h s _ ⟨⟨rfl, rfl, rfl, rfl, List.prefix_rfl⟩, le_rfl⟩
  emit e s := h s _ ((taskFrame_emit e s).own_of_sch rfl)
  add _ _ s _ := h s _ ⟨⟨rfl, rfl, rfl, rfl, List.prefix_rfl⟩, Nat.le_succ _⟩
  pop _ _ _ s _ := h s _ ⟨⟨rfl, rfl, rfl, rfl, List.prefix_rfl⟩, le_rfl⟩
  cancel p s := h s _ (calm_cancelWhere p s).ownFrame
  readTask now ev s := h s _ ((taskFrame_readTask now ev s).own_of_sch (readTask_sch now ev s))
  writeTask now lineOpen s := h s _ (ownFrame_writeTask now lineOpen s)
  ensureDiscovery now k s := h s _ (ownFrame_ensureDiscovery now k s)
  observe k p s := h s _ (calm_observe k p s).ownFrame
  countFailure k s := h s _ (calm_countFailure k s).ownFrame

/-- So it is kept by every instruction, if the writes of the accumulator, of the owner and of `RESET` keep it. -/
theorem exec_keeps_of_ownFrame {P : State → Prop} (h : ∀ s t, OwnFrame s t → P s → P t) {i : Instr} {s t : State}
    (hcrc : (i = .crcInit ∨ ∃ b, i = .crcUpdate b) → ∀ c s, P s → P (s.setCrc c))
    (howner : (∃ ctx, i = .lock ctx ∨ i = .unlock ctx ∨ i = .tryLock ctx) → ∀ o s, P s → P (s.setOwner o))
    (hreset : i = .reset → ∀ s, P s → P (resetState s)) (hs : P s) (he : exec i s = .next t) : P t :=
  exec_keeps (kept_of_ownFrame h) hcrc howner hreset
    (fun _ _ _ s => h s _ ⟨⟨rfl, rfl, rfl, rfl, List.prefix_rfl⟩, le_rfl⟩)
    (fun _ p w s => h s _ (ownFrame_busWrite p w s)) hs he

/-- Settles O59: each field by itself, so that an instruction which writes one of them keeps the others. -/
theorem ownedState : Obligations.OwnedState := by
  unfold Obligations.OwnedState
  intro i s
  obtain ⟨t, ht⟩ := exists_exec_eq_next i s
  have hcfg : t.cfg = s.cfg := exec_keeps_of_ownFrame (P := fun u => u.cfg = s.cfg) (fun _ _ f e => f.cfg.trans e)
    (fun _ _ _ e => e) (fun _ _ _ e => e) (fun _ _ e => e) rfl ht
  have hport : t.port = s.port := exec_keeps_of_ownFrame (P := fun u => u.port = s.port) (fun _ _ f e => f.port.trans e)
    (fun _ _ _ e => e) (fun _ _ _ e => e) (fun _ _ e => e) rfl ht
  refine ⟨t, ht, hcfg, hport, fun hreset => ⟨?_, ?_, fun hinit hupdate => ?_, fun hmutex => ?_⟩⟩
  · exact exec_keeps_of_ownFrame (P := fun u => s.sch.nextId ≤ u.sch.nextId) (fun _ _ f e => e.trans f.nextId)
      (fun _ _ _ e => e) (fun _ _ _ e => e) (fun e => absurd e hreset) le_rfl ht
  · exact exec_keeps_of_ownFrame (P := fun u => s.out <+: u.out) (fun _ _ f e => e.trans f.out)
      (fun _ _ _ e => e) (fun _ _ _ e => e) (fun e => absurd e hreset) List.prefix_rfl ht
  · refine exec_keeps_of_ownFrame (P := fun u => u.pkt = s.pkt) (fun _ _ f e => f.pkt.trans e) ?_
      (fun _ _ _ e => e) (fun e => absurd e hreset) rfl ht
    rintro (e | ⟨b, e⟩)
    · exact absurd e hinit
    · exact absurd e (hupdate b)
  · refine exec_keeps_of_ownFrame (P := fun u => u.mutexOwner = s.mutexOwner) (fun _ _ f e => f.mutexOwner.trans e)
      (fun _ _ _ e => e) ?_ (fun e => absurd e hreset) rfl ht
    rintro ⟨ctx, e⟩
    obtain ⟨hlock, hunlock, htry⟩ := hmutex ctx
    exact absurd e (by simp [hlock, hunlock, htry])

/-! ### Ids that stay absent (rules R28, R79, R150 to R154) -/

/-- Settles O18: a gone id stays gone in every shared operation, and a step takes `RESET` only from the port. -/
theorem absentIdStaysAbsent : Obligations.AbsentIdStaysAbsent := by
  unfold Obligations.AbsentIdStaysAbsent
  intro s id hgiven habsent
  have hgone : IdGone id s := ⟨hgiven, habsent⟩
  refine ⟨fun i hi => ?_, fun hport => ?_⟩
  · obtain ⟨t, ht⟩ := exists_exec_eq_next i s
    exact ⟨t, ht, hgone.exec hi ht⟩
  · obtain ⟨t, ht⟩ := nothingHalts.2 s
    refine ⟨t, ht, step_keeps (kept_idGone id) (fun _ _ h => h.of_sch_eq rfl) (fun _ _ h => h.of_sch_eq rfl)
      (fun _ _ h => h.of_sch_eq rfl) ?_ (fun _ _ _ h => h.of_sch_eq rfl)
      (fun p w u h => h.of_sch_eq (busWrite_sch p w u)) hgone ht⟩
    rintro ⟨r, hr, hreset⟩
    exact absurd hreset (hport r hr)

/-! ### The command codes (rules R250 to R262) -/

section
variable {x : Byte × (Byte → Byte → Byte → List Word → Passage → Instr)} (hx : x ∈ commandInstrs)
include hx

theorem mem_baseCommands_of_mem_commandInstrs : x.1 ∈ baseCommands := by
  have hcodes : commandInstrs.map Prod.fst = baseCommands := rfl
  exact hcodes ▸ List.mem_map_of_mem hx

/-- A command's packet of the declared length is valid in every configuration (rule R128). -/
theorem valid_command {n : Byte} {ws : List Word} (hlength : ws.length = n.toNat) (cfg : Config) (r a : Byte) :
    Valid cfg (framePacket x.1 r a n ws) :=
  ⟨.inl (by rw [framePacket_command]; exact mem_baseCommands_of_mem_commandInstrs hx),
    by rw [framePacket_payload, framePacket_count, hlength]⟩

end

/-- `ENCODE` answers the bytes of the packet whose count byte is the number of its words. -/
theorem exec_encode_of_count {n : Byte} {ws : List Word} (h : ws.length = n.toNat) (c r a : Byte) (s : State) :
    exec (.encode c r a ws) s = .next { s with result := .bytes (packetBytes (framePacket c r a n ws)) } := by
  have hcount : BitVec.ofNat 8 ws.length = n := (eq_ofNat_of_toNat_eq h.symm).symm
  rw [exec_encode_of_length_le (by have := n.isLt; omega), hcount]

/-- Settles O44: each passage is the operation that carries the packet, on the events that its bytes make. -/
theorem commandsPassThrough : Obligations.CommandsPassThrough := by
  unfold Obligations.CommandsPassThrough
  intro x hx s r a n ws now lineOpen k t ops w hlength
  refine ⟨framePacket x.1 r a n ws, packetBytes (framePacket x.1 r a n ws), framePacket_command .., framePacket_recipient ..,
    framePacket_sender .., framePacket_count .., rfl, exec_encode_of_count hlength x.1 r a s, ?_⟩
  simp only [exec_command hx]
  exact ⟨rfl, rfl, rfl, rfl, rfl, rfl⟩

/-- Settles O45: a command's packet is valid, so `ADD` and `WRITE` refuse it for none of its own. -/
theorem commandsOutbound : Obligations.CommandsOutbound := by
  unfold Obligations.CommandsOutbound
  intro x hx s r a n ws ops w hlength
  let p := framePacket x.1 r a n ws
  have hvalid : Valid s.cfg p := valid_command hx hlength s.cfg r a
  have hcount : p.count = n := framePacket_count ..
  rw [exec_command hx, exec_command hx]
  refine ⟨fun hwords hroom hid => ?_, fun hidle hopen => ?_⟩
  · obtain ⟨l, hadd, hinserted⟩ := (addOperation s p ops).1 hvalid hwords hroom hid
    rw [hcount] at hinserted
    exact ⟨l, p, framePacket_command .., framePacket_recipient .., framePacket_sender .., hcount, rfl, hadd, hinserted⟩
  · have haccepts : writeAccepts p w s = true :=
      (writeAccepts_iff p w s).mpr ⟨hidle, hopen, (isValid_iff_valid s.cfg p).mpr hvalid⟩
    have hsent : setSender p (busAddr s.cfg) = framePacket x.1 r (busAddr s.cfg) n ws := by
      simp only [setSender_eq, p, framePacket_command, framePacket_recipient, framePacket_count, framePacket_payload]
    refine ⟨startedBus p w s, packetBytes (setSender p (busAddr s.cfg)), ?_, exec_write_of_accepts haccepts,
      startedBus_phase p w s, startedBus_txBytes p w s⟩
    rw [hsent, exec_encode_of_count hlength]

/-- A poll that finds an accepted frame on the line completes the read, begun in this poll or before (rules R179, R181). -/
theorem polledBus_of_received {cfg : Config} {now : Nat} {ev : LineEvents} {b : Bus} {f : RxFrame} {p : Packet}
    (hphase : b.phase = .readArmed ∨ b.phase = .readInProgress) (hoverflow : ev.rxOverflow = false)
    (hframe : ev.rxFrame = some f) (h : validateRx cfg f = .ok p) : polledBus cfg now ev b = { b with
      phase := .readComplete
      readBuffer := some p
      tReadStart := if b.phase = .readArmed then now else b.tReadStart } := by
  have hread : ∀ c : Bus, c.phase = .readInProgress →
      stageR cfg now ev c = { c with readBuffer := some p, phase := .readComplete } := fun c hc => by
    simp only [stageR_eq hc, hoverflow, Bool.false_eq_true, if_false, hframe, h]
  rcases hphase with harmed | hreading
  · rw [polledBus_readArmed harmed, if_pos ((responseBegun_iff ev).mpr (.inr (.inl (by rw [hframe]; nofun)))), hread _ rfl,
      if_pos harmed]
  · rw [polledBus_readInProgress hreading, hread b hreading, if_neg (by rw [hreading]; decide)]

/-- Settles O46: the packet's own bytes pass read validation, whatever its code. -/
theorem commandsInbound : Obligations.CommandsInbound := by
  unfold Obligations.CommandsInbound
  intro x hx s r a n ws now t hlength hphase hflight hfits
  let p := framePacket x.1 r a n ws
  have hvalid : Valid s.cfg p := valid_command hx hlength s.cfg r a
  have hrx : validateRx s.cfg ⟨packetBytes p, true, true⟩ = .ok p :=
    (validateRx_ok_iff _ _ _).mpr ⟨by rw [length_packetBytes]; exact hfits, rfl, rfl,
      decodeBytes_packetBytes s.cfg p ((isValid_iff_valid s.cfg p).mpr hvalid)⟩
  have hpoll := polledBus_of_received (now := now) (ev := frameEvents p) hphase rfl rfl hrx
  refine ⟨p, framePacket_command .., framePacket_recipient .., framePacket_sender .., framePacket_count .., rfl, ?_⟩
  have hread := exec_tlReadTask_of_completed (p := some p) (now := now) (ev := frameEvents p) (by rw [hpoll]; rfl) hflight
    (by rw [hpoll]; rfl)
  rw [exec_command hx]
  refine hread.trans ?_
  rw [hpoll]
  rfl

end Sys2Proof.Machine
end

section
/-! SUPPORT. What follows for the topology: packets that a node ignores (rules R221, R243), the Main Node's connection behind
the presence of its Sub Nodes (rules R226, R234 to R236), and the discovery ids after `NODE.TASK` (rule R247). -/

namespace Sys2Proof.Machine

/-! ### Packets that are ignored (rules R221, R243) -/

theorem observe_of_absent {k : Fin 6} {s : State} (h : s.isPresent k = false) (p : Packet) : observe k p s = s :=
  if_pos h

theorem exec_nodeTxComplete_none {b : Byte} {k : Fin 6} (h : b.toNat = k.val) (t : Transmission) (s : State) :
    exec (.nodeTxComplete b none t) s = .next ((s.emit (.callback (.txComplete (.node k) none t))).respond .done) := by
  simp only [exec, execNodeTxComplete, opNodeTxComplete, nodeOfByte_eq h]

/-- Settles O39: without a valid packet nothing is observed, and an absent node observes nothing. -/
theorem packetIgnored : Obligations.PacketIgnored := by
  unfold Obligations.PacketIgnored
  intro s b k o t hb hignored
  cases o with
  | none => exact exec_nodeTxComplete_none hb t s
  | some p =>
    rw [exec_nodeTxComplete hb]
    rcases hignored p rfl with hinvalid | habsent
    · rw [if_neg (mt (isValid_iff_valid s.cfg p).mp hinvalid)]
      rfl
    · rw [observe_of_absent (s := s.emit _) habsent, ite_self]
      rfl

/-! ### The Main Node's connection (rules R226, R234 to R236) -/

/-- A Sub Node goes: it is present, and its bit of the sender byte is clear (rule R236). -/
def subNodeGoes (p : Packet) (s : State) (j : Fin 6) : Bool := (s.node j).present && !p.sender.getLsbD (j.val - 1)

/-- The events of one Sub Node that comes, stays or goes (rules R231, R234). -/
def presenceEvents (p : Packet) (s : State) (j : Fin 6) : List Event :=
  if subNodeGoes p s j then (s.node j).functions.map (Event.functionDestroyed j) ++ [.log (.subNodeGone j)]
  else if p.sender.getLsbD (j.val - 1) && !(s.node j).present then [.log (.subNodePresent j)]
  else []

/-- Device information with a recognized bit at the Main Node, behind what it notices, as one next state but for the node
records. -/
theorem processDeviceInfo_noticed_main {p : Packet} {s : State} (h : selectedCodes s.cfg (deviceMask p) ≠ []) :
    processDeviceInfo 0 p (noticed 0 p s) = { s with
      topo := ((noticed 0 p s).setNode 0
        (connectedNode (s.node 0) ((selectedCodes s.cfg (deviceMask p)).take maxFunctions))).topo
      sch := ⟨s.sch.schedule.filter (fun x => some x.id != (s.node 0).discoveryId &&
        subIndices.all (fun j => !(subNodeGoes p s j && x.recipient == nodeAddr s.cfg j))), s.sch.nextId⟩
      out := s.out ++ subIndices.flatMap (presenceEvents p s) ++ unknownBitsEvents s.cfg 0 (deviceMask p) ++
        destroyedEvents 0 (s.node 0).functions ++
        excessEvents 0 (selectedCodes s.cfg (deviceMask p)) (deviceMask p) ++
        createdEvents 0 ((selectedCodes s.cfg (deviceMask p)).take maxFunctions) } := by
  have hschedule := noticed_main_schedule p s
  have hout := noticed_main_out p s
  obtain ⟨hpkt, hbus, hnext, -, htl, -, -, howner, hcfg, hport, hresult⟩ := calm_noticed 0 p s
  rw [processDeviceInfo_of_recognized (s := noticed 0 p s) (by rw [hcfg]; exact h), noticed_main_node_zero, hschedule,
    hout, hnext, hpkt, hbus, htl, howner, hcfg, hport, hresult, List.filter_filter]
  rfl

/-- Settles O41: the Sub Nodes by what the Main Node notices, its own record and events by its new functions. -/
theorem mainNodeConnects : Obligations.MainNodeConnects := by
  unfold Obligations.MainNodeConnects
  rintro s b p t rfl hcfg hvalid here goes mask table hcommand ⟨c, hc, hmask⟩
  let s' := s.emit (.callback (.txComplete (.node 0) (some p) t))
  have hselected : selectedCodes s.cfg mask ≠ [] := fun h => hmask ((selectedCodes_eq_nil_iff s.cfg mask).mp h c hc)
  have htaken := functionsTaken_selectedCodes hcfg 0 hselected
  rw [exec_nodeTxComplete_valid (b := 0) (k := 0) rfl hvalid, observe_of_present (State.isPresent_zero s'),
    if_pos hcommand, processDeviceInfo_noticed_main (s := s') hselected]
  exact ⟨_, _, _, _, rfl, State.setNode_node_same _ 0 _,
    fun j hj => (State.setNode_node_other _ 0 j _ hj).trans (noticed_main_node_sub hj p s'), htaken.nonempty,
    htaken.atMostThree, htaken.descending, htaken.recognized, htaken.highest, htaken.allKnown, htaken.someUnknown,
    htaken.noExcess, htaken.excess⟩

/-! ### Discovery ids after NODE.TASK (rules R220, R247) -/

/-- A node that is present and searches has a discovery id or wants one. -/
theorem discoveryId_ne_none_of_not_wanting {k : Fin 6} {s : State} (h : wantsDiscovery k s = false)
    (hpresent : s.isPresent k = true) (hsearching : (s.node k).state = .searching) : (s.node k).discoveryId ≠ none :=
  fun hnone => by cases h.symm.trans ((wantsDiscovery_iff k s).mpr ⟨hpresent, hsearching, hnone⟩)

/-- A round of requests with room for all six leaves every present searching node with a discovery id (rule R247 (e)). -/
theorem discoveryId_ne_none_after_round {now : Nat} {s : State} (hroom : HasRoom s 5) {k : Fin 6}
    (hpresent : (nodeIndices.foldl (ensureDiscovery now) s).isPresent k = true)
    (hsearching : ((nodeIndices.foldl (ensureDiscovery now) s).node k).state = .searching) :
    ((nodeIndices.foldl (ensureDiscovery now) s).node k).discoveryId ≠ none := by
  obtain ⟨m, hround⟩ := discoveryRound_foldl now nodeIndices (by decide) s
  have hsix : (nodeIndices.filter fun k => wantsDiscovery k s).length ≤ 6 := List.length_filter_le _ nodeIndices
  have hall : m = (nodeIndices.filter fun k => wantsDiscovery k s).length := by
    refine le_antisymm hround.le (Nat.le_of_not_lt fun hlt => ?_)
    exact absurd ((hround.room m hlt).mpr (hroom.of_le (by omega))) (Nat.lt_irrefl m)
  have hgiven := hround.given
  have hothers := hround.others k
  rw [hall, List.take_length] at hgiven hothers
  by_cases hwants : k ∈ nodeIndices.filter fun k => wantsDiscovery k s
  · obtain ⟨i, hi⟩ := List.mem_iff_getElem?.mp hwants
    rw [hgiven i k hi]
    exact Option.some_ne_none _
  · have hnode := hothers hwants
    have hnot : wantsDiscovery k s = false := by
      rw [← Bool.not_eq_true]
      exact fun h => hwants (List.mem_filter.mpr ⟨mem_nodeIndices k, h⟩)
    rw [State.isPresent, hnode] at hpresent
    rw [hnode] at hsearching ⊢
    exact discoveryId_ne_none_of_not_wanting hnot hpresent hsearching

/-- Settles O35: the read half and the reaction leave the room there is, and the write half writes no node. -/
theorem searchersHaveDiscoveryIds : Obligations.SearchersHaveDiscoveryIds := by
  unfold Obligations.SearchersHaveDiscoveryIds
  intro s now ev lineOpen hwords hcapacity hids
  let u := reactTo (readTask now ev s).1 (readTask now ev s).2
  have hcalm : Calm (readTask now ev s).2 u := calm_reactTo _ _
  have hcfg : u.cfg = s.cfg := hcalm.cfg.trans (taskFrame_readTask now ev s).cfg
  have hnext : u.sch.nextId = s.sch.nextId := by rw [hcalm.nextId, readTask_sch]
  have hroom : HasRoom u 5 := by
    rw [HasRoom, hcfg, hcapacity, hnext]
    exact ⟨hwords, nofun, hids⟩
  refine ⟨_, exec_nodeTask now ev lineOpen s, fun k => ?_⟩
  have hnode : ((writeTask now lineOpen (nodeIndices.foldl (ensureDiscovery now) u)).2).node k =
      (nodeIndices.foldl (ensureDiscovery now) u).node k := by
    rw [State.node, writeTask_topo, State.node]
  rw [State.respond_isPresent, State.respond_node, State.isPresent, hnode]
  exact fun hpresent => discoveryId_ne_none_after_round hroom hpresent

end Sys2Proof.Machine
end
